-- ==== Sys2Proof/Word.lean ====
section
/-! DEFINITION. The bit vectors of RPK78: bytes of the buffers, 16-bit registers, 32-bit command words
(spec/10_state.md R20, R22, R30; spec/30_encoding.md R80). -/

namespace Sys2Proof

/-- One element of `W`, `B` or `NAME` (R22, R24, R26). -/
abbrev Byte := BitVec 8

/-- A general register, a control register, an element of `P` or `E` (R20, R25, R28, R30). -/
abbrev Word := BitVec 16

/-- A command word, handed over whole by the host (R80). -/
abbrev Command := BitVec 32

end Sys2Proof
end

