-- ==== Sys2Proof/Syntax.lean ====
section
/-! DEFINITION. The abstract syntax of the commands: one constructor per row of spec/opcode_table.json
(spec/30_encoding.md R82, R84), operands as the formats of R82 name them. -/

namespace Sys2Proof

/-- The eight general registers `x0` to `x7` (spec/10_state.md R20). -/
inductive Reg
  | x0 | x1 | x2 | x3 | x4 | x5 | x6 | x7
deriving DecidableEq, Repr

/-- The sixteen control and status registers, in the order of their numbers 0 to 15
(spec/10_state.md R30). -/
inductive Csr
  | st | fcause | finfo | fcix | wlen | namelen | psec | err
  | elenact | ehdrmask | epaycnt | eln | emiss | erngidx | erngval | cix
deriving DecidableEq, Repr

/-- The 31 commands (spec/30_encoding.md R84). `rd` is a destination register, `rs`, `rs1`, `rs2`
sources, `rb` the base register of an effective index (R82); `ri` and `bi` hold the wire and the body
index of a group command (the spec's `rw` and `rbd`), `rn` a length. -/
inductive Instr
  | nop
  | li (rd : Reg) (imm : Word)
  | csrr (rd : Reg) (csr : Csr)
  | csrw (csr : Csr) (rs : Reg)
  | lde (rd rb : Reg) (imm : Word)
  | ldw (rd rb : Reg) (imm : Word)
  | stw (rs rb : Reg) (imm : Word)
  | ldb (rd rb : Reg) (imm : Word)
  | stb (rs rb : Reg) (imm : Word)
  | ldp (rd rb : Reg) (imm : Word)
  | stp (rs rb : Reg) (imm : Word)
  | ldn (rd rb : Reg) (imm : Word)
  | stn (rs rb : Reg) (imm : Word)
  | rdbits (rd rs1 : Reg) (start : BitVec 3) (width : BitVec 4)
  | wrbits (rd rs1 rs2 : Reg) (start : BitVec 3) (width : BitVec 4)
  | rd10 (rd rs1 rs2 : Reg) (off : BitVec 3)
  | wr10 (rd rs1 : Reg) (off : BitVec 3)
  | mrg10 (rd rs1 rs2 : Reg) (off : BitVec 3)
  | bipdec (rd rs1 : Reg)
  | bipenc (rd rs1 : Reg)
  | unpkg (ri bi : Reg)
  | pkg (ri bi : Reg)
  | unpkall (ri bi rn : Reg)
  | pkall (ri bi rn : Reg)
  | validate
  | parse
  | fldrd (rd rb : Reg) (imm : Word)
  | fldwr (rs rb : Reg) (imm : Word)
  | decode
  | encode
  | safeenc
deriving DecidableEq, Repr

end Sys2Proof
end

