-- ==== Sys2Proof/WellFormed.lean ====
section
/-! DEFINITION. The one check on an instruction that its operand types do not make: the destination of
`WR10` (spec/30_encoding.md R85). Every other operand field takes every value of its width. -/

namespace Sys2Proof

/-- `rd` leaves room for `rd+1` and `rd+2`: it is `x0` to `x5` (spec/40_bitfield.md R107). -/
def Reg.roomForThree : Reg → Bool
  | .x6 => false
  | .x7 => false
  | .x0 => true
  | .x1 => true
  | .x2 => true
  | .x3 => true
  | .x4 => true
  | .x5 => true

/-- The instructions that some command word spells (R85: a `WR10` with `rd` 6 or 7 is none). -/
def Instr.wf : Instr → Bool
  | .nop => true
  | .li _ _ => true
  | .csrr _ _ => true
  | .csrw _ _ => true
  | .lde _ _ _ => true
  | .ldw _ _ _ => true
  | .stw _ _ _ => true
  | .ldb _ _ _ => true
  | .stb _ _ _ => true
  | .ldp _ _ _ => true
  | .stp _ _ _ => true
  | .ldn _ _ _ => true
  | .stn _ _ _ => true
  | .rdbits _ _ _ _ => true
  | .wrbits _ _ _ _ _ => true
  | .rd10 _ _ _ _ => true
  | .wr10 rd _ _ => rd.roomForThree
  | .mrg10 _ _ _ _ => true
  | .bipdec _ _ => true
  | .bipenc _ _ => true
  | .unpkg _ _ => true
  | .pkg _ _ => true
  | .unpkall _ _ _ => true
  | .pkall _ _ _ => true
  | .validate => true
  | .parse => true
  | .fldrd _ _ _ => true
  | .fldwr _ _ _ => true
  | .decode => true
  | .encode => true
  | .safeenc => true

end Sys2Proof
end

