-- ==== Sys2Proof/Decode.lean ====
section
/-! DEFINITION. The decoder and the encoder of command words (spec/30_encoding.md R80 to R88). Decoding is
total on all `2^32` words and depends on nothing but the word (R85); a word that spells no command is
rejected with the reason of R85. -/

namespace Sys2Proof

/-- The fields of a command word, the same in every format (R81). -/
structure Fields where
  op : BitVec 6
  ra : BitVec 3
  rb : BitVec 3
  rc : BitVec 3
  z : BitVec 1
  imm : Word
deriving DecidableEq, Repr

/-- The fields of a word: `op` 31:26, `ra` 25:23, `rb` 22:20, `rc` 19:17, `z` 16, `imm16` 15:0 (R81). -/
def Fields.ofWord (c : Command) : Fields where
  op := c.extractLsb' 26 6
  ra := c.extractLsb' 23 3
  rb := c.extractLsb' 20 3
  rc := c.extractLsb' 17 3
  z := c.extractLsb' 16 1
  imm := c.extractLsb' 0 16

/-- The word with the given fields (R81, R88). -/
def Fields.toWord (f : Fields) : Command :=
  f.op ++ f.ra ++ f.rb ++ f.rc ++ f.z ++ f.imm

/-- The number of a general register in a register field (R81). -/
def Reg.number : Reg → BitVec 3
  | .x0 => 0
  | .x1 => 1
  | .x2 => 2
  | .x3 => 3
  | .x4 => 4
  | .x5 => 5
  | .x6 => 6
  | .x7 => 7

/-- The general register a register field names (R81). -/
def Reg.ofNumber (n : BitVec 3) : Reg :=
  match n.toNat with
  | 0 => .x0
  | 1 => .x1
  | 2 => .x2
  | 3 => .x3
  | 4 => .x4
  | 5 => .x5
  | 6 => .x6
  | _ => .x7

/-- The number of a control and status register (spec/10_state.md R30). -/
def Csr.number : Csr → BitVec 4
  | .st => 0
  | .fcause => 1
  | .finfo => 2
  | .fcix => 3
  | .wlen => 4
  | .namelen => 5
  | .psec => 6
  | .err => 7
  | .elenact => 8
  | .ehdrmask => 9
  | .epaycnt => 10
  | .eln => 11
  | .emiss => 12
  | .erngidx => 13
  | .erngval => 14
  | .cix => 15

/-- The control and status register of a number; all sixteen exist (spec/45_move_system.md R231). -/
def Csr.ofNumber (n : BitVec 4) : Csr :=
  match n.toNat with
  | 0 => .st
  | 1 => .fcause
  | 2 => .finfo
  | 3 => .fcix
  | 4 => .wlen
  | 5 => .namelen
  | 6 => .psec
  | 7 => .err
  | 8 => .elenact
  | 9 => .ehdrmask
  | 10 => .epaycnt
  | 11 => .eln
  | 12 => .emiss
  | 13 => .erngidx
  | 14 => .erngval
  | _ => .cix

/-- The formats of R82. -/
inductive Format
  | n | i | cr | cw | ml | ms | b1 | b2 | t2 | t1 | u | g2 | g3
deriving DecidableEq, Repr

/-- The must-be-zero fields of a format are zero (R82). -/
def Format.fits (f : Fields) : Format → Bool
  | .n => f.ra = 0 && f.rb = 0 && f.rc = 0 && f.z = 0 && f.imm = 0
  | .i => f.rb = 0 && f.rc = 0 && f.z = 0
  | .cr => f.rb = 0 && f.rc = 0 && f.z = 0 && f.imm.extractLsb' 4 12 = 0
  | .cw => f.rb = 0 && f.rc = 0 && f.z = 0 && f.imm.extractLsb' 4 12 = 0
  | .ml => f.rc = 0 && f.z = 0
  | .ms => f.rc = 0 && f.z = 0
  | .b1 => f.rc = 0 && f.z = 0 && f.imm.extractLsb' 8 8 = 0 && f.imm.extractLsb' 3 1 = 0
  | .b2 => f.z = 0 && f.imm.extractLsb' 8 8 = 0 && f.imm.extractLsb' 3 1 = 0
  | .t2 => f.z = 0 && f.imm.extractLsb' 3 13 = 0
  | .t1 => f.rc = 0 && f.z = 0 && f.imm.extractLsb' 3 13 = 0
  | .u => f.rc = 0 && f.z = 0 && f.imm = 0
  | .g2 => f.rc = 0 && f.z = 0 && f.imm = 0
  | .g3 => f.z = 0 && f.imm = 0

/-- Why a word spells no command (R85, R86). -/
inductive Reject
  /-- The opcode is none of the 31 of R84. -/
  | unassignedOpcode
  /-- A must-be-zero field of the format is not zero. -/
  | reservedBits
  /-- `WR10` with `ra` 6 or 7. -/
  | wr10Destination
deriving DecidableEq, Repr

/-- The command, if the must-be-zero fields of its format are zero. -/
def inFormat (fmt : Format) (f : Fields) (i : Instr) : Except Reject Instr :=
  if fmt.fits f then .ok i else .error .reservedBits

/-- `WR10` has its three destinations, or the word is none of its (R85). -/
def withRoom (i : Instr) : Except Reject Instr :=
  if i.wf then .ok i else .error .wr10Destination

/-- The decoder on the fields of a word (R83 to R85). -/
def decodeFields (f : Fields) : Except Reject Instr :=
  let a := Reg.ofNumber f.ra
  let b := Reg.ofNumber f.rb
  let c := Reg.ofNumber f.rc
  let csr := Csr.ofNumber (f.imm.extractLsb' 0 4)
  let start := f.imm.extractLsb' 0 3
  let width := f.imm.extractLsb' 4 4
  match f.op.toNat with
  | 0x00 => inFormat .n f .nop
  | 0x01 => inFormat .i f (.li a f.imm)
  | 0x02 => inFormat .cr f (.csrr a csr)
  | 0x03 => inFormat .cw f (.csrw csr a)
  | 0x07 => inFormat .ml f (.lde a b f.imm)
  | 0x08 => inFormat .ml f (.ldw a b f.imm)
  | 0x09 => inFormat .ms f (.stw a b f.imm)
  | 0x0A => inFormat .ml f (.ldb a b f.imm)
  | 0x0B => inFormat .ms f (.stb a b f.imm)
  | 0x0C => inFormat .ml f (.ldp a b f.imm)
  | 0x0D => inFormat .ms f (.stp a b f.imm)
  | 0x0E => inFormat .ml f (.ldn a b f.imm)
  | 0x0F => inFormat .ms f (.stn a b f.imm)
  | 0x10 => inFormat .b1 f (.rdbits a b start width)
  | 0x11 => inFormat .b2 f (.wrbits a b c start width)
  | 0x12 => inFormat .t2 f (.rd10 a b c start)
  | 0x13 => inFormat .t1 f (.wr10 a b start) >>= withRoom
  | 0x14 => inFormat .t2 f (.mrg10 a b c start)
  | 0x15 => inFormat .u f (.bipdec a b)
  | 0x16 => inFormat .u f (.bipenc a b)
  | 0x18 => inFormat .g2 f (.unpkg a b)
  | 0x19 => inFormat .g2 f (.pkg a b)
  | 0x1A => inFormat .g3 f (.unpkall a b c)
  | 0x1B => inFormat .g3 f (.pkall a b c)
  | 0x20 => inFormat .n f .validate
  | 0x21 => inFormat .n f .parse
  | 0x28 => inFormat .ml f (.fldrd a b f.imm)
  | 0x29 => inFormat .ms f (.fldwr a b f.imm)
  | 0x30 => inFormat .n f .decode
  | 0x31 => inFormat .n f .encode
  | 0x32 => inFormat .n f .safeenc
  | _ => .error .unassignedOpcode

/-- The command a word spells, or why it spells none (R85). -/
def decode (c : Command) : Except Reject Instr :=
  decodeFields (Fields.ofWord c)

/-- The command the decoder reads from the bits of `w`, `nbits` of them; a command word is never cut into
bytes (R80), so there is no byte order here (DEDUCED, safe; log 18). -/
def decodeTableWord (nbits w : Nat) : Option Instr :=
  match decode (BitVec.ofNat 32 (w % 2 ^ nbits)) with
  | .ok i => some i
  | .error _ => none

/-- The opcode of a command (R84). -/
def Instr.opcode : Instr → BitVec 6
  | .nop => 0x00
  | .li _ _ => 0x01
  | .csrr _ _ => 0x02
  | .csrw _ _ => 0x03
  | .lde _ _ _ => 0x07
  | .ldw _ _ _ => 0x08
  | .stw _ _ _ => 0x09
  | .ldb _ _ _ => 0x0A
  | .stb _ _ _ => 0x0B
  | .ldp _ _ _ => 0x0C
  | .stp _ _ _ => 0x0D
  | .ldn _ _ _ => 0x0E
  | .stn _ _ _ => 0x0F
  | .rdbits _ _ _ _ => 0x10
  | .wrbits _ _ _ _ _ => 0x11
  | .rd10 _ _ _ _ => 0x12
  | .wr10 _ _ _ => 0x13
  | .mrg10 _ _ _ _ => 0x14
  | .bipdec _ _ => 0x15
  | .bipenc _ _ => 0x16
  | .unpkg _ _ => 0x18
  | .pkg _ _ => 0x19
  | .unpkall _ _ _ => 0x1A
  | .pkall _ _ _ => 0x1B
  | .validate => 0x20
  | .parse => 0x21
  | .fldrd _ _ _ => 0x28
  | .fldwr _ _ _ => 0x29
  | .decode => 0x30
  | .encode => 0x31
  | .safeenc => 0x32

/-- The immediate field of `RDBITS` and `WRBITS`: `width` in bits 7:4, `start` in bits 2:0 (R82, R83). -/
def geometryImm (start : BitVec 3) (width : BitVec 4) : Word :=
  (0 : BitVec 8) ++ width ++ (0 : BitVec 1) ++ start

/-- The immediate field of `RD10`, `WR10` and `MRG10`: `off` in bits 2:0 (R82, R83). -/
def offsetImm (off : BitVec 3) : Word :=
  (0 : BitVec 13) ++ off

/-- The immediate field of `CSRR` and `CSRW`: the register number in bits 3:0 (R82, R83). -/
def csrImm (csr : Csr) : Word :=
  (0 : BitVec 12) ++ csr.number

/-- The fields of the word of a command (R88); the fields its format has no operand in are 0. -/
def Instr.fields (i : Instr) : Fields :=
  match i with
  | .nop => ⟨0x00, 0, 0, 0, 0, 0⟩
  | .li rd imm => ⟨0x01, rd.number, 0, 0, 0, imm⟩
  | .csrr rd csr => ⟨0x02, rd.number, 0, 0, 0, csrImm csr⟩
  | .csrw csr rs => ⟨0x03, rs.number, 0, 0, 0, csrImm csr⟩
  | .lde rd rb imm => ⟨0x07, rd.number, rb.number, 0, 0, imm⟩
  | .ldw rd rb imm => ⟨0x08, rd.number, rb.number, 0, 0, imm⟩
  | .stw rs rb imm => ⟨0x09, rs.number, rb.number, 0, 0, imm⟩
  | .ldb rd rb imm => ⟨0x0A, rd.number, rb.number, 0, 0, imm⟩
  | .stb rs rb imm => ⟨0x0B, rs.number, rb.number, 0, 0, imm⟩
  | .ldp rd rb imm => ⟨0x0C, rd.number, rb.number, 0, 0, imm⟩
  | .stp rs rb imm => ⟨0x0D, rs.number, rb.number, 0, 0, imm⟩
  | .ldn rd rb imm => ⟨0x0E, rd.number, rb.number, 0, 0, imm⟩
  | .stn rs rb imm => ⟨0x0F, rs.number, rb.number, 0, 0, imm⟩
  | .rdbits rd rs1 start width => ⟨0x10, rd.number, rs1.number, 0, 0, geometryImm start width⟩
  | .wrbits rd rs1 rs2 start width => ⟨0x11, rd.number, rs1.number, rs2.number, 0, geometryImm start width⟩
  | .rd10 rd rs1 rs2 off => ⟨0x12, rd.number, rs1.number, rs2.number, 0, offsetImm off⟩
  | .wr10 rd rs1 off => ⟨0x13, rd.number, rs1.number, 0, 0, offsetImm off⟩
  | .mrg10 rd rs1 rs2 off => ⟨0x14, rd.number, rs1.number, rs2.number, 0, offsetImm off⟩
  | .bipdec rd rs1 => ⟨0x15, rd.number, rs1.number, 0, 0, 0⟩
  | .bipenc rd rs1 => ⟨0x16, rd.number, rs1.number, 0, 0, 0⟩
  | .unpkg ri bi => ⟨0x18, ri.number, bi.number, 0, 0, 0⟩
  | .pkg ri bi => ⟨0x19, ri.number, bi.number, 0, 0, 0⟩
  | .unpkall ri bi rn => ⟨0x1A, ri.number, bi.number, rn.number, 0, 0⟩
  | .pkall ri bi rn => ⟨0x1B, ri.number, bi.number, rn.number, 0, 0⟩
  | .validate => ⟨0x20, 0, 0, 0, 0, 0⟩
  | .parse => ⟨0x21, 0, 0, 0, 0, 0⟩
  | .fldrd rd rb imm => ⟨0x28, rd.number, rb.number, 0, 0, imm⟩
  | .fldwr rs rb imm => ⟨0x29, rs.number, rb.number, 0, 0, imm⟩
  | .decode => ⟨0x30, 0, 0, 0, 0, 0⟩
  | .encode => ⟨0x31, 0, 0, 0, 0, 0⟩
  | .safeenc => ⟨0x32, 0, 0, 0, 0, 0⟩

/-- The word that spells a command (R88). -/
def encode (i : Instr) : Command := i.fields.toWord

end Sys2Proof
end

