-- ==== Sys2Proof/Config.lean ====
section
/-! DEFINITION. The parameters of an instance (spec/00_scope.md R6): what an implementation fixes when it is
made and no command or reset ever changes (spec/10_state.md R29). Their default values stand in
Machine/Defaults.lean. Then the free values of a reset. -/

namespace Sys2Proof

/-- `CARRIER_ORDER` (spec/41_sevenbit.md R121). -/
inductive CarrierOrder
  | asc | desc
deriving DecidableEq, Repr

/-- The four storage forms of a layout entry (spec/43_layout.md R161). -/
inductive FieldKind
  /-- A plain-byte field. -/
  | byte
  /-- A sub-byte field. -/
  | bits
  /-- A 10-bit split field. -/
  | s10
  /-- A packed boolean array. -/
  | barr
deriving DecidableEq, Repr

/-- A layout entry (spec/43_layout.md R160). A leaf of the expanded layout (R165) has the same form with
`n1 = n2 = 1`. The type holds more than the ranges R160 gives the members: `wfLayout` is R170 alone, and what a member
outside its range of R160 does is DESIGN CHOICE, safe (log 19). -/
structure Entry where
  name : String
  sect : Nat
  kind : FieldKind
  off : Nat
  start : Nat := 0
  width : Nat
  loff : Nat := 0
  bip : Bool := false
  dommax : Nat
  n1 : Nat := 1
  s1 : Nat := 0
  n2 : Nat := 1
  s2 : Nat := 0
deriving DecidableEq, Repr

/-- The parameters of one instance (spec/00_scope.md R6). `NLEAF` is derived from `layout`. -/
structure Config where
  /-- `CARRIER_ORDER`. -/
  carrierOrder : CarrierOrder
  /-- `MARKER`, four bytes. -/
  marker : Vector Byte 4
  /-- `LAYOUT`. -/
  layout : List Entry
  /-- `PAYCAP`. -/
  paycap : Nat
  /-- `WCAP`. -/
  wcap : Nat
  /-- `REQSEC`. -/
  reqsec : BitVec 10
deriving DecidableEq, Repr

/-! ### Contents a reset leaves open

Free values (log 5): after `hostReset` the registers `x1` to `x7` and the spaces `W`, `B`, `P`, `NAME` are unspecified
(spec/10_state.md R50, spec/93_implementation_defined.md U1). `n` counts the resets before this one, so that no two need
agree. Nothing can be proved of these values. -/

/-- The general register `r` after reset `n`. -/
opaque Config.resetX (n r : Nat) : Word

/-- `W[a]` after reset `n`. -/
opaque Config.resetW (n a : Nat) : Byte

/-- `B[a]` after reset `n`. -/
opaque Config.resetB (n a : Nat) : Byte

/-- `P[k]` after reset `n`. -/
opaque Config.resetP (n k : Nat) : Word

/-- `NAME[a]` after reset `n`. -/
opaque Config.resetName (n a : Nat) : Byte

end Sys2Proof
end

