-- ==== Sys2Proof/Machine/Defaults.lean ====
section
/-! DEFINITION. The sizes the spec fixes (spec/00_scope.md R5) and the default value of every parameter
(spec/00_scope.md R6, spec/43_layout.md R180). The defaults of `MARKER`, `CARRIER_ORDER` and the cells of the
layout marked G are the spec's from general knowledge (spec/93_implementation_defined.md G1 to G3): UNVERIFIED,
unsafe (log 11). -/

namespace Sys2Proof.Machine

/-- Bytes in a well-formed wire message, `MSGLEN` (R5). -/
def msgLen : Nat := 520

/-- Header bytes, `HDRLEN` (R5). -/
def hdrLen : Nat := 7

/-- Payload bytes, `PAYLEN` (R5). -/
def payLen : Nat := 512

/-- Wire index of the footer byte, `FTRPOS` (R5). -/
def ftrPos : Nat := 519

/-- Bytes in the decoded body, `BODYLEN` (R5). -/
def bodyLen : Nat := 448

/-- Bytes in the name registers (spec/10_state.md R26). -/
def nameCap : Nat := 16

/-- Body offset of the patch name region, `NAME_OFF` (R5). -/
def nameOff : Nat := 4

/-- Length of the patch name region, `NAME_LEN` (R5). -/
def nameLen : Nat := 12

/-- The seven header bytes in wire order, `HDR` (R5, spec/42_frame.md R140). -/
def hdr : List Byte := [0xF0, 0x42, 0x30, 0x00, 0x01, 0x44, 0x40]

/-- The footer byte, `FTR` (R5, spec/42_frame.md R140). -/
def ftr : Byte := 0xF7

/-- The bipolar offset, `BIAS` (R5, spec/40_bitfield.md R109). -/
def bias : Int := 512

/-- Every section present: the bits of `PSEC` that exist (spec/10_state.md R27, R37). -/
def allSections : Word := 0x03FF

/-- The default layout's drive, oscillators and filter (R180, leaves 0 on); the members are those of R160 in order:
`name`, `sect`, `kind`, `off`, `start`, `width`, `loff`, `bip`, `dommax`, `n1`, `s1`, `n2`, `s2`. -/
def programEntries : List Entry := [
  ⟨"drive", 1, .s10, 29, 6, 10, 35, false, 1023, 1, 0, 1, 0⟩,
  ⟨"vco1.wave", 2, .bits, 30, 6, 2, 0, false, 2, 1, 0, 1, 0⟩,
  ⟨"vco1.shape", 2, .s10, 17, 2, 10, 30, false, 1023, 1, 0, 1, 0⟩,
  ⟨"vco1.level", 2, .s10, 20, 0, 10, 33, false, 1023, 1, 0, 1, 0⟩,
  ⟨"vco1.pitch", 2, .s10, 16, 0, 10, 30, false, 1023, 1, 0, 1, 0⟩,
  ⟨"vco1.octave", 2, .bits, 30, 4, 2, 0, false, 3, 1, 0, 1, 0⟩,
  ⟨"vco2.wave", 2, .bits, 31, 6, 2, 0, false, 2, 1, 0, 1, 0⟩,
  ⟨"vco2.shape", 2, .s10, 19, 2, 10, 31, false, 1023, 1, 0, 1, 0⟩,
  ⟨"vco2.level", 2, .s10, 21, 2, 10, 33, false, 1023, 1, 0, 1, 0⟩,
  ⟨"vco2.pitch", 2, .s10, 18, 0, 10, 31, false, 1023, 1, 0, 1, 0⟩,
  ⟨"vco2.octave", 2, .bits, 31, 4, 2, 0, false, 3, 1, 0, 1, 0⟩,
  ⟨"vco2.sync", 2, .bits, 32, 0, 2, 0, false, 3, 1, 0, 1, 0⟩,
  ⟨"filter.cutoff", 3, .s10, 22, 4, 10, 33, false, 1023, 1, 0, 1, 0⟩,
  ⟨"filter.resonance", 3, .s10, 23, 6, 10, 33, false, 1023, 1, 0, 1, 0⟩]

/-- The default layout's envelope and LFO (R180, leaves 14 on); the members are those of R160 in order:
`name`, `sect`, `kind`, `off`, `start`, `width`, `loff`, `bip`, `dommax`, `n1`, `s1`, `n2`, `s2`. -/
def modulationEntries : List Entry := [
  ⟨"env.type", 4, .bits, 34, 0, 2, 0, false, 3, 1, 0, 1, 0⟩,
  ⟨"env.attack", 4, .s10, 24, 2, 10, 34, false, 1023, 1, 0, 1, 0⟩,
  ⟨"env.decay", 4, .s10, 25, 4, 10, 34, false, 1023, 1, 0, 1, 0⟩,
  ⟨"env.intensity", 4, .s10, 26, 0, 10, 35, true, 1023, 1, 0, 1, 0⟩,
  ⟨"env.target", 4, .bits, 34, 6, 2, 0, false, 3, 1, 0, 1, 0⟩,
  ⟨"lfo.wave", 5, .bits, 36, 0, 2, 0, false, 2, 1, 0, 1, 0⟩,
  ⟨"lfo.mode", 5, .bits, 36, 2, 2, 0, false, 3, 1, 0, 1, 0⟩,
  ⟨"lfo.rate", 5, .s10, 27, 2, 10, 35, false, 1023, 1, 0, 1, 0⟩,
  ⟨"lfo.intensity", 5, .s10, 28, 4, 10, 35, true, 1023, 1, 0, 1, 0⟩,
  ⟨"lfo.target", 5, .bits, 36, 4, 2, 0, false, 3, 1, 0, 1, 0⟩]

/-- The default layout's miscellaneous settings and sequencer settings (R180, leaves 24 on); the members are those of R160 in order:
`name`, `sect`, `kind`, `off`, `start`, `width`, `loff`, `bip`, `dommax`, `n1`, `s1`, `n2`, `s2`. -/
def settingEntries : List Entry := [
  ⟨"misc.portamentoTime", 9, .byte, 41, 0, 8, 0, false, 255, 1, 0, 1, 0⟩,
  ⟨"misc.sliderAssign", 9, .byte, 42, 0, 8, 0, false, 255, 1, 0, 1, 0⟩,
  ⟨"misc.portamentoMode", 9, .bits, 44, 0, 1, 0, false, 1, 1, 0, 1, 0⟩,
  ⟨"misc.bpmSync", 9, .bits, 44, 3, 1, 0, false, 1, 1, 0, 1, 0⟩,
  ⟨"misc.cutoffVelocity", 9, .bits, 44, 4, 2, 0, false, 3, 1, 0, 1, 0⟩,
  ⟨"misc.cutoffKeyTrack", 9, .bits, 44, 6, 2, 0, false, 3, 1, 0, 1, 0⟩,
  ⟨"seq.stepLength", 6, .byte, 54, 0, 8, 0, false, 255, 1, 0, 1, 0⟩,
  ⟨"seq.stepResolution", 6, .byte, 55, 0, 8, 0, false, 255, 1, 0, 1, 0⟩,
  ⟨"seq.swing", 6, .byte, 56, 0, 8, 0, false, 255, 1, 0, 1, 0⟩,
  ⟨"seq.stepActive", 6, .barr, 64, 0, 16, 0, false, 65535, 1, 0, 1, 0⟩,
  ⟨"seq.motionActive", 6, .barr, 66, 0, 16, 0, false, 65535, 1, 0, 1, 0⟩]

/-- The default layout's motion slots (R180, leaves 35 on); the members are those of R160 in order:
`name`, `sect`, `kind`, `off`, `start`, `width`, `loff`, `bip`, `dommax`, `n1`, `s1`, `n2`, `s2`. -/
def motionEntries : List Entry := [
  ⟨"motion.on", 7, .bits, 72, 0, 1, 0, false, 1, 4, 2, 1, 0⟩,
  ⟨"motion.smooth", 7, .bits, 72, 1, 1, 0, false, 1, 4, 2, 1, 0⟩,
  ⟨"motion.paramId", 7, .byte, 73, 0, 8, 0, false, 255, 4, 2, 1, 0⟩,
  ⟨"motion.stepEnable", 7, .barr, 80, 0, 16, 0, false, 65535, 4, 2, 1, 0⟩]

/-- The default layout's step-event records (R180, leaves 51 on); the members are those of R160 in order:
`name`, `sect`, `kind`, `off`, `start`, `width`, `loff`, `bip`, `dommax`, `n1`, `s1`, `n2`, `s2`. -/
def stepEntries : List Entry := [
  ⟨"step.note", 8, .byte, 96, 0, 8, 0, false, 255, 16, 22, 1, 0⟩,
  ⟨"step.velocity", 8, .byte, 98, 0, 8, 0, false, 255, 16, 22, 1, 0⟩,
  ⟨"step.gateTime", 8, .bits, 100, 0, 7, 0, false, 127, 16, 22, 1, 0⟩,
  ⟨"step.trigger", 8, .bits, 100, 7, 1, 0, false, 1, 16, 22, 1, 0⟩,
  ⟨"step.motionData", 8, .byte, 102, 0, 8, 0, false, 255, 16, 22, 16, 1⟩]

/-- The default `LAYOUT`, 44 entries, 371 leaves (R180). -/
def defaultLayout : List Entry :=
  programEntries ++ modulationEntries ++ settingEntries ++ motionEntries ++ stepEntries

/-- The parameters at their default values (spec/00_scope.md R6). -/
def defaultConfig : Config where
  carrierOrder := .asc
  marker := #v[0x50, 0x52, 0x4F, 0x47]
  layout := defaultLayout
  paycap := 8
  wcap := 1024
  reqsec := 0x3FF

end Sys2Proof.Machine
end

