-- ==== Sys2Proof/Machine/State.lean ====
section
/-! DEFINITION. The state of RPK78 as plain data (spec/10_state.md), the reasons a step can stop, and the state
after reset (spec/10_state.md R50, spec/70_reset_and_hazards.md R270). -/

namespace Sys2Proof.Machine

/-- The contents of an index space with elements of `w` bits: the elements that differ from what an unlisted
index reads as, by strictly rising index (the canonical form is `Sparse.wf` of Machine/Ops.lean). DESIGN CHOICE,
safe (log 17). -/
abbrev Sparse (w : Nat) := List (Nat × BitVec w)

/-- A byte space: a list of `Host.Cell`. -/
abbrev Memory := Sparse 8

/-- The general registers that hold something; `x[0]` is hard-wired (spec/10_state.md R20). -/
structure Regs where
  x1 : Word
  x2 : Word
  x3 : Word
  x4 : Word
  x5 : Word
  x6 : Word
  x7 : Word
deriving DecidableEq, Repr

/-- The six address spaces (spec/20_memory.md R60). -/
inductive Space
  | w | b | p | n | e | csr
deriving DecidableEq, Repr

/-- The host's transactions (spec/60_exceptions.md R258). -/
inductive HostTxn
  /-- `hostRead(S, a)`. -/
  | read (sp : Space) (a : Nat)
  /-- `hostWrite(S, a, v)`. -/
  | write (sp : Space) (a : Nat) (v : Word)
  /-- `hostCommand(c)`. -/
  | command (c : Command)
  /-- `hostReset`. -/
  | reset
deriving DecidableEq, Repr

/-- Stops of the machine with a fault: none. What the spec calls a fault is an architected state change
(spec/60_exceptions.md R241) after which the block refuses commands until reset (R244), so it is a next state
(`State.takeFault` of Machine/Ops.lean); no step of this model ends here (log 9). Safe: nothing is hidden. -/
inductive Fault
deriving DecidableEq, Repr

/-- Stops of the machine with a refusal. -/
inductive Refusal
  /-- Raised by no instruction that has its meaning; `exec` answers it for an instruction that has none yet.
  Safe: nothing can be proved of such an instruction's effect. -/
  | notModelled (mnemonic : String)
  /-- Raised by `step` for a host action outside the table of spec/60_exceptions.md R258 (an index outside the
  space, an illegal value, a write to `E` or to a read-only register, a write under a fault): the interface does
  not offer it (spec/93_implementation_defined.md U14, log 8). Safe: the model gives it no transition. -/
  | notATransaction
deriving DecidableEq, Repr

/-- The state (spec/10_state.md). The control registers stand in the order of their numbers (R30). -/
structure State where
  /-- The parameters of the instance (spec/00_scope.md R6); no step writes them (R29, log 1). -/
  cfg : Config
  /-- The general registers (R20). -/
  x : Regs
  /-- The wire buffer `W` (R22). -/
  w : Memory
  /-- The body buffer `B` (R24). -/
  b : Memory
  /-- The parameter file `P` (R25). -/
  p : Sparse 16
  /-- The name bytes `NAME` (R26). -/
  name : Memory
  /-- The payload error list `E` (R28). -/
  e : Sparse 16
  /-- `ST`: bit 0 `VALID`, bit 1 `FAULT` (R31). -/
  st : Word
  /-- `FCAUSE` (R32). -/
  fcause : Word
  /-- `FINFO` (R33). -/
  finfo : Word
  /-- `FCIX` (R34). -/
  fcix : Word
  /-- `WLEN` (R23, R35). -/
  wlen : Word
  /-- `NAMELEN` (R26, R36). -/
  namelen : Word
  /-- `PSEC` (R27, R37). -/
  psec : Word
  /-- `ERR` (R38). -/
  err : Word
  /-- `ELENACT` (R39). -/
  elenact : Word
  /-- `EHDRMASK` (R40). -/
  ehdrmask : Word
  /-- `EPAYCNT` (R41). -/
  epaycnt : Word
  /-- `ELN` (R42). -/
  eln : Word
  /-- `EMISS` (R43). -/
  emiss : Word
  /-- `ERNGIDX` (R44). -/
  erngidx : Word
  /-- `ERNGVAL` (R45). -/
  erngval : Word
  /-- `CIX` (R46). -/
  cix : Word
  /-- The transactions the host will yet perform, the next one first: an input, the model's own field
  (spec/60_exceptions.md R258, R259; log 6). -/
  host : List HostTxn
  /-- How many times the host has reset the block: the model's own field, which gives each reset free values of its
  own (log 5). -/
  resets : Nat
deriving DecidableEq, Repr

/-- The state right after reset of an instance with parameters `c`, no host transaction pending (R50, R270). The
registers R50 leaves unspecified (`x1` to `x7`, `W`, `B`, `P`, `NAME`) are 0 here: DESIGN CHOICE, unsafe
(logs 2, 3, 4). -/
def State.resetWith (c : Config) : State where
  cfg := c
  x := ⟨0, 0, 0, 0, 0, 0, 0⟩
  w := []
  b := []
  p := []
  name := []
  e := []
  st := 0
  fcause := 0
  finfo := 0
  fcix := 0
  wlen := 0
  namelen := 0
  psec := 0
  err := 0
  elenact := 0
  ehdrmask := 0
  epaycnt := 0
  eln := 0
  emiss := 0
  erngidx := 0
  erngval := 0
  cix := 0
  host := []
  resets := 0

/-- The machine right after reset, the parameters at the spec's default values. -/
def State.reset : State := State.resetWith defaultConfig

end Sys2Proof.Machine
end

