-- ==== Sys2Proof/Machine/Ops.lean ====
section
/-! DEFINITION. The named operations over the index spaces and the registers (spec/10_state.md, spec/20_memory.md),
raising a fault (spec/60_exceptions.md R241 to R254; the way out, `hostReset`, stands in Machine/HostPort.lean), and
the frame every command runs in. -/

namespace Sys2Proof.Machine

/-! ### Index spaces -/

/-- What an index reads as that nothing is listed for. For `E` it is the reset value of R50; for `W`, `B`, `P` and
`NAME`, whose contents after reset R50 leaves unspecified, DESIGN CHOICE, unsafe (logs 3, 4). -/
def unlisted (w : Nat) : BitVec w := 0

/-- The element at an index (spec/20_memory.md R60, R62). -/
def Sparse.read {w : Nat} (m : Sparse w) (a : Nat) : BitVec w :=
  match m with
  | [] => unlisted w
  | (b, v) :: rest => if b = a then v else Sparse.read rest a

/-- The listed elements of consecutive indices from `a` on that hold `vs`. -/
def Sparse.cells {w : Nat} (a : Nat) (vs : List (BitVec w)) : Sparse w :=
  match vs with
  | [] => []
  | v :: rest => if v = unlisted w then Sparse.cells (a + 1) rest else (a, v) :: Sparse.cells (a + 1) rest

/-- The elements at indices `a` on replaced by `vs`, every other element as it was (R9, R62). -/
def Sparse.writeRange {w : Nat} (m : Sparse w) (a : Nat) (vs : List (BitVec w)) : Sparse w :=
  m.filter (fun c => c.1 < a) ++ (Sparse.cells a vs ++ m.filter (fun c => a + vs.length ≤ c.1))

/-- The element at index `a` replaced by `v` (`MemWrite` of R9). -/
def Sparse.write {w : Nat} (m : Sparse w) (a : Nat) (v : BitVec w) : Sparse w :=
  m.writeRange a [v]

/-- The elements at the `n` indices from `a` on, in order. -/
def Sparse.readRange {w : Nat} (m : Sparse w) (a n : Nat) : List (BitVec w) :=
  (List.range n).map fun i => m.read (a + i)

/-- The space whose elements from index 0 on are `vs` and whose other elements are unlisted. -/
def Sparse.ofList {w : Nat} (vs : List (BitVec w)) : Sparse w :=
  Sparse.writeRange [] 0 vs

/-- The canonical form: indices strictly rising from `a` on, no element listed that equals the unlisted one. -/
def Sparse.wfFrom {w : Nat} (a : Nat) (m : Sparse w) : Bool :=
  match m with
  | [] => true
  | (b, v) :: rest => decide (a ≤ b) && decide (v ≠ unlisted w) && Sparse.wfFrom (b + 1) rest

/-- The canonical form of an index space: equal contents are equal data. -/
def Sparse.wf {w : Nat} (m : Sparse w) : Bool := Sparse.wfFrom 0 m

/-- The canonical form of a byte space. -/
def Memory.wf (m : Memory) : Bool := Sparse.wf m

/-- Nothing is listed at or beyond index `n`: the space has the indices `0..n-1` (R60). -/
def Sparse.below {w : Nat} (m : Sparse w) (n : Nat) : Bool := m.all fun c => c.1 < n

/-! ### General registers (spec/10_state.md R20) -/

/-- `x[i]`; `x[0]` reads 0. -/
def Regs.read (x : Regs) : Reg → Word
  | .x0 => 0
  | .x1 => x.x1
  | .x2 => x.x2
  | .x3 => x.x3
  | .x4 => x.x4
  | .x5 => x.x5
  | .x6 => x.x6
  | .x7 => x.x7

/-- `x[i] <- v`; a write to `x[0]` is discarded. -/
def Regs.write (x : Regs) (r : Reg) (v : Word) : Regs :=
  match r with
  | .x0 => x
  | .x1 => { x with x1 := v }
  | .x2 => { x with x2 := v }
  | .x3 => { x with x3 := v }
  | .x4 => { x with x4 := v }
  | .x5 => { x with x5 := v }
  | .x6 => { x with x6 := v }
  | .x7 => { x with x7 := v }

/-! ### Named updates of the state -/

/-- The value of a general register. -/
def State.readX (s : State) (r : Reg) : Word := s.x.read r

/-- Write a general register (R20). -/
def State.setX (s : State) (r : Reg) (v : Word) : State := { s with x := s.x.write r v }

/-- Replace the wire buffer. -/
def State.setW (s : State) (m : Memory) : State := { s with w := m }

/-- Replace the body buffer. -/
def State.setB (s : State) (m : Memory) : State := { s with b := m }

/-- Replace the parameter file. -/
def State.setP (s : State) (m : Sparse 16) : State := { s with p := m }

/-- Replace the name bytes. -/
def State.setName (s : State) (m : Memory) : State := { s with name := m }

/-- Write `WLEN`. -/
def State.setWlen (s : State) (v : Word) : State := { s with wlen := v }

/-- Write `NAMELEN`. -/
def State.setNamelen (s : State) (v : Word) : State := { s with namelen := v }

/-- Write `PSEC`. -/
def State.setPsec (s : State) (v : Word) : State := { s with psec := v }

/-- One command has completed: `CIX` counts it, modulo 65536 (R46). -/
def State.advance (s : State) : State := { s with cix := s.cix + 1 }

/-- Replace the list of host transactions to come. -/
def State.setHost (s : State) (h : List HostTxn) : State := { s with host := h }

/-! ### Control registers (spec/10_state.md R30) -/

/-- `CSR[csr]` (spec/45_move_system.md R231). -/
def State.readCsr (s : State) : Csr → Word
  | .st => s.st
  | .fcause => s.fcause
  | .finfo => s.finfo
  | .fcix => s.fcix
  | .wlen => s.wlen
  | .namelen => s.namelen
  | .psec => s.psec
  | .err => s.err
  | .elenact => s.elenact
  | .ehdrmask => s.ehdrmask
  | .epaycnt => s.epaycnt
  | .eln => s.eln
  | .emiss => s.emiss
  | .erngidx => s.erngidx
  | .erngval => s.erngval
  | .cix => s.cix

/-- The largest legal value of a control register that `CSRW` and the host may write, or none for a read-only one
(spec/45_move_system.md R232, spec/60_exceptions.md R258). -/
def csrLimit (c : Config) : Csr → Option Nat
  | .st => none
  | .fcause => none
  | .finfo => none
  | .fcix => none
  | .wlen => some c.wcap
  | .namelen => some nameCap
  | .psec => some allSections.toNat
  | .err => none
  | .elenact => none
  | .ehdrmask => none
  | .epaycnt => none
  | .eln => none
  | .emiss => none
  | .erngidx => none
  | .erngval => none
  | .cix => none

/-- The plain replacement of a writable control register (R232); the read-only ones are not written. -/
def State.writeCsr (s : State) (csr : Csr) (v : Word) : State :=
  match csr with
  | .wlen => s.setWlen v
  | .namelen => s.setNamelen v
  | .psec => s.setPsec v
  | .st => s
  | .fcause => s
  | .finfo => s
  | .fcix => s
  | .err => s
  | .elenact => s
  | .ehdrmask => s
  | .epaycnt => s
  | .eln => s
  | .emiss => s
  | .erngidx => s
  | .erngval => s
  | .cix => s

/-- `ST.VALID` (spec/10_state.md R31). -/
def State.valid (s : State) : Bool := s.st.getLsbD 0

/-- `ST.FAULT` (R31). -/
def State.faulted (s : State) : Bool := s.st.getLsbD 1

/-! ### Faults (spec/60_exceptions.md R241 to R243) -/

/-- The sub-codes of a `RangeError` (R243). -/
inductive RangeKind
  /-- Invalid `start` or `width`. -/
  | geometry
  /-- A low-bit offset not in {0, 2, 4, 6}. -/
  | offset
  /-- A register used as a byte holds more than 255. -/
  | operand
  /-- A value does not fit its field, or a `CSRW` value is out of range. -/
  | value
  /-- Leaf `k` is out of its declared range. -/
  | field (k : Nat)
deriving DecidableEq, Repr

/-- A raised fault with the argument its information word is made of (R242, R243). -/
inductive Raised
  /-- `RangeError`. -/
  | range (kind : RangeKind)
  /-- `LengthError(n)`. -/
  | length (n : Nat)
  /-- `EncodeValidationError(missing)`. -/
  | encodeValidation (missing : Word)
  /-- `AddressError(a)`. -/
  | address (a : Nat)
  /-- `IllegalCommand(c[31:16])`. -/
  | illegal (upper : Word)
deriving DecidableEq, Repr

/-- The code of the cause (R242). -/
def Raised.code : Raised → Word
  | .range _ => 1
  | .length _ => 2
  | .encodeValidation _ => 3
  | .address _ => 4
  | .illegal _ => 5

/-- The information word of a `RangeError` (R243). -/
def RangeKind.info : RangeKind → Nat
  | .geometry => 0x1000
  | .offset => 0x2000
  | .operand => 0x3000
  | .value => 0x4000
  | .field k => 0x5000 ||| k

/-- The information word, `info mod 65536` (R241, R243). -/
def Raised.info : Raised → Word
  | .range k => BitVec.ofNat 16 k.info
  | .length n => BitVec.ofNat 16 n
  | .encodeValidation m => m
  | .address a => BitVec.ofNat 16 a
  | .illegal h => h

/-- `raise F(info)`: exactly the four writes of R241. -/
def State.takeFault (s : State) (r : Raised) : State :=
  { s with st := s.st ||| 2, fcause := r.code, finfo := r.info, fcix := s.cix }

/-- The upper half of an illegal word, `c[31:16]` (R243). -/
def upperHalf (c : Command) : Word := c.extractLsb' 16 16

/-! ### The frame of a command -/

/-- `require c else raise r`, then `k` (spec/00_scope.md R9). -/
def require {α : Type} (c : Prop) [Decidable c] (r : Raised) (k : Except Raised α) : Except Raised α :=
  if c then k else .error r

/-- A command taken in state `s` whose rule gives `body`, the state it writes or the fault it raises. Under `ST.FAULT`
it is refused and changes nothing (spec/60_exceptions.md R244); a command that completes advances `CIX`
(spec/10_state.md R46); one that raises leaves the four writes of R241 and nothing it would have written. -/
def State.command (s : State) (body : Except Raised State) : Host.Outcome State Fault Refusal :=
  if s.faulted then .next s
  else
    match body with
    | .ok t => .next t.advance
    | .error r => .next (s.takeFault r)

/-- An illegal command word (spec/30_encoding.md R85). -/
def execIllegal (c : Command) (s : State) : Host.Outcome State Fault Refusal :=
  s.command (.error (.illegal (upperHalf c)))

end Sys2Proof.Machine
end

