-- ==== Sys2Proof/Machine/Codec.lean ====
section
/-! DEFINITION. The pure functions of the BitField Codec and the SevenBit Codec (spec/00_scope.md R10;
spec/40_bitfield.md R100 to R109; spec/41_sevenbit.md R120 to R125). A function here computes the value; the
`require` lines of its rule are predicates here, checked by the command that calls it. -/

namespace Sys2Proof.Machine

/-! ### Bit fields

The round-trip laws of R112 hold of these functions: `readBits_writeBits`, `getLsbD_writeBits` and `read10_write10` in
Laws/Codec.lean, and the statement `BitFieldLaws`. -/

/-- The pairs `start`, `width` that `readBits` and `writeBits` accept (R100, R101). -/
abbrev validGeometry (start width : Nat) : Prop :=
  1 ≤ width ∧ width ≤ 8 ∧ start + width ≤ 8

/-- The low-bit offsets that `read10` and `write10` accept (R104, R105). -/
abbrev validOffset (off : Nat) : Prop :=
  off = 0 ∨ off = 2 ∨ off = 4 ∨ off = 6

/-- `2^width - 1` as a byte (R100). -/
def widthMask (width : Nat) : Byte := BitVec.ofNat 8 (2 ^ width - 1)

/-- `readBits(byte, start, width)` (R100). -/
def readBits (byte : Byte) (start width : Nat) : Byte :=
  (byte >>> start) &&& widthMask width

/-- `writeBits(byte, value, start, width)` for a value that fits (R101). -/
def writeBits (byte value : Byte) (start width : Nat) : Byte :=
  (byte &&& ~~~(widthMask width <<< start)) ||| (value <<< start)

/-- `read10(highByte, lowByte, lowBitOffset)` (R104). -/
def read10 (high low : Byte) (off : Nat) : Word :=
  (high.setWidth 16 <<< 2) ||| ((low >>> off) &&& 3).setWidth 16

/-- `highByte` of `write10(value, off)` (R105). -/
def highByte (value : Word) : Byte := (value >>> 2).setWidth 8

/-- `lowBitsAtOffset` of `write10(value, off)` (R105). -/
def lowBitsAtOffset (value : Word) (off : Nat) : Byte := (value.setWidth 8 &&& 3) <<< off

/-- `clearMask` of `write10(value, off)`: ones on the six bits to keep (R105). -/
def clearMask (off : Nat) : Byte := ~~~((3 : Byte) <<< off)

/-- The merge of the two low bits into a shared byte (R105, R108). -/
def mergeLow (shared : Byte) (value : Word) (off : Nat) : Byte :=
  (shared &&& clearMask off) ||| lowBitsAtOffset value off

/-! ### Bipolar coding -/

/-- `signed16(v)` (spec/00_scope.md R8). -/
def signed16 (v : Word) : Int := v.toInt

/-- `tc16(s)` (spec/00_scope.md R8). -/
def tc16 (s : Int) : Word := BitVec.ofInt 16 s

/-- `bipDecode(raw)` (R109). -/
def bipDecode (raw : Word) : Int := (raw.toNat : Int) - bias

/-- `bipEncode(logical)` as the raw value (R109). -/
def bipEncode (logical : Int) : Word := BitVec.ofInt 16 (logical + bias)

/-- The logical values `bipEncode` accepts (R109). -/
abbrev validLogical (logical : Int) : Prop := -512 ≤ logical ∧ logical ≤ 511

/-! ### The seven-bit groups -/

/-- `cb(i)`: the carrier bit of decoded byte `i` (R121). -/
def carrierBit (o : CarrierOrder) (i : Nat) : Nat :=
  match o with
  | .asc => i
  | .desc => 6 - i

/-- `unpackGroup(g)`: 7 bytes from 8 (R122). -/
def unpackGroup (o : CarrierOrder) (g : List Byte) : List Byte :=
  (List.range 7).map fun i =>
    (((g.getD 0 0 >>> carrierBit o i) &&& 1) <<< 7) ||| (g.getD (1 + i) 0 &&& 0x7F)

/-- The carrier byte of `packGroup(d)`: bit `cb(i)` is bit 7 of `d[i]` (R123). -/
def carrierByte (o : CarrierOrder) (d : List Byte) : Byte :=
  (List.range 7).foldl (fun g i => g ||| (((d.getD i 0 >>> 7) &&& 1) <<< carrierBit o i)) 0

/-- `packGroup(d)`: 8 bytes from 7 (R123). -/
def packGroup (o : CarrierOrder) (d : List Byte) : List Byte :=
  carrierByte o d :: (List.range 7).map fun i => d.getD i 0 &&& 0x7F

/-- The first `k` groups of a wire sequence, unpacked in order (R125, R126). -/
def unpackGroups (o : CarrierOrder) (k : Nat) (w : List Byte) : List Byte :=
  match k with
  | 0 => []
  | k + 1 => unpackGroup o (w.take 8) ++ unpackGroups o k (w.drop 8)

/-- The first `k` groups of a body sequence, packed in order (R125, R126). -/
def packGroups (o : CarrierOrder) (k : Nat) (b : List Byte) : List Byte :=
  match k with
  | 0 => []
  | k + 1 => packGroup o (b.take 7) ++ packGroups o k (b.drop 7)

/-- `unpackAll(w)` for a length that is a multiple of 8; the refusal of other lengths stands in `UNPKALL`, the only
command that can meet one (R125, R127, R147; DEDUCED, safe; log 15). -/
def unpackAll (o : CarrierOrder) (w : List Byte) : List Byte := unpackGroups o (w.length / 8) w

/-- `packAll(b)` for a length that is a multiple of 7; the refusal of other lengths stands in `PKALL` (R125, R128). -/
def packAll (o : CarrierOrder) (b : List Byte) : List Byte := packGroups o (b.length / 7) b

end Sys2Proof.Machine
end

