-- ==== Sys2Proof/Machine/Layout.lean ====
section
/-! DEFINITION. The Parameter Layout Map: expansion, the reading and writing of one field, and the admitted layouts
(spec/43_layout.md R160 to R177). For a layout that is not admitted the functions are total and raise nothing:
DESIGN CHOICE, unsafe for such a layout alone (log 12). -/

namespace Sys2Proof.Machine

/-- The leaf of `(e, i, j)` (R165). -/
def leafOf (e : Entry) (i j : Nat) : Entry :=
  { e with
    off := e.off + i * e.s1 + j * e.s2
    loff := if e.kind = .s10 then e.loff + i * e.s1 + j * e.s2 else e.loff
    n1 := 1
    n2 := 1 }

/-- The leaves of one entry: outer index, then inner index (R165). -/
def leavesOf (e : Entry) : List Entry :=
  (List.range e.n1).flatMap fun i => (List.range e.n2).map fun j => leafOf e i j

/-- `expand(LAYOUT)` (R165). -/
def expand (l : List Entry) : List Entry := l.flatMap leavesOf

end Sys2Proof.Machine

namespace Sys2Proof

/-- The leaves of the instance's layout; leaf `k` binds `P[k]` (spec/43_layout.md R165). -/
def Config.leaves (c : Config) : List Entry := Machine.expand c.layout

/-- `NLEAF` (spec/00_scope.md R6). -/
def Config.nleaf (c : Config) : Nat := c.leaves.length

end Sys2Proof

namespace Sys2Proof.Machine

/-- The footprint of a leaf: the (byte offset, bit) pairs it is stored in (R166). -/
def footprint (l : Entry) : List (Nat × Nat) :=
  match l.kind with
  | .byte => (List.range 8).map fun b => (l.off, b)
  | .bits => (List.range l.width).map fun b => (l.off, l.start + b)
  | .s10 => ((List.range 8).map fun b => (l.off, b)) ++ [(l.loff, l.start), (l.loff, l.start + 1)]
  | .barr => (List.range l.width).map fun i => (l.off + i / 8, i % 8)

/-- `readField(l, T)` (R167). -/
def readField (l : Entry) (t : Memory) : Word :=
  match l.kind with
  | .byte => (t.read l.off).setWidth 16
  | .bits => (readBits (t.read l.off) l.start l.width).setWidth 16
  | .s10 =>
    let raw := read10 (t.read l.off) (t.read l.loff) l.start
    if l.bip then tc16 (bipDecode raw) else raw
  | .barr =>
    (List.range l.width).foldl
      (fun m i => m ||| ((readBits (t.read (l.off + i / 8)) (i % 8) 1).setWidth 16 <<< i)) 0

/-- `inRange(l, v)`, the declared range of a leaf (R169). -/
def inRange (l : Entry) (v : Word) : Bool :=
  match l.kind with
  | .byte => decide (v.toNat ≤ 255)
  | .bits => decide (v.toNat ≤ 2 ^ l.width - 1)
  | .s10 => if l.bip then decide (validLogical (signed16 v)) else decide (v.toNat ≤ 1023)
  | .barr => decide (v.toNat ≤ 2 ^ l.width - 1)

/-- `writeField(l, T, v)` for a value in range (R168); the refusal of others stands in its callers. -/
def writeField (l : Entry) (t : Memory) (v : Word) : Memory :=
  match l.kind with
  | .byte => t.write l.off (v.setWidth 8)
  | .bits => t.write l.off (writeBits (t.read l.off) (v.setWidth 8) l.start l.width)
  | .s10 =>
    let raw := if l.bip then bipEncode (signed16 v) else v
    let t' := t.write l.off (highByte raw)
    t'.write l.loff (mergeLow (t'.read l.loff) raw l.start)
  | .barr =>
    (List.range l.width).foldl
      (fun t i =>
        t.write (l.off + i / 8) (writeBits (t.read (l.off + i / 8)) (((v >>> i) &&& 1).setWidth 8) (i % 8) 1)) t

/-- Conditions 1 and 3 to 6 of `WF_LAYOUT` for one leaf (R170). -/
def leafWf (l : Entry) : Bool :=
  (footprint l).all (fun q => decide (16 ≤ q.1 ∧ q.1 ≤ 447)) &&
  (match l.kind with
   | .byte => true
   | .bits => decide (1 ≤ l.width ∧ l.width ≤ 8 ∧ l.start + l.width ≤ 8)
   | .s10 => decide (validOffset l.start ∧ l.off ≠ l.loff)
   | .barr => decide (1 ≤ l.width ∧ l.width ≤ 16)) &&
  (!l.bip || decide (l.kind = .s10)) && decide (l.sect ≤ 9)

/-- Two leaves share no bit (condition 2 of R170). -/
def disjoint (l l' : Entry) : Prop := ∀ q ∈ footprint l, q ∉ footprint l'

/-- `WF_LAYOUT(L)`, the admitted layouts: the seven conditions of R170 and no more. The ranges of R160 that are not among
them (`n1`, `n2` at least 1; `width` 8 for `BYTE` and 10 for `S10`; `start` and `loff` 0 where the kind does not use
them) are not asked: DESIGN CHOICE, safe (log 19). -/
def wfLayout (l : List Entry) : Prop :=
  (∀ e ∈ expand l, leafWf e = true) ∧ (expand l).Pairwise disjoint ∧
  1 ≤ (expand l).length ∧ (expand l).length ≤ 4096

end Sys2Proof.Machine
end

