-- ==== Sys2Proof/Machine/Operands.lean ====
section
/-! DEFINITION. The operand forms: the effective index, the elements of the six spaces and their bounds, byte
operands, the checks of the immediate operands (spec/20_memory.md R60 to R65, spec/40_bitfield.md R114). -/

namespace Sys2Proof.Machine

/-! ### Index spaces of the state -/

/-- How many indices a space has (spec/20_memory.md R60). -/
def spaceSize (c : Config) : Space → Nat
  | .w => c.wcap
  | .b => bodyLen
  | .p => c.nleaf
  | .n => nameCap
  | .e => 2 * c.paycap
  | .csr => 16

/-- The element at an index of a space, as a 16-bit value (R60; `zext_16` of spec/00_scope.md R9). -/
def State.element (s : State) (sp : Space) (a : Nat) : Word :=
  match sp with
  | .w => (s.w.read a).setWidth 16
  | .b => (s.b.read a).setWidth 16
  | .p => s.p.read a
  | .n => (s.name.read a).setWidth 16
  | .e => s.e.read a
  | .csr => s.readCsr (Csr.ofNumber (BitVec.ofNat 4 a))

/-- The element at an index of a space replaced; a byte space takes the low byte, which is all of a legal value.
Nothing but a result command writes `E` (R60, R67). -/
def State.setElement (s : State) (sp : Space) (a : Nat) (v : Word) : State :=
  match sp with
  | .w => s.setW (s.w.write a (v.setWidth 8))
  | .b => s.setB (s.b.write a (v.setWidth 8))
  | .p => s.setP (s.p.write a v)
  | .n => s.setName (s.name.write a (v.setWidth 8))
  | .e => s
  | .csr => s.writeCsr (Csr.ofNumber (BitVec.ofNat 4 a)) v

/-! ### Operands of loads, stores and field commands -/

/-- The effective index `(x[rb] + imm16) mod 65536` (R61). -/
def State.ea (s : State) (rb : Reg) (imm : Word) : Nat := (s.readX rb + imm).toNat

/-- `require a < n else raise AddressError(a)` for an index of a space, then `k` (R62). -/
def requireIndex {α : Type} (c : Config) (sp : Space) (a : Nat) (k : Except Raised α) : Except Raised α :=
  require (a < spaceSize c sp) (.address a) k

/-- `require a + len <= n else raise AddressError(a)` for a range of a space, without wrap, then `k` (R62). -/
def requireRange {α : Type} (c : Config) (sp : Space) (a len : Nat) (k : Except Raised α) : Except Raised α :=
  require (a + len ≤ spaceSize c sp) (.address a) k

/-- A register used as a byte must hold at most 255 (spec/40_bitfield.md R114), then `k`. -/
def requireByte {α : Type} (v : Word) (k : Except Raised α) : Except Raised α :=
  require (v.toNat ≤ 255) (.range .operand) k

/-- The geometry check of `readBits` and `writeBits` (spec/40_bitfield.md R100, R101), then `k`. -/
def requireGeometry {α : Type} (start : BitVec 3) (width : BitVec 4) (k : Except Raised α) : Except Raised α :=
  require (validGeometry start.toNat width.toNat) (.range .geometry) k

/-- The offset check of `read10` and `write10` (spec/40_bitfield.md R104, R105), then `k`. -/
def requireOffset {α : Type} (off : BitVec 3) (k : Except Raised α) : Except Raised α :=
  require (validOffset off.toNat) (.range .offset) k

/-- A value that must not exceed `n` (spec/40_bitfield.md R101, R105; spec/45_move_system.md R232), then `k`. -/
def requireValue {α : Type} (v : Word) (n : Nat) (k : Except Raised α) : Except Raised α :=
  require (v.toNat ≤ n) (.range .value) k

/-- A load: one element of a space into a register (spec/45_move_system.md R222 to R230). -/
def State.load (s : State) (sp : Space) (rd rb : Reg) (imm : Word) : Except Raised State :=
  requireIndex s.cfg sp (s.ea rb imm) (.ok (s.setX rd (s.element sp (s.ea rb imm))))

/-- A store of one byte from a register into a byte space: the index is checked before the operand
(spec/45_move_system.md R223, R225, R229). -/
def State.storeByte (s : State) (sp : Space) (rs rb : Reg) (imm : Word) : Except Raised State :=
  requireIndex s.cfg sp (s.ea rb imm)
    (requireByte (s.readX rs) (.ok (s.setElement sp (s.ea rb imm) (s.readX rs))))

end Sys2Proof.Machine
end

