-- ==== Sys2Proof/Machine/Flags.lean ====
section
/-! DEFINITION. The flags: the bits of `ERR`, the result record and `commitResult` (spec/10_state.md R31, R38 to R45;
spec/60_exceptions.md R247 to R249). -/

namespace Sys2Proof.Machine

/-- The classes of reported errors, the bits of `ERR` (R38). -/
inductive ErrClass
  | elen | ehdr | eftr | epay | emark | esect | erange
deriving DecidableEq, Repr

/-- The bit of a class in `ERR` (R38). -/
def ErrClass.bit : ErrClass → Nat
  | .elen => 0
  | .ehdr => 1
  | .eftr => 2
  | .epay => 3
  | .emark => 4
  | .esect => 5
  | .erange => 6

/-- The bit of a class, set or not. -/
def errFlag (c : ErrClass) (on : Bool) : Word := if on then (1 : Word) <<< c.bit else 0

/-- A result record (spec/60_exceptions.md R249). -/
structure Result where
  valid : Bool := false
  err : Word := 0
  elenact : Word := 0
  ehdrmask : Word := 0
  epaycnt : Word := 0
  eln : Word := 0
  e : Sparse 16 := []
  emiss : Word := 0
  erngidx : Word := 0
  erngval : Word := 0
deriving DecidableEq, Repr

/-- The all-zero result (R249). -/
def Result.zero : Result := {}

/-- The all-zero result with `VALID = 1` (R149, R203, R206). -/
def Result.success : Result := { valid := true }

/-- `EMARK` reported (spec/42_frame.md R149). -/
def Result.badMarker : Result := { err := errFlag .emark true }

/-- Missing sections reported (spec/44_marshal.md R208). -/
def Result.missingSections (missing : Word) : Result := { err := errFlag .esect true, emiss := missing }

/-- A leaf out of range reported (spec/44_marshal.md R208). -/
def Result.outOfRange (k : Nat) (v : Word) : Result :=
  { err := errFlag .erange true, erngidx := BitVec.ofNat 16 k, erngval := v }

/-- `ST` with `VALID` replaced and every other bit kept (R249: `ST.FAULT` is no member). -/
def withValid (st : Word) (v : Bool) : Word := (st &&& ~~~(1 : Word)) ||| (if v then 1 else 0)

/-- `commitResult(r)` (R249). -/
def State.commitResult (s : State) (r : Result) : State :=
  { s with
    st := withValid s.st r.valid
    err := r.err
    elenact := r.elenact
    ehdrmask := r.ehdrmask
    epaycnt := r.epaycnt
    eln := r.eln
    e := r.e
    emiss := r.emiss
    erngidx := r.erngidx
    erngval := r.erngval }

/-- The word whose bit `i`, for `i < n`, is `f i`, and whose other bits are 0. -/
def maskOf (f : Nat → Bool) (n : Nat) : Word :=
  (List.range n).foldl (fun m i => m ||| (if f i then (1 : Word) <<< i else 0)) 0

end Sys2Proof.Machine
end

