-- ==== Sys2Proof/Machine/BitField.lean ====
section
/-! DEFINITION. The BitField Codec commands (spec/40_bitfield.md R102 to R111). -/

namespace Sys2Proof.Machine

/-- `RDBITS rd, rs1, start, width` (R102). -/
def execRdbits (rd rs1 : Reg) (start : BitVec 3) (width : BitVec 4) (s : State) :
    Host.Outcome State Fault Refusal :=
  s.command <|
    requireGeometry start width <|
    requireByte (s.readX rs1) <|
    .ok (s.setX rd ((readBits ((s.readX rs1).setWidth 8) start.toNat width.toNat).setWidth 16))

/-- `WRBITS rd, rs1, rs2, start, width` (R103). -/
def execWrbits (rd rs1 rs2 : Reg) (start : BitVec 3) (width : BitVec 4) (s : State) :
    Host.Outcome State Fault Refusal :=
  s.command <|
    requireGeometry start width <|
    requireByte (s.readX rs1) <|
    requireValue (s.readX rs2) (2 ^ width.toNat - 1) <|
    .ok (s.setX rd
      ((writeBits ((s.readX rs1).setWidth 8) ((s.readX rs2).setWidth 8) start.toNat width.toNat).setWidth 16))

/-- `RD10 rd, rs1, rs2, off` (R106). -/
def execRd10 (rd rs1 rs2 : Reg) (off : BitVec 3) (s : State) : Host.Outcome State Fault Refusal :=
  s.command <|
    requireOffset off <|
    requireByte (s.readX rs1) <|
    requireByte (s.readX rs2) <|
    .ok (s.setX rd (read10 ((s.readX rs1).setWidth 8) ((s.readX rs2).setWidth 8) off.toNat))

/-- `rd+1` and `rd+2`, which `WR10` writes beside `rd`, where both exist (R107). -/
def nextTwo : Reg → Option (Reg × Reg)
  | .x0 => some (.x1, .x2)
  | .x1 => some (.x2, .x3)
  | .x2 => some (.x3, .x4)
  | .x3 => some (.x4, .x5)
  | .x4 => some (.x5, .x6)
  | .x5 => some (.x6, .x7)
  | .x6 => none
  | .x7 => none

/-- `WR10 rd, rs1, off`: the three writes follow the read (R107). Without room for three destinations it is an
illegal command (spec/30_encoding.md R85), which the decoder never hands over: DEDUCED, safe (log 10). -/
def execWr10 (rd rs1 : Reg) (off : BitVec 3) (s : State) : Host.Outcome State Fault Refusal :=
  s.command
    (match nextTwo rd with
     | none => .error (.illegal (upperHalf (encode (.wr10 rd rs1 off))))
     | some (rd1, rd2) =>
       requireOffset off <|
       requireValue (s.readX rs1) 1023 <|
       .ok (((s.setX rd ((highByte (s.readX rs1)).setWidth 16)).setX rd1
         ((lowBitsAtOffset (s.readX rs1) off.toNat).setWidth 16)).setX rd2
         ((clearMask off.toNat).setWidth 16)))

/-- `MRG10 rd, rs1, rs2, off` (R108). -/
def execMrg10 (rd rs1 rs2 : Reg) (off : BitVec 3) (s : State) : Host.Outcome State Fault Refusal :=
  s.command <|
    requireOffset off <|
    requireByte (s.readX rs1) <|
    requireValue (s.readX rs2) 1023 <|
    .ok (s.setX rd ((mergeLow ((s.readX rs1).setWidth 8) (s.readX rs2) off.toNat).setWidth 16))

/-- `BIPDEC rd, rs1` (R110). -/
def execBipdec (rd rs1 : Reg) (s : State) : Host.Outcome State Fault Refusal :=
  s.command <|
    requireValue (s.readX rs1) 1023 <|
    .ok (s.setX rd (tc16 (bipDecode (s.readX rs1))))

/-- `BIPENC rd, rs1` (R111). -/
def execBipenc (rd rs1 : Reg) (s : State) : Host.Outcome State Fault Refusal :=
  s.command <|
    require (validLogical (signed16 (s.readX rs1))) (.range .value) <|
    .ok (s.setX rd (bipEncode (signed16 (s.readX rs1))))

end Sys2Proof.Machine
end

