-- ==== Sys2Proof/Machine/Field.lean ====
section
/-! DEFINITION. The field commands (spec/43_layout.md R178, R179). -/

namespace Sys2Proof.Machine

/-- `FLDRD rd, imm(rb)` (R178). -/
def execFldrd (rd rb : Reg) (imm : Word) (s : State) : Host.Outcome State Fault Refusal :=
  let k := s.ea rb imm
  s.command
    (match s.cfg.leaves[k]? with
     | none => .error (.address k)
     | some l => .ok (s.setX rd (readField l s.b)))

/-- `FLDWR rs, imm(rb)` (R179). -/
def execFldwr (rs rb : Reg) (imm : Word) (s : State) : Host.Outcome State Fault Refusal :=
  let k := s.ea rb imm
  s.command
    (match s.cfg.leaves[k]? with
     | none => .error (.address k)
     | some l =>
       require (inRange l (s.readX rs) = true) (.range (.field k)) <|
       .ok (s.setB (writeField l s.b (s.readX rs))))

end Sys2Proof.Machine
end

