-- ==== Sys2Proof/Machine/Frame.lean ====
section
/-! DEFINITION. The wire frame and the frame commands (spec/42_frame.md R140 to R149). -/

namespace Sys2Proof.Machine

/-- Header byte `i` of the message is wrong or absent (R144, R145). -/
def badHeader (w : Memory) (len i : Nat) : Bool :=
  decide (len ≤ i) || decide (w.read i ≠ hdr.getD i 0)

/-- The footer byte of the message is wrong or absent (R144, R145). -/
def badFooter (w : Memory) (len : Nat) : Bool :=
  decide (len ≤ ftrPos) || decide (w.read ftrPos ≠ ftr)

/-- The indices of the payload bytes of the message that are above 127, ascending (R145). -/
def badPayload (w : Memory) (len : Nat) : List Nat :=
  ((List.range (min len ftrPos - hdrLen)).map (· + hdrLen)).filter fun a => decide (127 < (w.read a).toNat)

/-- The records of the error list: index, then byte (spec/10_state.md R28). -/
def payloadRecords (w : Memory) (bad : List Nat) : List Word :=
  bad.flatMap fun a => [BitVec.ofNat 16 a, (w.read a).setWidth 16]

/-- `validate(W, WLEN)` (R145). -/
def validate (paycap : Nat) (w : Memory) (wlen : Word) : Result :=
  let len := wlen.toNat
  let mask := maskOf (badHeader w len) hdrLen
  let bad := badPayload w len
  let wrongLen := decide (len ≠ msgLen)
  let err := errFlag .elen wrongLen ||| errFlag .ehdr (decide (mask ≠ 0)) |||
    errFlag .eftr (badFooter w len) ||| errFlag .epay (decide (bad ≠ []))
  { valid := decide (err = 0)
    err := err
    elenact := if wrongLen then wlen else 0
    ehdrmask := mask
    epaycnt := BitVec.ofNat 16 bad.length
    eln := BitVec.ofNat 16 (min bad.length paycap)
    e := Sparse.ofList (payloadRecords w (bad.take paycap)) }

/-- The body of a message, `unpackAll(W[7..518])` (R147). -/
def messageBody (c : Config) (w : Memory) : List Byte :=
  unpackAll c.carrierOrder (w.readRange hdrLen payLen)

/-- `parse`: the body, or the result that reports why there is none (R148, R149). -/
def parseMessage (c : Config) (w : Memory) (wlen : Word) : Except Result (List Byte) :=
  let r := validate c.paycap w wlen
  if r.valid = false then .error r
  else if (messageBody c w).take 4 ≠ c.marker.toList then .error Result.badMarker
  else .ok (messageBody c w)

/-- `VALIDATE` (R146). -/
def execValidate (s : State) : Host.Outcome State Fault Refusal :=
  s.command (.ok (s.commitResult (validate s.cfg.paycap s.w s.wlen)))

/-- `PARSE` (R149). -/
def execParse (s : State) : Host.Outcome State Fault Refusal :=
  s.command
    (match parseMessage s.cfg s.w s.wlen with
     | .error r => .ok (s.commitResult r)
     | .ok body => .ok ((s.setB (Sparse.ofList body)).commitResult Result.success))

end Sys2Proof.Machine
end

