-- ==== Sys2Proof/Machine/Marshal.lean ====
section
/-! DEFINITION. The marshaller commands (spec/44_marshal.md R200 to R208). -/

namespace Sys2Proof.Machine

/-! ### Decode -/

/-- The length of the name among the first `n` bytes of its region: trailing zero bytes do not count (R202). -/
def trimmedLen (t : Memory) (n : Nat) : Nat :=
  match n with
  | 0 => 0
  | n + 1 => if t.read (nameOff + n) = 0 then trimmedLen t n else n + 1

/-- The length `nameOf(T)` gives (R202). -/
def nameLenOf (t : Memory) : Nat := trimmedLen t nameLen

/-- The sixteen name bytes `nameOf(T)` gives; those beyond the length are 0 (R202). -/
def nameOf (t : Memory) : Memory := Sparse.ofList (t.readRange nameOff (nameLenOf t))

/-- The parameter values `decodeBody(T)` gives (R201). -/
def paramsOf (c : Config) (t : Memory) : Sparse 16 :=
  Sparse.ofList (c.leaves.map fun l => readField l t)

/-- The writes of a `DECODE` whose body is `t` (R203). -/
def State.decoded (s : State) (t : Memory) : State :=
  (((((s.setB t).setP (paramsOf s.cfg t)).setName (nameOf t)).setNamelen (BitVec.ofNat 16 (nameLenOf t))).setPsec
    allSections).commitResult Result.success

/-- The writes of a `DECODE` that reports `r`: the zero-valued parameter set (R203). -/
def State.notDecoded (s : State) (r : Result) : State :=
  ((((s.setP []).setName []).setNamelen 0).setPsec allSections).commitResult r

/-- `DECODE` (R203). -/
def execDecode (s : State) : Host.Outcome State Fault Refusal :=
  s.command
    (match parseMessage s.cfg s.w s.wlen with
     | .error r => .ok (s.notDecoded r)
     | .ok body => .ok (s.decoded (Sparse.ofList body)))

/-! ### Encode -/

/-- `REQSEC & ~PSEC & 0x03FF` (R204). -/
def missingSections (c : Config) (psec : Word) : Word :=
  c.reqsec.setWidth 16 &&& ~~~psec &&& allSections

/-- The walk of the layout from leaf `k` on: the fields of the present sections written in ascending order, or the
first leaf out of range with its value (R205). -/
def encodeLeaves (p : Sparse 16) (psec : Word) (k : Nat) (ls : List Entry) (t : Memory) :
    Except (Nat × Word) Memory :=
  match ls with
  | [] => .ok t
  | l :: rest =>
    if psec.getLsbD l.sect then
      if inRange l (p.read k) then encodeLeaves p psec (k + 1) rest (writeField l t (p.read k))
      else .error (k, p.read k)
    else encodeLeaves p psec (k + 1) rest t

/-- The name injected into a body: the first `min(NAMELEN, 12)` bytes (R205, R207). -/
def injectName (name : Memory) (len : Nat) (t : Memory) : Memory :=
  t.writeRange nameOff (name.readRange 0 (min len nameLen))

/-- `encodeBody` (R205): the body, or the number and the value of the first leaf out of range. -/
def encodeBody (c : Config) (p : Sparse 16) (name : Memory) (len : Nat) (psec : Word) :
    Except (Nat × Word) Memory :=
  match encodeLeaves p psec 0 c.leaves (Sparse.ofList c.marker.toList) with
  | .error kv => .error kv
  | .ok t => .ok (if psec.getLsbD 0 then injectName name len t else t)

/-- The 520 bytes of the message with body `t`: header, packed body, footer (R206). -/
def messageBytes (c : Config) (t : Memory) : List Byte :=
  hdr ++ packAll c.carrierOrder (t.readRange 0 bodyLen) ++ [ftr]

/-- The writes of a successful `ENCODE` or `SAFEENC` with body `t` (R206). -/
def State.encoded (s : State) (t : Memory) : State :=
  (((s.setB t).setW (s.w.writeRange 0 (messageBytes s.cfg t))).setWlen (BitVec.ofNat 16 msgLen)).commitResult
    Result.success

/-- `ENCODE`, the strict path: failures raise (R206). -/
def execEncode (s : State) : Host.Outcome State Fault Refusal :=
  let missing := missingSections s.cfg s.psec
  s.command <|
    require (missing = 0) (.encodeValidation missing) <|
    match encodeBody s.cfg s.p s.name s.namelen.toNat s.psec with
    | .error (k, _) => .error (.range (.field k))
    | .ok t => .ok (s.encoded t)

/-- `SAFEENC`: the same failures are reported (R208). -/
def execSafeenc (s : State) : Host.Outcome State Fault Refusal :=
  let missing := missingSections s.cfg s.psec
  s.command
    (if missing ≠ 0 then .ok (s.commitResult (Result.missingSections missing))
     else
       match encodeBody s.cfg s.p s.name s.namelen.toNat s.psec with
       | .error (k, v) => .ok (s.commitResult (Result.outOfRange k v))
       | .ok t => .ok (s.encoded t))

end Sys2Proof.Machine
end

