-- ==== Sys2Proof/Machine/Move.lean ====
section
/-! DEFINITION. The data-movement and system commands (spec/45_move_system.md R220 to R232). -/

namespace Sys2Proof.Machine

/-- `NOP` (R220). -/
def execNop (s : State) : Host.Outcome State Fault Refusal := s.command (.ok s)

/-- `LI rd, imm` (R221). -/
def execLi (rd : Reg) (imm : Word) (s : State) : Host.Outcome State Fault Refusal :=
  s.command (.ok (s.setX rd imm))

/-- `LDW rd, imm(rb)` (R222). -/
def execLdw (rd rb : Reg) (imm : Word) (s : State) : Host.Outcome State Fault Refusal :=
  s.command (s.load .w rd rb imm)

/-- `STW rs, imm(rb)` (R223). -/
def execStw (rs rb : Reg) (imm : Word) (s : State) : Host.Outcome State Fault Refusal :=
  s.command (s.storeByte .w rs rb imm)

/-- `LDB rd, imm(rb)` (R224). -/
def execLdb (rd rb : Reg) (imm : Word) (s : State) : Host.Outcome State Fault Refusal :=
  s.command (s.load .b rd rb imm)

/-- `STB rs, imm(rb)` (R225). -/
def execStb (rs rb : Reg) (imm : Word) (s : State) : Host.Outcome State Fault Refusal :=
  s.command (s.storeByte .b rs rb imm)

/-- `LDP rd, imm(rb)` (R226). -/
def execLdp (rd rb : Reg) (imm : Word) (s : State) : Host.Outcome State Fault Refusal :=
  s.command (s.load .p rd rb imm)

/-- `STP rs, imm(rb)`: any 16-bit value can be stored (R227). -/
def execStp (rs rb : Reg) (imm : Word) (s : State) : Host.Outcome State Fault Refusal :=
  s.command (requireIndex s.cfg .p (s.ea rb imm) (.ok (s.setElement .p (s.ea rb imm) (s.readX rs))))

/-- `LDN rd, imm(rb)` (R228). -/
def execLdn (rd rb : Reg) (imm : Word) (s : State) : Host.Outcome State Fault Refusal :=
  s.command (s.load .n rd rb imm)

/-- `STN rs, imm(rb)` (R229). -/
def execStn (rs rb : Reg) (imm : Word) (s : State) : Host.Outcome State Fault Refusal :=
  s.command (s.storeByte .n rs rb imm)

/-- `LDE rd, imm(rb)` (R230). -/
def execLde (rd rb : Reg) (imm : Word) (s : State) : Host.Outcome State Fault Refusal :=
  s.command (s.load .e rd rb imm)

/-- `CSRR rd, csr`: the value before this command (R231). -/
def execCsrr (rd : Reg) (csr : Csr) (s : State) : Host.Outcome State Fault Refusal :=
  s.command (.ok (s.setX rd (s.readCsr csr)))

/-- `CSRW csr, rs`: a read-only number is an illegal command, before the value is looked at (R232, R246). -/
def execCsrw (csr : Csr) (rs : Reg) (s : State) : Host.Outcome State Fault Refusal :=
  s.command
    (match csrLimit s.cfg csr with
     | none => .error (.illegal (upperHalf (encode (.csrw csr rs))))
     | some n => requireValue (s.readX rs) n (.ok (s.writeCsr csr (s.readX rs))))

end Sys2Proof.Machine
end

