-- ==== Sys2Proof/Machine/SevenBit.lean ====
section
/-! DEFINITION. The SevenBit Codec commands (spec/41_sevenbit.md R127 to R130). -/

namespace Sys2Proof.Machine

/-- `UNPKG`: one wire group at index `x[ri]` of `W` to 7 bytes at index `x[bi]` of `B` (R129). -/
def execUnpkg (ri bi : Reg) (s : State) : Host.Outcome State Fault Refusal :=
  let a := (s.readX ri).toNat
  let b := (s.readX bi).toNat
  s.command <|
    requireRange s.cfg .w a 8 <|
    requireRange s.cfg .b b 7 <|
    .ok (s.setB (s.b.writeRange b (unpackGroup s.cfg.carrierOrder (s.w.readRange a 8))))

/-- `PKG`: 7 bytes at index `x[bi]` of `B` to one wire group at index `x[ri]` of `W` (R130). -/
def execPkg (ri bi : Reg) (s : State) : Host.Outcome State Fault Refusal :=
  let a := (s.readX ri).toNat
  let b := (s.readX bi).toNat
  s.command <|
    requireRange s.cfg .b b 7 <|
    requireRange s.cfg .w a 8 <|
    .ok (s.setW (s.w.writeRange a (packGroup s.cfg.carrierOrder (s.b.readRange b 7))))

/-- `require n mod k = 0 else raise LengthError(n)`, then `r` (R125). -/
def requireMultiple {α : Type} (n k : Nat) (r : Except Raised α) : Except Raised α :=
  require (n % k = 0) (.length n) r

/-- `UNPKALL`: `x[rn]` wire bytes from index `x[ri]` to the body from index `x[bi]` on (R127). -/
def execUnpkall (ri bi rn : Reg) (s : State) : Host.Outcome State Fault Refusal :=
  let a := (s.readX ri).toNat
  let b := (s.readX bi).toNat
  let n := (s.readX rn).toNat
  s.command <|
    requireMultiple n 8 <|
    requireRange s.cfg .w a n <|
    requireRange s.cfg .b b (7 * (n / 8)) <|
    .ok (s.setB (s.b.writeRange b (unpackAll s.cfg.carrierOrder (s.w.readRange a n))))

/-- `PKALL`: `x[rn]` body bytes from index `x[bi]` to the wire buffer from index `x[ri]` on (R128). -/
def execPkall (ri bi rn : Reg) (s : State) : Host.Outcome State Fault Refusal :=
  let a := (s.readX ri).toNat
  let b := (s.readX bi).toNat
  let n := (s.readX rn).toNat
  s.command <|
    requireMultiple n 7 <|
    requireRange s.cfg .b b n <|
    requireRange s.cfg .w a (8 * (n / 7)) <|
    .ok (s.setW (s.w.writeRange a (packAll s.cfg.carrierOrder (s.b.readRange b n))))

end Sys2Proof.Machine
end

