-- ==== Sys2Proof/Machine/Dispatch.lean ====
section
/-! DEFINITION. One arm per command, each its meaning. -/

namespace Sys2Proof.Machine

-- The command `i` taken in state `s` (spec/30_encoding.md R84, spec/60_exceptions.md R246).
def exec (i : Instr) (s : State) : Host.Outcome State Fault Refusal :=
  match i with
  | .nop => Sys2Proof.Machine.execNop s
  | .li rd imm => Sys2Proof.Machine.execLi rd imm s
  | .csrr rd csr => Sys2Proof.Machine.execCsrr rd csr s
  | .csrw csr rs => Sys2Proof.Machine.execCsrw csr rs s
  | .lde rd rb imm => Sys2Proof.Machine.execLde rd rb imm s
  | .ldw rd rb imm => Sys2Proof.Machine.execLdw rd rb imm s
  | .stw rs rb imm => Sys2Proof.Machine.execStw rs rb imm s
  | .ldb rd rb imm => Sys2Proof.Machine.execLdb rd rb imm s
  | .stb rs rb imm => Sys2Proof.Machine.execStb rs rb imm s
  | .ldp rd rb imm => Sys2Proof.Machine.execLdp rd rb imm s
  | .stp rs rb imm => Sys2Proof.Machine.execStp rs rb imm s
  | .ldn rd rb imm => Sys2Proof.Machine.execLdn rd rb imm s
  | .stn rs rb imm => Sys2Proof.Machine.execStn rs rb imm s
  | .rdbits rd rs1 start width => Sys2Proof.Machine.execRdbits rd rs1 start width s
  | .wrbits rd rs1 rs2 start width => Sys2Proof.Machine.execWrbits rd rs1 rs2 start width s
  | .rd10 rd rs1 rs2 off => Sys2Proof.Machine.execRd10 rd rs1 rs2 off s
  | .wr10 rd rs1 off => Sys2Proof.Machine.execWr10 rd rs1 off s
  | .mrg10 rd rs1 rs2 off => Sys2Proof.Machine.execMrg10 rd rs1 rs2 off s
  | .bipdec rd rs1 => Sys2Proof.Machine.execBipdec rd rs1 s
  | .bipenc rd rs1 => Sys2Proof.Machine.execBipenc rd rs1 s
  | .unpkg ri bi => Sys2Proof.Machine.execUnpkg ri bi s
  | .pkg ri bi => Sys2Proof.Machine.execPkg ri bi s
  | .unpkall ri bi rn => Sys2Proof.Machine.execUnpkall ri bi rn s
  | .pkall ri bi rn => Sys2Proof.Machine.execPkall ri bi rn s
  | .validate => Sys2Proof.Machine.execValidate s
  | .parse => Sys2Proof.Machine.execParse s
  | .fldrd rd rb imm => Sys2Proof.Machine.execFldrd rd rb imm s
  | .fldwr rs rb imm => Sys2Proof.Machine.execFldwr rs rb imm s
  | .decode => Sys2Proof.Machine.execDecode s
  | .encode => Sys2Proof.Machine.execEncode s
  | .safeenc => Sys2Proof.Machine.execSafeenc s

end Sys2Proof.Machine
end

