-- ==== Sys2Proof/Machine/HostPort.lean ====
section
/-! DEFINITION. The host's transactions other than a command (spec/60_exceptions.md R258). -/

namespace Sys2Proof.Machine

/-- `hostRead(S, a)`: the element it returns, none for an index outside the space, which is no transaction (R258).
It has no side effect. -/
def hostRead (s : State) (sp : Space) (a : Nat) : Option Word :=
  if a < spaceSize s.cfg sp then some (s.element sp a) else none

/-- The values `hostWrite(S, a, v)` may write at an index inside the space; none into `E` and the read-only control
registers (R258). -/
def hostWritable (s : State) (sp : Space) (a : Nat) (v : Word) : Bool :=
  match sp with
  | .w => decide (v.toNat ≤ 255)
  | .b => decide (v.toNat ≤ 255)
  | .p => true
  | .n => decide (v.toNat ≤ 255)
  | .e => false
  | .csr =>
    match csrLimit s.cfg (Csr.ofNumber (BitVec.ofNat 4 a)) with
    | none => false
    | some n => decide (v.toNat ≤ n)

/-- `hostRead` as a step: nothing changes (R258); what it returns is `hostRead` (DESIGN CHOICE, safe; log 16). -/
def stepRead (s : State) (sp : Space) (a : Nat) : Host.Outcome State Fault Refusal :=
  match hostRead s sp a with
  | some _ => .next s
  | none => .refused .notATransaction

/-- `hostWrite` as a step: allowed only without a fault, inside the space and for a legal value (R258). -/
def stepWrite (s : State) (sp : Space) (a : Nat) (v : Word) : Host.Outcome State Fault Refusal :=
  if s.faulted = false ∧ a < spaceSize s.cfg sp ∧ hostWritable s sp a v = true then .next (s.setElement sp a v)
  else .refused .notATransaction

/-- `hostReset`, the only way out of a fault (R252, spec/70_reset_and_hazards.md R270): the reset values of R50, the
parameters not touched. What R50 leaves unspecified becomes free values (log 5). -/
def State.hostReset (s : State) : State :=
  { State.resetWith s.cfg with
    x := ⟨Config.resetX s.resets 1, Config.resetX s.resets 2, Config.resetX s.resets 3, Config.resetX s.resets 4,
      Config.resetX s.resets 5, Config.resetX s.resets 6, Config.resetX s.resets 7⟩
    w := Sparse.ofList ((List.range s.cfg.wcap).map (Config.resetW s.resets))
    b := Sparse.ofList ((List.range bodyLen).map (Config.resetB s.resets))
    p := Sparse.ofList ((List.range s.cfg.nleaf).map (Config.resetP s.resets))
    name := Sparse.ofList ((List.range nameCap).map (Config.resetName s.resets))
    host := s.host
    resets := s.resets + 1 }

/-- Take the next host transaction off the list, if there is one (R258, R259). -/
def nextTransaction (s : State) : Option (HostTxn × State) :=
  match s.host with
  | [] => none
  | t :: rest => some (t, s.setHost rest)

/-- The word of `nbits` bits of `w`, the bits above them 0 (DEDUCED, safe; log 18). -/
def tableCommand (nbits w : Nat) : Command := BitVec.ofNat 32 (w % 2 ^ nbits)

end Sys2Proof.Machine
end

