-- ==== Sys2Proof/Machine/Step.lean ====
section
/-! DEFINITION. One step: the next transaction of the host (spec/60_exceptions.md R258). The block fetches nothing; a
command is what the host hands over (spec/10_state.md R46). -/

namespace Sys2Proof.Machine

/-- One step. With no transaction to come the block does nothing (R259, log 7). A command is refused under a fault
before anything else, an illegal word raises, any other runs (R246); the meanings make the first of these checks. -/
def step (s : State) : Host.Outcome State Fault Refusal :=
  match nextTransaction s with
  | none => .next s
  | some (.read sp a, t) => stepRead t sp a
  | some (.write sp a v, t) => stepWrite t sp a v
  | some (.reset, t) => .next t.hostReset
  | some (.command c, t) =>
    match decode c with
    | .ok i => exec i t
    | .error _ => execIllegal c t

/-- `s` with the command word of the opcode table's bits `w` as the host's next transaction (log 6). -/
def State.withFetchWord (s : State) (nbits w : Nat) : State :=
  s.setHost (.command (tableCommand nbits w) :: s.host)

end Sys2Proof.Machine
end

