-- ==== Sys2Proof/Safety.lean ====
section
/-! DEFINITION. The terms statements use: the admitted parameters, what holds of every state a run reaches, the state
a fault leaves, and the message and body contents by index. -/

namespace Sys2Proof

/-- The admitted values of the parameters (spec/00_scope.md R6, spec/43_layout.md R170). -/
def Config.admitted (c : Config) : Prop :=
  Machine.wfLayout c.layout ∧ 1 ≤ c.paycap ∧ 521 ≤ c.wcap ∧ c.wcap ≤ 65535

/-- The word with the given fields, bit 16 zero (spec/30_encoding.md R81, R88). -/
def wordOf (op : BitVec 6) (ra rb rc : BitVec 3) (imm : Word) : Command :=
  op ++ ra ++ rb ++ rc ++ (0 : BitVec 1) ++ imm

/-- The registers a command writes as destinations (spec/10_state.md R21, spec/40_bitfield.md R107). -/
def Instr.destinations : Instr → List Reg
  | .nop => []
  | .li rd _ => [rd]
  | .csrr rd _ => [rd]
  | .csrw _ _ => []
  | .lde rd _ _ => [rd]
  | .ldw rd _ _ => [rd]
  | .stw _ _ _ => []
  | .ldb rd _ _ => [rd]
  | .stb _ _ _ => []
  | .ldp rd _ _ => [rd]
  | .stp _ _ _ => []
  | .ldn rd _ _ => [rd]
  | .stn _ _ _ => []
  | .rdbits rd _ _ _ => [rd]
  | .wrbits rd _ _ _ _ => [rd]
  | .rd10 rd _ _ _ => [rd]
  | .wr10 rd _ _ => [rd, Reg.ofNumber (rd.number + 1), Reg.ofNumber (rd.number + 2)]
  | .mrg10 rd _ _ _ => [rd]
  | .bipdec rd _ => [rd]
  | .bipenc rd _ => [rd]
  | .unpkg _ _ => []
  | .pkg _ _ => []
  | .unpkall _ _ _ => []
  | .pkall _ _ _ => []
  | .validate => []
  | .parse => []
  | .fldrd rd _ _ => [rd]
  | .fldwr _ _ _ => []
  | .decode => []
  | .encode => []
  | .safeenc => []

/-- The spaces `W`, `B`, `P`, `N`, `E` a command writes, the column "written by" of spec/20_memory.md R60. The control
registers stand in `writesControl`. -/
def Instr.writes : Instr → List Machine.Space
  | .nop => []
  | .li _ _ => []
  | .csrr _ _ => []
  | .csrw _ _ => []
  | .lde _ _ _ => []
  | .ldw _ _ _ => []
  | .stw _ _ _ => [.w]
  | .ldb _ _ _ => []
  | .stb _ _ _ => [.b]
  | .ldp _ _ _ => []
  | .stp _ _ _ => [.p]
  | .ldn _ _ _ => []
  | .stn _ _ _ => [.n]
  | .rdbits _ _ _ _ => []
  | .wrbits _ _ _ _ _ => []
  | .rd10 _ _ _ _ => []
  | .wr10 _ _ _ => []
  | .mrg10 _ _ _ _ => []
  | .bipdec _ _ => []
  | .bipenc _ _ => []
  | .unpkg _ _ => [.b]
  | .pkg _ _ => [.w]
  | .unpkall _ _ _ => [.b]
  | .pkall _ _ _ => [.w]
  | .validate => [.e]
  | .parse => [.b, .e]
  | .fldrd _ _ _ => []
  | .fldwr _ _ _ => [.b]
  | .decode => [.b, .p, .n, .e]
  | .encode => [.w, .b, .e]
  | .safeenc => [.w, .b, .e]

/-- The registers `WLEN`, `NAMELEN`, `PSEC` a command may write, the column "written by" of spec/10_state.md R30; for
`CSRW` the register it names. -/
def Instr.writesControl : Instr → List Csr
  | .nop => []
  | .li _ _ => []
  | .csrr _ _ => []
  | .csrw csr _ => [csr]
  | .lde _ _ _ => []
  | .ldw _ _ _ => []
  | .stw _ _ _ => []
  | .ldb _ _ _ => []
  | .stb _ _ _ => []
  | .ldp _ _ _ => []
  | .stp _ _ _ => []
  | .ldn _ _ _ => []
  | .stn _ _ _ => []
  | .rdbits _ _ _ _ => []
  | .wrbits _ _ _ _ _ => []
  | .rd10 _ _ _ _ => []
  | .wr10 _ _ _ => []
  | .mrg10 _ _ _ _ => []
  | .bipdec _ _ => []
  | .bipenc _ _ => []
  | .unpkg _ _ => []
  | .pkg _ _ => []
  | .unpkall _ _ _ => []
  | .pkall _ _ _ => []
  | .validate => []
  | .parse => []
  | .fldrd _ _ _ => []
  | .fldwr _ _ _ => []
  | .decode => [.namelen, .psec]
  | .encode => [.wlen]
  | .safeenc => [.wlen]

/-- The rows of the opcode table: the mask of the command's format and the word with every operand field 0
(spec/30_encoding.md R82, R84). -/
def commandRows : List (Command × Command) := [
  (0xFFFFFFFF, 0x00000000), (0xFC7F0000, 0x04000000), (0xFC7FFFF0, 0x08000000), (0xFC7FFFF0, 0x0C000000),
  (0xFC0F0000, 0x1C000000), (0xFC0F0000, 0x20000000), (0xFC0F0000, 0x24000000), (0xFC0F0000, 0x28000000),
  (0xFC0F0000, 0x2C000000), (0xFC0F0000, 0x30000000), (0xFC0F0000, 0x34000000), (0xFC0F0000, 0x38000000),
  (0xFC0F0000, 0x3C000000), (0xFC0FFF08, 0x40000000), (0xFC01FF08, 0x44000000), (0xFC01FFF8, 0x48000000),
  (0xFC0FFFF8, 0x4C000000), (0xFC01FFF8, 0x50000000), (0xFC0FFFFF, 0x54000000), (0xFC0FFFFF, 0x58000000),
  (0xFC0FFFFF, 0x60000000), (0xFC0FFFFF, 0x64000000), (0xFC01FFFF, 0x68000000), (0xFC01FFFF, 0x6C000000),
  (0xFFFFFFFF, 0x80000000), (0xFFFFFFFF, 0x84000000), (0xFC0F0000, 0xA0000000), (0xFC0F0000, 0xA4000000),
  (0xFFFFFFFF, 0xC0000000), (0xFFFFFFFF, 0xC4000000), (0xFFFFFFFF, 0xC8000000)]

namespace Machine

/-! ### What every reachable state keeps -/

/-- Every index space lists only indices that exist, in the canonical form (spec/20_memory.md R60). -/
structure State.Contained (s : State) : Prop where
  w : Memory.wf s.w = true ∧ s.w.below s.cfg.wcap = true
  b : Memory.wf s.b = true ∧ s.b.below 448 = true
  p : s.p.wf = true ∧ s.p.below s.cfg.nleaf = true
  name : Memory.wf s.name = true ∧ s.name.below 16 = true
  e : s.e.wf = true ∧ s.e.below (2 * s.cfg.paycap) = true

/-- The writable control registers hold legal values (spec/10_state.md R23, R26, R27) and the unused bits of the
control registers read 0 (R31, R38, R40, R41, R43). -/
structure State.LegalControl (s : State) : Prop where
  wlen : s.wlen.toNat ≤ s.cfg.wcap
  namelen : s.namelen.toNat ≤ 16
  psec : s.psec.toNat ≤ 0x03FF
  st : s.st.toNat ≤ 3
  err : s.err.toNat ≤ 0x7F
  ehdrmask : s.ehdrmask.toNat ≤ 0x7F
  epaycnt : s.epaycnt.toNat ≤ 512
  emiss : s.emiss.toNat ≤ 0x03FF

/-- The fault registers are 0 until a fault, and then name a cause and the position of the command
(spec/10_state.md R32 to R34, R46). -/
structure State.FaultRecord (s : State) : Prop where
  clear : s.faulted = false → s.fcause = 0 ∧ s.finfo = 0 ∧ s.fcix = 0
  taken : s.faulted = true → 1 ≤ s.fcause.toNat ∧ s.fcause.toNat ≤ 5 ∧ s.fcix = s.cix

/-- The members of the result group agree with each other (spec/10_state.md R28, R38 to R45). -/
structure State.ResultGroup (s : State) : Prop where
  valid : s.valid = true → s.err = 0
  classes : s.err.toNat ≤ 15 ∨ s.err.toNat = 16 ∨ s.err.toNat = 32 ∨ s.err.toNat = 64
  elen : if s.err.getLsbD 0 then s.elenact.toNat ≠ 520 else s.elenact = 0
  ehdr : s.err.getLsbD 1 = true ↔ s.ehdrmask ≠ 0
  epay : s.err.getLsbD 3 = true ↔ s.epaycnt ≠ 0
  eln : s.eln.toNat = min s.epaycnt.toNat s.cfg.paycap
  records : ∀ j < s.eln.toNat, 7 ≤ (s.e.read (2 * j)).toNat ∧ (s.e.read (2 * j)).toNat ≤ 518 ∧
    128 ≤ (s.e.read (2 * j + 1)).toNat ∧ (s.e.read (2 * j + 1)).toNat ≤ 255
  beyond : ∀ a, 2 * s.eln.toNat ≤ a → s.e.read a = 0
  emiss : s.err.getLsbD 5 = true ↔ s.emiss ≠ 0
  erange : if s.err.getLsbD 6 then s.erngidx.toNat < s.cfg.nleaf else s.erngidx = 0 ∧ s.erngval = 0

/-! ### States commands leave -/

/-- The state a fault of cause `code` with information word `info` leaves (spec/60_exceptions.md R241). -/
def State.afterFault (s : State) (code info : Nat) : State :=
  { s with st := s.st ||| 2, fcause := BitVec.ofNat 16 code, finfo := BitVec.ofNat 16 info, fcix := s.cix }

/-- `s` after a command that completed and wrote nothing but `x[rd]`. -/
def State.wroteX (s : State) (rd : Reg) (v : Word) : State :=
  { s with x := s.x.write rd v, cix := s.cix + 1 }

/-- `s` with the result group of a success (spec/60_exceptions.md R247, R249). -/
def State.reportedSuccess (s : State) : State :=
  { s with
    st := s.st ||| 1
    err := 0, elenact := 0, ehdrmask := 0, epaycnt := 0, eln := 0, e := [], emiss := 0, erngidx := 0, erngval := 0 }

/-- `s` with the result group of a failure that reports the bits `err`, the missing sections `miss` and the leaf `k`
with value `v` out of range, and nothing else (spec/44_marshal.md R208, spec/42_frame.md R149). -/
def State.reportedFailure (s : State) (err miss k v : Word) : State :=
  { s with
    st := s.st &&& 0xFFFE
    err := err, elenact := 0, ehdrmask := 0, epaycnt := 0, eln := 0, e := [], emiss := miss, erngidx := k, erngval := v }

/-! ### Messages and bodies by index -/

/-- Bit `q.2` of the byte at index `q.1`. -/
def bitAt (t : Memory) (q : Nat × Nat) : Bool := (t.read q.1).getLsbD q.2

/-- The carrier bit of the `i`-th byte of a group (spec/41_sevenbit.md R121). -/
def carrierPosition (o : CarrierOrder) (i : Nat) : Nat := if o = .asc then i else 6 - i

/-- The value of byte `j` of the body that the wire bytes from index `a` on carry (spec/41_sevenbit.md R126). -/
def carriedByte (o : CarrierOrder) (w : Memory) (a j : Nat) : Nat :=
  (w.read (a + 8 * (j / 7) + 1 + j % 7)).toNat % 128 +
    128 * ((w.read (a + 8 * (j / 7))).toNat / 2 ^ carrierPosition o (j % 7) % 2)

/-- The seven header bytes (spec/42_frame.md R140). -/
def headerBytes : List Byte := [0xF0, 0x42, 0x30, 0x00, 0x01, 0x44, 0x40]

/-- The message in `W` passes every structural check (spec/42_frame.md R145). -/
def State.wellFormedMessage (s : State) : Prop :=
  s.wlen = 520 ∧ (∀ i, i < 7 → s.w.read i = headerBytes.getD i 0) ∧ s.w.read 519 = 0xF7 ∧
    ∀ a, 7 ≤ a → a ≤ 518 → (s.w.read a).toNat ≤ 127

/-- The indices of the payload bytes of the message that are above 127, lowest first (spec/42_frame.md R145). -/
def State.unsafePayload (s : State) : List Nat :=
  (List.range 519).filter fun a =>
    decide (7 ≤ a) && decide (a < s.wlen.toNat) && decide (127 < (s.w.read a).toNat)

/-- The body of the message in `W` begins with `MARKER` (spec/42_frame.md R148). -/
def State.markerPresent (s : State) : Prop :=
  ∀ i, i < 4 → carriedByte s.cfg.carrierOrder s.w 7 i = (s.cfg.marker.toList.getD i 0).toNat

/-- `P[k]` of every leaf of a present section is in its declared range (spec/43_layout.md R169). -/
def State.parametersInRange (s : State) : Prop :=
  ∀ k l, s.cfg.leaves[k]? = some l → s.psec.getLsbD l.sect = true → inRange l (s.p.read k) = true

/-- Leaf `k` is the first leaf of a present section, in table order, that is out of its declared range
(spec/44_marshal.md R205). -/
def State.firstOutOfRange (s : State) (k : Nat) : Prop :=
  (∃ l, s.cfg.leaves[k]? = some l ∧ s.psec.getLsbD l.sect = true ∧ inRange l (s.p.read k) = false) ∧
    ∀ j l, j < k → s.cfg.leaves[j]? = some l → s.psec.getLsbD l.sect = true → inRange l (s.p.read j) = true

/-- The required sections that are missing (spec/44_marshal.md R204). -/
def State.missing (s : State) : Word := s.cfg.reqsec.setWidth 16 &&& ~~~s.psec &&& 0x03FF

end Machine

end Sys2Proof
end

