-- ==== Sys2Proof/Certificates/Slice0/Obligations.lean ====
section
/-! DEFINITION. The statements for the provers, in the order of OBLIGATIONS.json: encoding, the machine and its host,
invariants, then the commands family by family. -/

section Statements

open Sys2Proof Sys2Proof.Machine

/-! ### Encoding -/

/-- Every command decodes from the word that spells it (spec/30_encoding.md R83, R85, R88). -/
def Obligations.DecodeOfEncode : Prop :=
  ∀ i : Instr, i.wf = true → Sys2Proof.decode (Sys2Proof.encode i) = .ok i

/-- A command has one word: no bit of the word is dropped (R82, R85). -/
def Obligations.EncodeOfDecode : Prop :=
  ∀ (c : Command) (i : Instr), Sys2Proof.decode c = .ok i → Sys2Proof.encode i = c ∧ i.wf = true

/-- A word spells a command exactly when it matches a row of the opcode table under its mask and, for `WR10`, names a
first destination up to `x5`; the command is the one of the word's opcode (R82, R84, R85). -/
def Obligations.DecodeAcceptsTheTable : Prop :=
  (∀ c : Command, (∃ i, Sys2Proof.decode c = .ok i) ↔
    ∃ r ∈ commandRows, c &&& r.1 = r.2 ∧ (r.2 = 0x4C000000 → (c.extractLsb' 23 3).toNat ≤ 5)) ∧
  ∀ (c : Command) (i : Instr), Sys2Proof.decode c = .ok i → i.opcode = c.extractLsb' 26 6

/-- Words written out from the spec's field tables, at least one of each of the thirteen formats, decode to the commands
they stand for (R82, R84). -/
def Obligations.SampleWordsDecode : Prop :=
  Sys2Proof.decode 0x00000000 = .ok .nop ∧
  Sys2Proof.decode 0x058002A7 = .ok (.li .x3 679) ∧
  Sys2Proof.decode 0x0A80000F = .ok (.csrr .x5 .cix) ∧
  Sys2Proof.decode 0x0F800004 = .ok (.csrw .wlen .x7) ∧
  Sys2Proof.decode 0x20F00207 = .ok (.ldw .x1 .x7 519) ∧
  Sys2Proof.decode 0x36E0000C = .ok (.stp .x5 .x6 12) ∧
  Sys2Proof.decode 0x41100032 = .ok (.rdbits .x2 .x1 2 3) ∧
  Sys2Proof.decode 0x45940032 = .ok (.wrbits .x3 .x1 .x2 2 3) ∧
  Sys2Proof.decode 0x49940004 = .ok (.rd10 .x3 .x1 .x2 4) ∧
  Sys2Proof.decode 0x4EF00006 = .ok (.wr10 .x5 .x7 6) ∧
  Sys2Proof.decode 0x55100000 = .ok (.bipdec .x2 .x1) ∧
  Sys2Proof.decode 0x60A00000 = .ok (.unpkg .x1 .x2) ∧
  Sys2Proof.decode 0x68A60000 = .ok (.unpkall .x1 .x2 .x3) ∧
  Sys2Proof.decode 0xA7F00172 = .ok (.fldwr .x7 .x7 370) ∧
  Sys2Proof.decode 0xC8000000 = .ok .safeenc

/-! ### The machine -/

/-- A step that takes a legal command word runs the command it spells, on the state without that transaction
(spec/60_exceptions.md R258). -/
def Obligations.StepRunsTheDecodedCommand : Prop :=
  ∀ (s : State) (c : Command) (rest : List HostTxn) (i : Instr),
    s.host = .command c :: rest → Sys2Proof.decode c = .ok i → step s = exec i { s with host := rest }

/-- A step that takes a word that spells no command raises `IllegalCommand` with the upper half of the word, unless
the block is under a fault (spec/30_encoding.md R85). -/
def Obligations.IllegalWordsRaise : Prop :=
  ∀ (s : State) (c : Command) (rest : List HostTxn) (r : Reject),
    s.host = .command c :: rest → Sys2Proof.decode c = .error r → s.faulted = false →
    step s = .next ({ s with host := rest }.afterFault 5 (c.toNat / 65536))

/-- While `ST.FAULT = 1` every command, legal or not, is refused with no change, and only a reset clears the flag
(spec/60_exceptions.md R244). -/
def Obligations.FaultRefusesCommandsUntilReset : Prop :=
  ∀ s : State, s.faulted = true →
    (∀ i : Instr, exec i s = .next s) ∧
    (∀ (c : Command) (rest : List HostTxn), s.host = .command c :: rest → step s = .next { s with host := rest }) ∧
    (∀ t : State, step s = .next t → t.faulted = false → s.host = .reset :: t.host)

/-- A command that raises performs the four writes of the fault and no others (spec/60_exceptions.md R241, R242). -/
def Obligations.RaisingWritesOnlyTheFaultRegisters : Prop :=
  ∀ (i : Instr) (s t : State), s.faulted = false → exec i s = .next t → t.faulted = true →
    ∃ code info : Nat, 1 ≤ code ∧ code ≤ 5 ∧ info < 65536 ∧ t = s.afterFault code info

/-- `CIX` counts the commands that complete, modulo 65536; a refused or faulting command leaves it, and a faulting one
copies it to `FCIX` (spec/10_state.md R46). -/
def Obligations.CixCountsCompletedCommands : Prop :=
  ∀ (i : Instr) (s t : State), exec i s = .next t →
    (s.faulted = true → t.cix = s.cix) ∧
    (s.faulted = false → t.faulted = true → t.cix = s.cix ∧ t.fcix = s.cix) ∧
    (t.faulted = false → t.cix.toNat = (s.cix.toNat + 1) % 65536)

/-- A command writes no general register but its destinations (spec/10_state.md R21). -/
def Obligations.OnlyDestinationsAreWritten : Prop :=
  ∀ (i : Instr) (s t : State), exec i s = .next t → ∀ r : Reg, r ∉ i.destinations → t.readX r = s.readX r

/-- A command writes only the spaces and, one by one, the writable control registers that the tables list for it
(spec/20_memory.md R60, spec/10_state.md R30). -/
def Obligations.OnlyListedSpacesAreWritten : Prop :=
  ∀ (i : Instr) (s t : State), exec i s = .next t →
    (.w ∉ i.writes → t.w = s.w) ∧ (.b ∉ i.writes → t.b = s.b) ∧ (.p ∉ i.writes → t.p = s.p) ∧
    (.n ∉ i.writes → t.name = s.name) ∧ (.e ∉ i.writes → t.e = s.e) ∧
    (.wlen ∉ i.writesControl → t.wlen = s.wlen) ∧ (.namelen ∉ i.writesControl → t.namelen = s.namelen) ∧
    (.psec ∉ i.writesControl → t.psec = s.psec)

/-- Only a result command writes a member of the result group (spec/10_state.md R30). -/
def Obligations.OnlyResultCommandsWriteResults : Prop :=
  ∀ (i : Instr) (s t : State), i ∉ [Instr.validate, .parse, .decode, .encode, .safeenc] → exec i s = .next t →
    t.valid = s.valid ∧ t.err = s.err ∧ t.elenact = s.elenact ∧ t.ehdrmask = s.ehdrmask ∧ t.epaycnt = s.epaycnt ∧
    t.eln = s.eln ∧ t.e = s.e ∧ t.emiss = s.emiss ∧ t.erngidx = s.erngidx ∧ t.erngval = s.erngval

/-- A result command that completes advances `CIX` and reports success exactly by `ERR = 0`; none but `ENCODE` can
raise (spec/60_exceptions.md R247, R250). -/
def Obligations.ResultCommandsReport : Prop :=
  ∀ (i : Instr) (s t : State), i ∈ [Instr.validate, .parse, .decode, .encode, .safeenc] → s.faulted = false →
    exec i s = .next t →
    (t.faulted = false → t.cix = s.cix + 1 ∧ (t.valid = true ↔ t.err = 0)) ∧ (i ≠ .encode → t.faulted = false)

/-- No step writes the parameters (spec/10_state.md R29). -/
def Obligations.ParametersAreNeverWritten : Prop :=
  ∀ s t : State, step s = .next t → t.cfg = s.cfg

/-- A general register reads what was last written to it; `x0` reads 0 and a write to it is discarded
(spec/10_state.md R20). -/
def Obligations.RegistersReadBack : Prop :=
  ∀ (s : State) (r : Reg) (v : Word),
    s.readX .x0 = 0 ∧ s.setX .x0 v = s ∧
    (∀ q : Reg, (s.setX r v).readX q = if q = r ∧ r ≠ .x0 then v else s.readX q)

/-! ### The host -/

/-- `hostReset` gives every piece of state that has a reset value that value and touches no parameter, under a fault or
not; so is the state after power-on (spec/10_state.md R50, spec/70_reset_and_hazards.md R270). -/
def Obligations.ResetLeavesTheSpecifiedValues : Prop :=
  (∀ (s : State) (rest : List HostTxn), s.host = .reset :: rest →
    ∃ t, step s = .next t ∧ t.cfg = s.cfg ∧ t.host = rest ∧ t.readX .x0 = 0 ∧
      (∀ c : Csr, t.readCsr c = 0) ∧ (∀ a, t.e.read a = 0)) ∧
  State.reset.readX .x0 = 0 ∧ (∀ c : Csr, State.reset.readCsr c = 0) ∧ ∀ a, State.reset.e.read a = 0

/-- `hostRead` returns the element at an index inside the space, has no side effect, and is offered under a fault too
(spec/60_exceptions.md R258). -/
def Obligations.HostReadReturnsTheElement : Prop :=
  ∀ (s : State) (a : Nat),
    (∀ (sp : Space) (v : Word) (rest : List HostTxn), s.host = .read sp a :: rest → hostRead s sp a = some v →
      step s = .next { s with host := rest }) ∧
    (a < s.cfg.wcap → hostRead s .w a = some ((s.w.read a).setWidth 16)) ∧
    (a < 448 → hostRead s .b a = some ((s.b.read a).setWidth 16)) ∧
    (a < s.cfg.nleaf → hostRead s .p a = some (s.p.read a)) ∧
    (a < 16 → hostRead s .n a = some ((s.name.read a).setWidth 16)) ∧
    (a < 2 * s.cfg.paycap → hostRead s .e a = some (s.e.read a)) ∧
    (∀ c : Csr, hostRead s .csr c.number.toNat = some (s.readCsr c))

/-- `hostWrite` of a legal value replaces one element and nothing else (spec/60_exceptions.md R258). -/
def Obligations.HostWriteReplacesOneElement : Prop :=
  ∀ (s : State) (a : Nat) (v : Word) (rest : List HostTxn), s.faulted = false →
    (s.host = .write .w a v :: rest → a < s.cfg.wcap → v.toNat ≤ 255 →
      ∃ m : Memory, step s = .next { s with host := rest, w := m } ∧ (m.read a).toNat = v.toNat ∧
        ∀ c, c ≠ a → m.read c = s.w.read c) ∧
    (s.host = .write .b a v :: rest → a < 448 → v.toNat ≤ 255 →
      ∃ m : Memory, step s = .next { s with host := rest, b := m } ∧ (m.read a).toNat = v.toNat ∧
        ∀ c, c ≠ a → m.read c = s.b.read c) ∧
    (s.host = .write .p a v :: rest → a < s.cfg.nleaf →
      ∃ m : Sparse 16, step s = .next { s with host := rest, p := m } ∧ m.read a = v ∧
        ∀ c, c ≠ a → m.read c = s.p.read c) ∧
    (s.host = .write .n a v :: rest → a < 16 → v.toNat ≤ 255 →
      ∃ m : Memory, step s = .next { s with host := rest, name := m } ∧ (m.read a).toNat = v.toNat ∧
        ∀ c, c ≠ a → m.read c = s.name.read c) ∧
    (s.host = .write .csr 4 v :: rest → v.toNat ≤ s.cfg.wcap → step s = .next { s with host := rest, wlen := v }) ∧
    (s.host = .write .csr 5 v :: rest → v.toNat ≤ 16 → step s = .next { s with host := rest, namelen := v }) ∧
    (s.host = .write .csr 6 v :: rest → v.toNat ≤ 0x03FF → step s = .next { s with host := rest, psec := v })

/-- What the table of host transactions does not list is refused: any write under a fault, a write into `E`, a byte
above 255, a write to a read-only control register, an index outside its space (spec/60_exceptions.md R258). The
refusal is the model's choice (log 8): the spec gives such an action no meaning. -/
def Obligations.HostActionsOutsideTheTableAreRefused : Prop :=
  ∀ (s : State) (sp : Space) (a : Nat) (v : Word) (rest : List HostTxn),
    (s.host = .write sp a v :: rest →
      s.faulted = true ∨ spaceSize s.cfg sp ≤ a ∨ sp = .e ∨ (sp ∈ [Space.w, .b, .n] ∧ 255 < v.toNat) ∨
        (sp = .csr ∧ a ∉ [4, 5, 6]) ∨ (sp = .csr ∧ a = 4 ∧ s.cfg.wcap < v.toNat) ∨
        (sp = .csr ∧ a = 5 ∧ 16 < v.toNat) ∨ (sp = .csr ∧ a = 6 ∧ 0x03FF < v.toNat) →
      step s = .refused .notATransaction) ∧
    (s.host = .read sp a :: rest → spaceSize s.cfg sp ≤ a → step s = .refused .notATransaction)

/-! ### Invariants -/

/-- Every step keeps each index space in its canonical form and inside its indices (spec/20_memory.md R60, R62). The
canonical form is the model's (log 17). -/
def Obligations.StepKeepsSpacesContained : Prop :=
  ∀ s t : State, s.cfg.admitted → s.Contained → step s = .next t → t.Contained

/-- Every step keeps the writable control registers legal and the unused bits 0 (spec/10_state.md R23, R26, R27, R30). -/
def Obligations.StepKeepsControlLegal : Prop :=
  ∀ s t : State, s.cfg.admitted → s.LegalControl → step s = .next t → t.LegalControl

/-- Every step keeps the fault registers 0 without a fault and naming the first fault under one
(spec/10_state.md R32 to R34). -/
def Obligations.StepKeepsTheFaultRecord : Prop :=
  ∀ s t : State, s.FaultRecord → step s = .next t → t.FaultRecord

/-- Every step keeps the members of the result group in agreement (spec/10_state.md R28, R38 to R45). -/
def Obligations.StepKeepsTheResultGroup : Prop :=
  ∀ s t : State, s.cfg.admitted → s.ResultGroup → step s = .next t → t.ResultGroup

/-- The state after reset meets the four invariants, for every instance with the default and with any admitted
parameters. What the spec leaves unspecified at reset is 0 by the model's choice (logs 2, 3, 4). -/
def Obligations.ResetMeetsTheInvariants : Prop :=
  ∀ c : Config, (State.resetWith c).Contained ∧ (State.resetWith c).LegalControl ∧
    (State.resetWith c).FaultRecord ∧ (State.resetWith c).ResultGroup ∧ State.reset = State.resetWith defaultConfig

/-! ### Data movement and system commands -/

/-- `NOP` changes `CIX` alone; `LI` writes its immediate, not sign-extended (spec/45_move_system.md R220, R221). -/
def Obligations.NopAndLiComplete : Prop :=
  ∀ s : State, s.faulted = false →
    Sys2Proof.decode 0x00000000 = .ok .nop ∧ exec .nop s = .next { s with cix := s.cix + 1 } ∧
    ∀ (rd : Reg) (imm : Word),
      Sys2Proof.decode (wordOf 0x01 rd.number 0 0 imm) = .ok (.li rd imm) ∧
      exec (.li rd imm) s = .next (s.wroteX rd imm)

/-- The five loads: the element at the effective index, which wraps modulo 65536, zero-extended into `x[rd]`, or
`AddressError` (spec/20_memory.md R61, spec/45_move_system.md R222, R224, R226, R228, R230). -/
def Obligations.LoadsReadOneElement : Prop :=
  ∀ (s : State) (rd rb : Reg) (imm : Word), s.faulted = false →
    Sys2Proof.decode (wordOf 0x08 rd.number rb.number 0 imm) = .ok (.ldw rd rb imm) ∧
    Sys2Proof.decode (wordOf 0x0A rd.number rb.number 0 imm) = .ok (.ldb rd rb imm) ∧
    Sys2Proof.decode (wordOf 0x0C rd.number rb.number 0 imm) = .ok (.ldp rd rb imm) ∧
    Sys2Proof.decode (wordOf 0x0E rd.number rb.number 0 imm) = .ok (.ldn rd rb imm) ∧
    Sys2Proof.decode (wordOf 0x07 rd.number rb.number 0 imm) = .ok (.lde rd rb imm) ∧
    s.ea rb imm = ((s.readX rb).toNat + imm.toNat) % 65536 ∧
    (s.ea rb imm < s.cfg.wcap →
      exec (.ldw rd rb imm) s = .next (s.wroteX rd ((s.w.read (s.ea rb imm)).setWidth 16))) ∧
    (s.cfg.wcap ≤ s.ea rb imm → exec (.ldw rd rb imm) s = .next (s.afterFault 4 (s.ea rb imm))) ∧
    (s.ea rb imm < 448 →
      exec (.ldb rd rb imm) s = .next (s.wroteX rd ((s.b.read (s.ea rb imm)).setWidth 16))) ∧
    (448 ≤ s.ea rb imm → exec (.ldb rd rb imm) s = .next (s.afterFault 4 (s.ea rb imm))) ∧
    (s.ea rb imm < s.cfg.nleaf → exec (.ldp rd rb imm) s = .next (s.wroteX rd (s.p.read (s.ea rb imm)))) ∧
    (s.cfg.nleaf ≤ s.ea rb imm → exec (.ldp rd rb imm) s = .next (s.afterFault 4 (s.ea rb imm))) ∧
    (s.ea rb imm < 16 →
      exec (.ldn rd rb imm) s = .next (s.wroteX rd ((s.name.read (s.ea rb imm)).setWidth 16))) ∧
    (16 ≤ s.ea rb imm → exec (.ldn rd rb imm) s = .next (s.afterFault 4 (s.ea rb imm))) ∧
    (s.ea rb imm < 2 * s.cfg.paycap → exec (.lde rd rb imm) s = .next (s.wroteX rd (s.e.read (s.ea rb imm)))) ∧
    (2 * s.cfg.paycap ≤ s.ea rb imm → exec (.lde rd rb imm) s = .next (s.afterFault 4 (s.ea rb imm)))

/-- The stores: one element replaced, or `AddressError`, or, for a byte store at an index inside the space, `RangeError`
for a register above 255; `STP` stores any value (spec/45_move_system.md R223, R225, R227, R229). -/
def Obligations.StoresReplaceOneElement : Prop :=
  ∀ (s : State) (rs rb : Reg) (imm : Word), s.faulted = false →
    Sys2Proof.decode (wordOf 0x09 rs.number rb.number 0 imm) = .ok (.stw rs rb imm) ∧
    Sys2Proof.decode (wordOf 0x0B rs.number rb.number 0 imm) = .ok (.stb rs rb imm) ∧
    Sys2Proof.decode (wordOf 0x0D rs.number rb.number 0 imm) = .ok (.stp rs rb imm) ∧
    Sys2Proof.decode (wordOf 0x0F rs.number rb.number 0 imm) = .ok (.stn rs rb imm) ∧
    s.ea rb imm = ((s.readX rb).toNat + imm.toNat) % 65536 ∧
    (s.ea rb imm < s.cfg.wcap → (s.readX rs).toNat ≤ 255 →
      ∃ m : Memory, exec (.stw rs rb imm) s = .next { s with w := m, cix := s.cix + 1 } ∧
        (m.read (s.ea rb imm)).toNat = (s.readX rs).toNat ∧ ∀ c, c ≠ s.ea rb imm → m.read c = s.w.read c) ∧
    (s.cfg.wcap ≤ s.ea rb imm → exec (.stw rs rb imm) s = .next (s.afterFault 4 (s.ea rb imm))) ∧
    (s.ea rb imm < s.cfg.wcap → 255 < (s.readX rs).toNat →
      exec (.stw rs rb imm) s = .next (s.afterFault 1 0x3000)) ∧
    (s.ea rb imm < 448 → (s.readX rs).toNat ≤ 255 →
      ∃ m : Memory, exec (.stb rs rb imm) s = .next { s with b := m, cix := s.cix + 1 } ∧
        (m.read (s.ea rb imm)).toNat = (s.readX rs).toNat ∧ ∀ c, c ≠ s.ea rb imm → m.read c = s.b.read c) ∧
    (448 ≤ s.ea rb imm → exec (.stb rs rb imm) s = .next (s.afterFault 4 (s.ea rb imm))) ∧
    (s.ea rb imm < 448 → 255 < (s.readX rs).toNat → exec (.stb rs rb imm) s = .next (s.afterFault 1 0x3000)) ∧
    (s.ea rb imm < 16 → (s.readX rs).toNat ≤ 255 →
      ∃ m : Memory, exec (.stn rs rb imm) s = .next { s with name := m, cix := s.cix + 1 } ∧
        (m.read (s.ea rb imm)).toNat = (s.readX rs).toNat ∧ ∀ c, c ≠ s.ea rb imm → m.read c = s.name.read c) ∧
    (16 ≤ s.ea rb imm → exec (.stn rs rb imm) s = .next (s.afterFault 4 (s.ea rb imm))) ∧
    (s.ea rb imm < 16 → 255 < (s.readX rs).toNat → exec (.stn rs rb imm) s = .next (s.afterFault 1 0x3000)) ∧
    (s.ea rb imm < s.cfg.nleaf →
      ∃ m : Sparse 16, exec (.stp rs rb imm) s = .next { s with p := m, cix := s.cix + 1 } ∧
        m.read (s.ea rb imm) = s.readX rs ∧ ∀ c, c ≠ s.ea rb imm → m.read c = s.p.read c) ∧
    (s.cfg.nleaf ≤ s.ea rb imm → exec (.stp rs rb imm) s = .next (s.afterFault 4 (s.ea rb imm)))

/-- `CSRR` reads the control register of its number, as it was before the command (spec/10_state.md R30,
spec/45_move_system.md R231). -/
def Obligations.CsrrReadsTheRegister : Prop :=
  ∀ (s : State) (rd : Reg) (csr : Csr), s.faulted = false →
    Sys2Proof.decode (wordOf 0x02 rd.number 0 0 (csr.number.setWidth 16)) = .ok (.csrr rd csr) ∧
    exec (.csrr rd csr) s = .next (s.wroteX rd
      ([s.st, s.fcause, s.finfo, s.fcix, s.wlen, s.namelen, s.psec, s.err, s.elenact, s.ehdrmask, s.epaycnt, s.eln,
        s.emiss, s.erngidx, s.erngval, s.cix].getD csr.number.toNat 0))

/-- `CSRW` replaces `WLEN`, `NAMELEN` or `PSEC` by a legal value, refuses a value out of range, and is illegal for any
other number (spec/45_move_system.md R232). -/
def Obligations.CsrwWritesThreeRegisters : Prop :=
  ∀ (s : State) (rs : Reg), s.faulted = false →
    (∀ csr : Csr, Sys2Proof.decode (wordOf 0x03 rs.number 0 0 (csr.number.setWidth 16)) = .ok (.csrw csr rs)) ∧
    ((s.readX rs).toNat ≤ s.cfg.wcap →
      exec (.csrw .wlen rs) s = .next { s with wlen := s.readX rs, cix := s.cix + 1 }) ∧
    (s.cfg.wcap < (s.readX rs).toNat → exec (.csrw .wlen rs) s = .next (s.afterFault 1 0x4000)) ∧
    ((s.readX rs).toNat ≤ 16 →
      exec (.csrw .namelen rs) s = .next { s with namelen := s.readX rs, cix := s.cix + 1 }) ∧
    (16 < (s.readX rs).toNat → exec (.csrw .namelen rs) s = .next (s.afterFault 1 0x4000)) ∧
    ((s.readX rs).toNat ≤ 0x03FF →
      exec (.csrw .psec rs) s = .next { s with psec := s.readX rs, cix := s.cix + 1 }) ∧
    (0x03FF < (s.readX rs).toNat → exec (.csrw .psec rs) s = .next (s.afterFault 1 0x4000)) ∧
    ∀ csr : Csr, csr.number.toNat ∉ [4, 5, 6] →
      exec (.csrw csr rs) s = .next (s.afterFault 5 (0x0C00 + 128 * rs.number.toNat))

/-! ### BitField Codec -/

/-- `RDBITS` (spec/40_bitfield.md R100, R102). -/
def Obligations.RdbitsExtractsTheField : Prop :=
  ∀ (s : State) (rd rs1 : Reg) (start : BitVec 3) (width : BitVec 4), s.faulted = false →
    Sys2Proof.decode (wordOf 0x10 rd.number rs1.number 0
      (BitVec.ofNat 16 (16 * width.toNat + start.toNat))) = .ok (.rdbits rd rs1 start width) ∧
    (1 ≤ width.toNat → width.toNat ≤ 8 → start.toNat + width.toNat ≤ 8 → (s.readX rs1).toNat ≤ 255 →
      exec (.rdbits rd rs1 start width) s = .next (s.wroteX rd
        (BitVec.ofNat 16 ((s.readX rs1).toNat / 2 ^ start.toNat % 2 ^ width.toNat)))) ∧
    (1 ≤ width.toNat → width.toNat ≤ 8 → start.toNat + width.toNat ≤ 8 → 255 < (s.readX rs1).toNat →
      exec (.rdbits rd rs1 start width) s = .next (s.afterFault 1 0x3000)) ∧
    (¬(1 ≤ width.toNat ∧ width.toNat ≤ 8 ∧ start.toNat + width.toNat ≤ 8) →
      exec (.rdbits rd rs1 start width) s = .next (s.afterFault 1 0x1000))

/-- `WRBITS`: the bits of the range are the value's, every other bit is the byte's (spec/40_bitfield.md R101, R103). -/
def Obligations.WrbitsReplacesTheField : Prop :=
  ∀ (s : State) (rd rs1 rs2 : Reg) (start : BitVec 3) (width : BitVec 4), s.faulted = false →
    Sys2Proof.decode (wordOf 0x11 rd.number rs1.number rs2.number
      (BitVec.ofNat 16 (16 * width.toNat + start.toNat))) = .ok (.wrbits rd rs1 rs2 start width) ∧
    (1 ≤ width.toNat → width.toNat ≤ 8 → start.toNat + width.toNat ≤ 8 → (s.readX rs1).toNat ≤ 255 →
      (s.readX rs2).toNat ≤ 2 ^ width.toNat - 1 →
      ∃ v : Word, exec (.wrbits rd rs1 rs2 start width) s = .next (s.wroteX rd v) ∧ v.toNat ≤ 255 ∧
        ∀ i, i < 8 → v.getLsbD i =
          if start.toNat ≤ i ∧ i < start.toNat + width.toNat then (s.readX rs2).getLsbD (i - start.toNat)
          else (s.readX rs1).getLsbD i) ∧
    (1 ≤ width.toNat → width.toNat ≤ 8 → start.toNat + width.toNat ≤ 8 → (s.readX rs1).toNat ≤ 255 →
      2 ^ width.toNat ≤ (s.readX rs2).toNat →
      exec (.wrbits rd rs1 rs2 start width) s = .next (s.afterFault 1 0x4000)) ∧
    (1 ≤ width.toNat → width.toNat ≤ 8 → start.toNat + width.toNat ≤ 8 → 255 < (s.readX rs1).toNat →
      exec (.wrbits rd rs1 rs2 start width) s = .next (s.afterFault 1 0x3000)) ∧
    (¬(1 ≤ width.toNat ∧ width.toNat ≤ 8 ∧ start.toNat + width.toNat ≤ 8) →
      exec (.wrbits rd rs1 rs2 start width) s = .next (s.afterFault 1 0x1000))

/-- `RD10` (spec/40_bitfield.md R104, R106). -/
def Obligations.Rd10CombinesTheTwoBytes : Prop :=
  ∀ (s : State) (rd rs1 rs2 : Reg) (off : BitVec 3), s.faulted = false →
    Sys2Proof.decode (wordOf 0x12 rd.number rs1.number rs2.number (off.setWidth 16)) =
      .ok (.rd10 rd rs1 rs2 off) ∧
    (off.toNat % 2 = 0 → (s.readX rs1).toNat ≤ 255 → (s.readX rs2).toNat ≤ 255 →
      exec (.rd10 rd rs1 rs2 off) s = .next (s.wroteX rd
        (BitVec.ofNat 16 (4 * (s.readX rs1).toNat + (s.readX rs2).toNat / 2 ^ off.toNat % 4)))) ∧
    (off.toNat % 2 = 0 → 255 < (s.readX rs1).toNat ∨ 255 < (s.readX rs2).toNat →
      exec (.rd10 rd rs1 rs2 off) s = .next (s.afterFault 1 0x3000)) ∧
    (off.toNat % 2 = 1 → exec (.rd10 rd rs1 rs2 off) s = .next (s.afterFault 1 0x2000))

/-- `WR10`: high byte, low bits in place and the mask of the bits to keep, into three registers; the word with `ra` 6 or
7 is no command (spec/40_bitfield.md R105, R107, spec/30_encoding.md R85). -/
def Obligations.Wr10WritesThreeRegisters : Prop :=
  (∀ (ra rb : BitVec 3) (off : BitVec 3), 6 ≤ ra.toNat →
    Sys2Proof.decode (wordOf 0x13 ra rb 0 (off.setWidth 16)) = .error .wr10Destination) ∧
  ∀ (s : State) (rd rd1 rd2 rs1 : Reg) (off : BitVec 3), s.faulted = false →
    rd1.number.toNat = rd.number.toNat + 1 → rd2.number.toNat = rd.number.toNat + 2 →
    Sys2Proof.decode (wordOf 0x13 rd.number rs1.number 0 (off.setWidth 16)) = .ok (.wr10 rd rs1 off) ∧
    (off.toNat % 2 = 0 → (s.readX rs1).toNat ≤ 1023 →
      exec (.wr10 rd rs1 off) s = .next
        { s with
          x := ((s.x.write rd (BitVec.ofNat 16 ((s.readX rs1).toNat / 4))).write rd1
            (BitVec.ofNat 16 ((s.readX rs1).toNat % 4 * 2 ^ off.toNat))).write rd2
            (BitVec.ofNat 16 (255 - 3 * 2 ^ off.toNat))
          cix := s.cix + 1 }) ∧
    (off.toNat % 2 = 0 → 1023 < (s.readX rs1).toNat → exec (.wr10 rd rs1 off) s = .next (s.afterFault 1 0x4000)) ∧
    (off.toNat % 2 = 1 → exec (.wr10 rd rs1 off) s = .next (s.afterFault 1 0x2000))

/-- `MRG10`: two bits of the shared byte become the value's low bits, the other six stay (spec/40_bitfield.md R105,
R108). -/
def Obligations.Mrg10MergesTheLowBits : Prop :=
  ∀ (s : State) (rd rs1 rs2 : Reg) (off : BitVec 3), s.faulted = false →
    Sys2Proof.decode (wordOf 0x14 rd.number rs1.number rs2.number (off.setWidth 16)) =
      .ok (.mrg10 rd rs1 rs2 off) ∧
    (off.toNat % 2 = 0 → (s.readX rs1).toNat ≤ 255 → (s.readX rs2).toNat ≤ 1023 →
      ∃ v : Word, exec (.mrg10 rd rs1 rs2 off) s = .next (s.wroteX rd v) ∧ v.toNat ≤ 255 ∧
        ∀ i, i < 8 → v.getLsbD i =
          if off.toNat ≤ i ∧ i < off.toNat + 2 then (s.readX rs2).getLsbD (i - off.toNat)
          else (s.readX rs1).getLsbD i) ∧
    (off.toNat % 2 = 0 → (s.readX rs1).toNat ≤ 255 → 1023 < (s.readX rs2).toNat →
      exec (.mrg10 rd rs1 rs2 off) s = .next (s.afterFault 1 0x4000)) ∧
    (off.toNat % 2 = 0 → 255 < (s.readX rs1).toNat →
      exec (.mrg10 rd rs1 rs2 off) s = .next (s.afterFault 1 0x3000)) ∧
    (off.toNat % 2 = 1 → exec (.mrg10 rd rs1 rs2 off) s = .next (s.afterFault 1 0x2000))

/-- `BIPDEC` and `BIPENC`: 512 subtracted from a raw value, or added to a logical one, or `RangeError`
(spec/40_bitfield.md R109 to R111). -/
def Obligations.BipolarCodingShiftsBy512 : Prop :=
  ∀ (s : State) (rd rs1 : Reg), s.faulted = false →
    Sys2Proof.decode (wordOf 0x15 rd.number rs1.number 0 0) = .ok (.bipdec rd rs1) ∧
    ((s.readX rs1).toNat ≤ 1023 → exec (.bipdec rd rs1) s = .next (s.wroteX rd
      (BitVec.ofNat 16 (((s.readX rs1).toNat + 65024) % 65536)))) ∧
    (1023 < (s.readX rs1).toNat → exec (.bipdec rd rs1) s = .next (s.afterFault 1 0x4000)) ∧
    Sys2Proof.decode (wordOf 0x16 rd.number rs1.number 0 0) = .ok (.bipenc rd rs1) ∧
    ((s.readX rs1).toNat ≤ 0x01FF ∨ 0xFE00 ≤ (s.readX rs1).toNat →
      exec (.bipenc rd rs1) s = .next (s.wroteX rd (BitVec.ofNat 16 (((s.readX rs1).toNat + 512) % 65536)))) ∧
    (0x01FF < (s.readX rs1).toNat → (s.readX rs1).toNat < 0xFE00 →
      exec (.bipenc rd rs1) s = .next (s.afterFault 1 0x4000))

/-- The round-trip laws of the codec (spec/40_bitfield.md R112), and merges at two offsets in either order (R108). -/
def Obligations.BitFieldLaws : Prop :=
  (∀ (v : Word) (off : Nat), v.toNat ≤ 1023 → validOffset off →
    read10 (highByte v) (lowBitsAtOffset v off) off = v) ∧
  (∀ (b v : Byte) (start width : Nat), validGeometry start width → v.toNat ≤ 2 ^ width - 1 →
    readBits (writeBits b v start width) start width = v ∧
    ∀ start' width', validGeometry start' width' → start + width ≤ start' ∨ start' + width' ≤ start →
      readBits (writeBits b v start width) start' width' = readBits b start' width') ∧
  (∀ (b : Byte) (u v : Word) (off off' : Nat), validOffset off → validOffset off' →
    (off ≠ off' → mergeLow (mergeLow b u off) v off' = mergeLow (mergeLow b v off') u off) ∧
    mergeLow (mergeLow b u off) v off = mergeLow b v off)

/-! ### SevenBit Codec -/

/-- `UNPKG`: seven bytes of `B` from one group of `W` (spec/41_sevenbit.md R121, R122, R129). -/
def Obligations.UnpkgUnpacksOneGroup : Prop :=
  ∀ (s : State) (ri bi : Reg), s.faulted = false →
    Sys2Proof.decode (wordOf 0x18 ri.number bi.number 0 0) = .ok (.unpkg ri bi) ∧
    ((s.readX ri).toNat + 8 ≤ s.cfg.wcap → (s.readX bi).toNat + 7 ≤ 448 →
      ∃ m : Memory, exec (.unpkg ri bi) s = .next { s with b := m, cix := s.cix + 1 } ∧
        (∀ j, j < 7 → (m.read ((s.readX bi).toNat + j)).toNat =
          carriedByte s.cfg.carrierOrder s.w (s.readX ri).toNat j) ∧
        ∀ c, c < (s.readX bi).toNat ∨ (s.readX bi).toNat + 7 ≤ c → m.read c = s.b.read c) ∧
    (s.cfg.wcap < (s.readX ri).toNat + 8 → exec (.unpkg ri bi) s = .next (s.afterFault 4 (s.readX ri).toNat)) ∧
    ((s.readX ri).toNat + 8 ≤ s.cfg.wcap → 448 < (s.readX bi).toNat + 7 →
      exec (.unpkg ri bi) s = .next (s.afterFault 4 (s.readX bi).toNat))

/-- `PKG`: one group of `W` from seven bytes of `B`, every byte of it below 128 (spec/41_sevenbit.md R121, R123,
R130). -/
def Obligations.PkgPacksOneGroup : Prop :=
  ∀ (s : State) (ri bi : Reg), s.faulted = false →
    Sys2Proof.decode (wordOf 0x19 ri.number bi.number 0 0) = .ok (.pkg ri bi) ∧
    ((s.readX ri).toNat + 8 ≤ s.cfg.wcap → (s.readX bi).toNat + 7 ≤ 448 →
      ∃ m : Memory, exec (.pkg ri bi) s = .next { s with w := m, cix := s.cix + 1 } ∧
        (∀ i, i < 7 → (m.read (s.readX ri).toNat).getLsbD (carrierPosition s.cfg.carrierOrder i) =
          (s.b.read ((s.readX bi).toNat + i)).getLsbD 7) ∧
        (∀ i, i < 7 → (m.read ((s.readX ri).toNat + 1 + i)).toNat =
          (s.b.read ((s.readX bi).toNat + i)).toNat % 128) ∧
        (m.read (s.readX ri).toNat).toNat ≤ 127 ∧
        ∀ c, c < (s.readX ri).toNat ∨ (s.readX ri).toNat + 8 ≤ c → m.read c = s.w.read c) ∧
    (448 < (s.readX bi).toNat + 7 → exec (.pkg ri bi) s = .next (s.afterFault 4 (s.readX bi).toNat)) ∧
    ((s.readX bi).toNat + 7 ≤ 448 → s.cfg.wcap < (s.readX ri).toNat + 8 →
      exec (.pkg ri bi) s = .next (s.afterFault 4 (s.readX ri).toNat))

/-- `UNPKALL` (spec/41_sevenbit.md R125 to R127). -/
def Obligations.UnpkallUnpacksTheGroups : Prop :=
  ∀ (s : State) (ri bi rn : Reg), s.faulted = false →
    Sys2Proof.decode (wordOf 0x1A ri.number bi.number rn.number 0) = .ok (.unpkall ri bi rn) ∧
    ((s.readX rn).toNat % 8 = 0 → (s.readX ri).toNat + (s.readX rn).toNat ≤ s.cfg.wcap →
      (s.readX bi).toNat + 7 * ((s.readX rn).toNat / 8) ≤ 448 →
      ∃ m : Memory, exec (.unpkall ri bi rn) s = .next { s with b := m, cix := s.cix + 1 } ∧
        (∀ j, j < 7 * ((s.readX rn).toNat / 8) → (m.read ((s.readX bi).toNat + j)).toNat =
          carriedByte s.cfg.carrierOrder s.w (s.readX ri).toNat j) ∧
        ∀ c, c < (s.readX bi).toNat ∨ (s.readX bi).toNat + 7 * ((s.readX rn).toNat / 8) ≤ c →
          m.read c = s.b.read c) ∧
    ((s.readX rn).toNat % 8 ≠ 0 → exec (.unpkall ri bi rn) s = .next (s.afterFault 2 (s.readX rn).toNat)) ∧
    ((s.readX rn).toNat % 8 = 0 → s.cfg.wcap < (s.readX ri).toNat + (s.readX rn).toNat →
      exec (.unpkall ri bi rn) s = .next (s.afterFault 4 (s.readX ri).toNat)) ∧
    ((s.readX rn).toNat % 8 = 0 → (s.readX ri).toNat + (s.readX rn).toNat ≤ s.cfg.wcap →
      448 < (s.readX bi).toNat + 7 * ((s.readX rn).toNat / 8) →
      exec (.unpkall ri bi rn) s = .next (s.afterFault 4 (s.readX bi).toNat))

/-- `PKALL`: the written wire bytes carry the body bytes and are all below 128 (spec/41_sevenbit.md R125, R126,
R128). -/
def Obligations.PkallPacksTheGroups : Prop :=
  ∀ (s : State) (ri bi rn : Reg), s.faulted = false →
    Sys2Proof.decode (wordOf 0x1B ri.number bi.number rn.number 0) = .ok (.pkall ri bi rn) ∧
    ((s.readX rn).toNat % 7 = 0 → (s.readX bi).toNat + (s.readX rn).toNat ≤ 448 →
      (s.readX ri).toNat + 8 * ((s.readX rn).toNat / 7) ≤ s.cfg.wcap →
      ∃ m : Memory, exec (.pkall ri bi rn) s = .next { s with w := m, cix := s.cix + 1 } ∧
        (∀ j, j < (s.readX rn).toNat → carriedByte s.cfg.carrierOrder m (s.readX ri).toNat j =
          (s.b.read ((s.readX bi).toNat + j)).toNat) ∧
        (∀ j, j < 8 * ((s.readX rn).toNat / 7) → (m.read ((s.readX ri).toNat + j)).toNat ≤ 127) ∧
        ∀ c, c < (s.readX ri).toNat ∨ (s.readX ri).toNat + 8 * ((s.readX rn).toNat / 7) ≤ c →
          m.read c = s.w.read c) ∧
    ((s.readX rn).toNat % 7 ≠ 0 → exec (.pkall ri bi rn) s = .next (s.afterFault 2 (s.readX rn).toNat)) ∧
    ((s.readX rn).toNat % 7 = 0 → 448 < (s.readX bi).toNat + (s.readX rn).toNat →
      exec (.pkall ri bi rn) s = .next (s.afterFault 4 (s.readX bi).toNat)) ∧
    ((s.readX rn).toNat % 7 = 0 → (s.readX bi).toNat + (s.readX rn).toNat ≤ 448 →
      s.cfg.wcap < (s.readX ri).toNat + 8 * ((s.readX rn).toNat / 7) →
      exec (.pkall ri bi rn) s = .next (s.afterFault 4 (s.readX ri).toNat))

/-- Packing and unpacking undo each other, for every length that is a multiple of the group and either carrier order
(spec/41_sevenbit.md R124, R131). -/
def Obligations.RepackingRoundTrips : Prop :=
  ∀ o : CarrierOrder,
    (∀ b : List Byte, b.length % 7 = 0 → unpackAll o (packAll o b) = b) ∧
    ∀ w : List Byte, w.length % 8 = 0 → packAll o (unpackAll o w) = w.map (· &&& 0x7F)

/-! ### Frame -/

/-- `VALIDATE` reports success exactly for a well-formed message (spec/42_frame.md R145). -/
def Obligations.ValidExactlyForWellFormedMessages : Prop :=
  ∀ s t : State, s.faulted = false → exec .validate s = .next t → (t.valid = true ↔ s.wellFormedMessage)

/-- `VALIDATE` completes and writes the result group and nothing else, every member as the checks of the message give
it (spec/42_frame.md R143 to R146). -/
def Obligations.ValidateReportsEveryError : Prop :=
  ∀ s : State, s.faulted = false →
    Sys2Proof.decode 0x80000000 = .ok .validate ∧
    ∃ t, exec .validate s = .next t ∧
      t = { s with
        st := t.st, err := t.err, elenact := t.elenact, ehdrmask := t.ehdrmask, epaycnt := t.epaycnt, eln := t.eln
        e := t.e, emiss := 0, erngidx := 0, erngval := 0, cix := s.cix + 1 } ∧
      t.st = (s.st &&& 0xFFFE) ||| (if t.err = 0 then 1 else 0) ∧
      t.err.getLsbD 0 = decide (s.wlen.toNat ≠ 520) ∧
      t.elenact = (if s.wlen.toNat = 520 then 0 else s.wlen) ∧
      t.err.getLsbD 1 = decide (t.ehdrmask ≠ 0) ∧
      (∀ i, t.ehdrmask.getLsbD i =
        (decide (i < 7) && (decide (s.wlen.toNat ≤ i) || decide (s.w.read i ≠ headerBytes.getD i 0)))) ∧
      t.err.getLsbD 2 = (decide (s.wlen.toNat ≤ 519) || decide (s.w.read 519 ≠ 0xF7)) ∧
      t.err.getLsbD 3 = decide (t.epaycnt ≠ 0) ∧ t.err.toNat ≤ 15 ∧
      t.epaycnt.toNat = s.unsafePayload.length ∧
      t.eln.toNat = min s.unsafePayload.length s.cfg.paycap ∧
      (∀ j a, j < t.eln.toNat → s.unsafePayload[j]? = some a →
        (t.e.read (2 * j)).toNat = a ∧ t.e.read (2 * j + 1) = (s.w.read a).setWidth 16) ∧
      ∀ a, 2 * t.eln.toNat ≤ a → t.e.read a = 0

/-- The frame commands read no byte beyond the message: two wire buffers that agree on `W[0..min(WLEN,520)-1]` give the
same result and, where there is one, the same body (spec/42_frame.md R144). -/
def Obligations.FrameCommandsReadOnlyTheMessage : Prop :=
  ∀ (s t : State) (m : Memory), (∀ a, a < min s.wlen.toNat 520 → m.read a = s.w.read a) →
    (exec .validate s = .next t → exec .validate { s with w := m } = .next { t with w := m }) ∧
    (exec .parse s = .next t → exec .parse { s with w := m } = .next { t with w := m }) ∧
    (exec .decode s = .next t → exec .decode { s with w := m } = .next { t with w := m })

/-- `PARSE`: the structural result, or the marker error, or the body in `B` (spec/42_frame.md R147 to R149). -/
def Obligations.ParseExtractsTheBody : Prop :=
  ∀ s : State, s.faulted = false →
    Sys2Proof.decode 0x84000000 = .ok .parse ∧
    (¬s.wellFormedMessage → exec .parse s = exec .validate s) ∧
    (s.wellFormedMessage → ¬s.markerPresent →
      exec .parse s = .next { s.reportedFailure 0x10 0 0 0 with cix := s.cix + 1 }) ∧
    (s.wellFormedMessage → s.markerPresent →
      ∃ m : Memory, exec .parse s = .next { s.reportedSuccess with b := m, cix := s.cix + 1 } ∧
        m.below 448 = true ∧ ∀ j, j < 448 → (m.read j).toNat = carriedByte s.cfg.carrierOrder s.w 7 j)

/-! ### Fields -/

/-- Leaves are numbered outer index first, then inner index, with the byte offsets shifted by the strides;
`NLEAF` counts them (spec/43_layout.md R165). -/
def Obligations.ExpansionNumbersTheLeaves : Prop :=
  ∀ c : Config,
    c.nleaf = (c.layout.map fun e => e.n1 * e.n2).sum ∧
    ∀ (before : List Entry) (e : Entry) (after : List Entry) (i j : Nat),
      c.layout = before ++ e :: after → i < e.n1 → j < e.n2 →
      c.leaves[(before.map fun e => e.n1 * e.n2).sum + i * e.n2 + j]? =
        some { e with
          off := e.off + i * e.s1 + j * e.s2
          loff := if e.kind = .s10 then e.loff + i * e.s1 + j * e.s2 else e.loff
          n1 := 1
          n2 := 1 }

/-- The value and the declared range of a leaf of an admitted layout, by kind (spec/43_layout.md R161 to R164, R167,
R169). -/
def Obligations.FieldValueAndRangeByKind : Prop :=
  ∀ (c : Config) (l : Entry) (t : Memory) (v : Word), wfLayout c.layout → l ∈ c.leaves →
    (l.kind = .byte → (readField l t).toNat = (t.read l.off).toNat) ∧
    (l.kind = .bits → (readField l t).toNat = (t.read l.off).toNat / 2 ^ l.start % 2 ^ l.width) ∧
    (l.kind = .s10 → l.bip = false →
      (readField l t).toNat = 4 * (t.read l.off).toNat + (t.read l.loff).toNat / 2 ^ l.start % 4) ∧
    (l.kind = .s10 → l.bip = true →
      (readField l t).toInt = (4 * (t.read l.off).toNat + (t.read l.loff).toNat / 2 ^ l.start % 4 : Int) - 512) ∧
    (l.kind = .barr → ∀ i, (readField l t).getLsbD i =
      (decide (i < l.width) && (t.read (l.off + i / 8)).getLsbD (i % 8))) ∧
    (l.kind = .byte → (inRange l v = true ↔ v.toNat ≤ 255)) ∧
    (l.kind = .bits → (inRange l v = true ↔ v.toNat ≤ 2 ^ l.width - 1)) ∧
    (l.kind = .s10 → l.bip = false → (inRange l v = true ↔ v.toNat ≤ 1023)) ∧
    (l.kind = .s10 → l.bip = true → (inRange l v = true ↔ v.toNat ≤ 0x01FF ∨ 0xFE00 ≤ v.toNat)) ∧
    (l.kind = .barr → (inRange l v = true ↔ v.toNat ≤ 2 ^ l.width - 1))

/-- A field is a function of its footprint alone and in its declared range; writing it changes only the bits of its
footprint (spec/43_layout.md R166 to R169). -/
def Obligations.FieldsTouchOnlyTheirFootprint : Prop :=
  ∀ (c : Config) (l : Entry) (t t' : Memory), wfLayout c.layout → l ∈ c.leaves →
    inRange l (readField l t) = true ∧
    ((∀ q ∈ footprint l, bitAt t q = bitAt t' q) → readField l t = readField l t') ∧
    ∀ v : Word, inRange l v = true → ∀ q : Nat × Nat, q ∉ footprint l → bitAt (writeField l t v) q = bitAt t q

/-- A written leaf reads back and every other leaf reads as before (spec/43_layout.md R174). -/
def Obligations.FieldRoundTrip : Prop :=
  ∀ (c : Config) (k : Nat) (l : Entry) (t : Memory) (v : Word), wfLayout c.layout → c.leaves[k]? = some l →
    inRange l v = true →
    readField l (writeField l t v) = v ∧
    ∀ (k' : Nat) (l' : Entry), k' ≠ k → c.leaves[k']? = some l' →
      readField l' (writeField l t v) = readField l' t

/-- `FLDRD` and `FLDWR` (spec/43_layout.md R178, R179). -/
def Obligations.FieldCommandsAccessOneLeaf : Prop :=
  ∀ (s : State) (r rb : Reg) (imm : Word), s.faulted = false → s.cfg.admitted →
    Sys2Proof.decode (wordOf 0x28 r.number rb.number 0 imm) = .ok (.fldrd r rb imm) ∧
    Sys2Proof.decode (wordOf 0x29 r.number rb.number 0 imm) = .ok (.fldwr r rb imm) ∧
    (∀ l, s.cfg.leaves[s.ea rb imm]? = some l →
      exec (.fldrd r rb imm) s = .next (s.wroteX r (readField l s.b)) ∧
      (inRange l (s.readX r) = true →
        ∃ m : Memory, exec (.fldwr r rb imm) s = .next { s with b := m, cix := s.cix + 1 } ∧
          readField l m = s.readX r ∧ ∀ q : Nat × Nat, q ∉ footprint l → bitAt m q = bitAt s.b q) ∧
      (inRange l (s.readX r) = false →
        exec (.fldwr r rb imm) s = .next (s.afterFault 1 (0x5000 + s.ea rb imm)))) ∧
    (s.cfg.nleaf ≤ s.ea rb imm →
      exec (.fldrd r rb imm) s = .next (s.afterFault 4 (s.ea rb imm)) ∧
      exec (.fldwr r rb imm) s = .next (s.afterFault 4 (s.ea rb imm)))

/-- The default layout is admitted and has the counts the spec computed (spec/43_layout.md R180). -/
def Obligations.DefaultParametersAreAdmitted : Prop :=
  defaultConfig.admitted ∧ defaultLayout.length = 44 ∧ defaultConfig.nleaf = 371 ∧
    (defaultConfig.leaves.flatMap footprint).length = 2774

/-! ### Marshaller -/

/-- `DECODE` of a good message: the body, every leaf of it, the trimmed name, every section present
(spec/44_marshal.md R201 to R203). -/
def Obligations.DecodeDeliversTheParameters : Prop :=
  ∀ s : State, s.faulted = false → s.wellFormedMessage → s.markerPresent →
    ∃ (b : Memory) (p : Sparse 16) (n : Memory) (len : Nat),
      exec .decode s = .next
        { s.reportedSuccess with
          b := b, p := p, name := n, namelen := BitVec.ofNat 16 len, psec := 0x03FF, cix := s.cix + 1 } ∧
      b.below 448 = true ∧ (∀ j, j < 448 → (b.read j).toNat = carriedByte s.cfg.carrierOrder s.w 7 j) ∧
      p.below s.cfg.nleaf = true ∧ (∀ k l, s.cfg.leaves[k]? = some l → p.read k = readField l b) ∧
      len ≤ 12 ∧ (len = 0 ∨ b.read (4 + (len - 1)) ≠ 0) ∧ (∀ a, len ≤ a → a < 12 → b.read (4 + a) = 0) ∧
      n.below 16 = true ∧ ∀ a, a < 16 → n.read a = if a < len then b.read (4 + a) else 0

/-- `DECODE` of a message `PARSE` refuses: the result of `PARSE` and the zero-valued parameter set
(spec/44_marshal.md R203). -/
def Obligations.DecodeFailureLeavesZeroParameters : Prop :=
  ∀ s : State, s.faulted = false → ¬(s.wellFormedMessage ∧ s.markerPresent) →
    ∃ t, exec .parse s = .next t ∧ t.b = s.b ∧
      exec .decode s = .next { t with p := [], name := [], namelen := 0, psec := 0x03FF }

/-- `DECODE` of `MARKER` and 444 zero bytes (spec/44_marshal.md R209, point 3). -/
def Obligations.DecodeOfZeroBody : Prop :=
  ∀ s : State, s.faulted = false → s.cfg.admitted → s.wellFormedMessage → s.markerPresent →
    (∀ j, 4 ≤ j → j < 448 → carriedByte s.cfg.carrierOrder s.w 7 j = 0) →
    ∃ t, exec .decode s = .next t ∧ t.valid = true ∧ t.namelen = 0 ∧
      ∀ k l, s.cfg.leaves[k]? = some l → t.p.read k = if l.bip = true then 0xFE00 else 0

/-- `ENCODE` that succeeds writes the frame around the packed body, and nothing else but the result group and `WLEN`
(spec/44_marshal.md R206); `VALIDATE` then succeeds (R209, point 5). -/
def Obligations.EncodeWritesTheMessage : Prop :=
  ∀ s : State, s.faulted = false → s.missing = 0 → s.parametersInRange →
    ∃ (b w : Memory) (u : State),
      exec .encode s = .next { s.reportedSuccess with b := b, w := w, wlen := 520, cix := s.cix + 1 } ∧
      (∀ i, i < 7 → w.read i = headerBytes.getD i 0) ∧ w.read 519 = 0xF7 ∧
      (∀ a, 7 ≤ a → a ≤ 518 → (w.read a).toNat ≤ 127) ∧
      (∀ j, j < 448 → carriedByte s.cfg.carrierOrder w 7 j = (b.read j).toNat) ∧
      (∀ a, 520 ≤ a → w.read a = s.w.read a) ∧
      exec .validate { s.reportedSuccess with b := b, w := w, wlen := 520, cix := s.cix + 1 } = .next u ∧
      u.valid = true ∧ u.err = 0

/-- `ENCODE` raises for the missing sections before anything else, then for the first leaf out of range
(spec/44_marshal.md R204, R206). -/
def Obligations.EncodeRaises : Prop :=
  ∀ s : State, s.faulted = false → s.cfg.admitted →
    (s.missing ≠ 0 → exec .encode s = .next (s.afterFault 3 s.missing.toNat)) ∧
    ∀ k, s.missing = 0 → s.firstOutOfRange k → exec .encode s = .next (s.afterFault 1 (0x5000 + k))

/-- The body a successful `ENCODE` builds: the marker, the name cut to twelve bytes and padded with zeros, every leaf of
a present section, and zeros everywhere else (spec/44_marshal.md R205, R207, spec/43_layout.md R175). -/
def Obligations.EncodedBodyHoldsTheParameters : Prop :=
  ∀ s t : State, s.faulted = false → s.cfg.admitted → exec .encode s = .next t → t.faulted = false →
    (∀ i, i < 4 → t.b.read i = s.cfg.marker.toList.getD i 0) ∧
    (∀ a, a < 12 → t.b.read (4 + a) =
      if s.psec.getLsbD 0 = true ∧ a < s.namelen.toNat then s.name.read a else 0) ∧
    (∀ k l, s.cfg.leaves[k]? = some l → s.psec.getLsbD l.sect = true → readField l t.b = s.p.read k) ∧
    ∀ q : Nat × Nat, 16 ≤ q.1 → (∀ l ∈ s.cfg.leaves, s.psec.getLsbD l.sect = true → q ∉ footprint l) →
      bitAt t.b q = false

/-- `SAFEENC` reports what `ENCODE` raises, and does what `ENCODE` does otherwise (spec/44_marshal.md R208). -/
def Obligations.SafeencReports : Prop :=
  ∀ s : State, s.faulted = false → s.cfg.admitted →
    Sys2Proof.decode 0xC8000000 = .ok .safeenc ∧
    (s.missing ≠ 0 →
      exec .safeenc s = .next { s.reportedFailure 0x20 s.missing 0 0 with cix := s.cix + 1 }) ∧
    (∀ k, s.missing = 0 → s.firstOutOfRange k →
      exec .safeenc s = .next
        { s.reportedFailure 0x40 0 (BitVec.ofNat 16 k) (s.p.read k) with cix := s.cix + 1 }) ∧
    (s.missing = 0 → s.parametersInRange →
      ∃ t, exec .encode s = .next t ∧ t.faulted = false ∧ exec .safeenc s = .next t)

/-- The encoders never read the registers of absent sections nor, of the name, anything but `min(NAMELEN, 12)` and that
many bytes, and those only while section 0 is present (spec/44_marshal.md R205, R207). -/
def Obligations.EncodersIgnoreAbsentParameters : Prop :=
  ∀ (s t : State) (p : Sparse 16) (n : Memory) (len : Word),
    (∀ k l, s.cfg.leaves[k]? = some l → s.psec.getLsbD l.sect = true → p.read k = s.p.read k) →
    (s.psec.getLsbD 0 = true → min len.toNat 12 = min s.namelen.toNat 12 ∧
      ∀ a, a < min s.namelen.toNat 12 → n.read a = s.name.read a) →
    (exec .encode s = .next t →
      exec .encode { s with p := p, name := n, namelen := len } = .next { t with p := p, name := n, namelen := len }) ∧
    (exec .safeenc s = .next t →
      exec .safeenc { s with p := p, name := n, namelen := len } = .next { t with p := p, name := n, namelen := len })

/-- `ENCODE` then `DECODE` gives the parameters and the name back (spec/44_marshal.md R209, point 1). -/
def Obligations.EncodeThenDecode : Prop :=
  ∀ s : State, s.faulted = false → s.cfg.admitted → s.Contained → s.psec = 0x03FF →
    (∀ k l, s.cfg.leaves[k]? = some l → inRange l (s.p.read k) = true) →
    s.namelen.toNat ≤ 12 → (s.namelen = 0 ∨ s.name.read (s.namelen.toNat - 1) ≠ 0) →
    ∃ t u, exec .encode s = .next t ∧ exec .decode t = .next u ∧ u.st.toNat % 4 = 1 ∧ u.p = s.p ∧
      u.namelen = s.namelen ∧ ∀ a, a < s.namelen.toNat → u.name.read a = s.name.read a

end Statements
end

