-- ==== Sys2Proof/Laws/Codec.lean ====
section
/-! SUPPORT. The pure functions of the BitField and the SevenBit Codec bit by bit and byte by byte
(spec/40_bitfield.md R100 to R109, spec/41_sevenbit.md R121 to R126). -/

namespace Sys2Proof.Machine

/-! ### Bit fields -/

theorem getLsbD_widthMask (width i : Nat) :
    (widthMask width).getLsbD i = (decide (i < 8) && decide (i < width)) := by
  simp [widthMask, BitVec.getLsbD_ofNat, Nat.testBit_two_pow_sub_one]

/-- The bits of `readBits` (R100). -/
theorem getLsbD_readBits (b : Byte) (start width i : Nat) :
    (readBits b start width).getLsbD i = (b.getLsbD (start + i) && decide (i < width)) := by
  simp only [readBits, BitVec.getLsbD_and, BitVec.getLsbD_ushiftRight, getLsbD_widthMask]
  by_cases h : i < 8
  · simp [h]
  · rw [BitVec.getLsbD_of_ge b (start + i) (by omega)]; simp

theorem toNat_lt_of_getLsbD {n w : Nat} {v : BitVec n} (h : v.toNat < 2 ^ w) {i : Nat} (hi : w ≤ i) :
    v.getLsbD i = false := by
  rw [BitVec.getLsbD]
  exact Nat.testBit_lt_two_pow (lt_of_lt_of_le h (Nat.pow_le_pow_right (by omega) hi))

/-- The bits of `writeBits` for a value that fits (R101). -/
theorem getLsbD_writeBits {b v : Byte} {start width : Nat} (hg : start + width ≤ 8) (hv : v.toNat < 2 ^ width)
    (i : Nat) :
    (writeBits b v start width).getLsbD i =
      if start ≤ i ∧ i < start + width then v.getLsbD (i - start) else b.getLsbD i := by
  simp only [writeBits, BitVec.getLsbD_or, BitVec.getLsbD_and, BitVec.getLsbD_not, BitVec.getLsbD_shiftLeft,
    getLsbD_widthMask]
  by_cases h8 : i < 8
  · by_cases h1 : i < start
    · have h2 : ¬(start ≤ i ∧ i < start + width) := by omega
      simp [h8, h1, h2]
    · by_cases h3 : i < start + width
      · have h4 : i - start < 8 := by omega
        have h5 : i - start < width := by omega
        have h6 : start ≤ i ∧ i < start + width := by omega
        simp [h8, h1, h4, h5, h6]
      · have h5 : ¬i - start < width := by omega
        have h6 : ¬(start ≤ i ∧ i < start + width) := by omega
        simp [h8, h1, h5, h6, toNat_lt_of_getLsbD hv (show width ≤ i - start by omega)]
  · rw [BitVec.getLsbD_of_ge b i (by omega)]
    simp [h8]
    intro _ _
    omega

/-- Reading back what was written (R112, property 3). -/
theorem readBits_writeBits {b v : Byte} {start width : Nat} (hg : start + width ≤ 8) (hv : v.toNat < 2 ^ width) :
    readBits (writeBits b v start width) start width = v := by
  refine BitVec.eq_of_getLsbD_eq fun i hi => ?_
  rw [getLsbD_readBits, getLsbD_writeBits hg hv]
  by_cases h : i < width
  · simp [h]
  · simp [h, toNat_lt_of_getLsbD hv (show width ≤ i by omega)]

/-- The bits of `read10` (R104). -/
theorem getLsbD_read10 (high low : Byte) (off i : Nat) :
    (read10 high low off).getLsbD i = if i < 2 then low.getLsbD (off + i) else high.getLsbD (i - 2) := by
  have h3 : (3 : Byte).getLsbD i = decide (i < 2) := by
    by_cases h : i < 8
    · revert h; revert i; decide
    · rw [BitVec.getLsbD_of_ge _ _ (by omega)]; simp; omega
  simp only [read10, BitVec.getLsbD_or, BitVec.getLsbD_shiftLeft, BitVec.getLsbD_setWidth, BitVec.getLsbD_and,
    BitVec.getLsbD_ushiftRight, h3]
  by_cases h : i < 2
  · have : i < 16 := by omega
    simp [h, this]
  · by_cases h16 : i < 16
    · have : i - 2 < 16 := by omega
      simp [h, h16, this]
    · rw [BitVec.getLsbD_of_ge high (i - 2) (by omega)]; simp [h]

/-- The bits of the high byte of `write10` (R105). -/
theorem getLsbD_highByte (v : Word) (i : Nat) :
    (highByte v).getLsbD i = (decide (i < 8) && v.getLsbD (2 + i)) := by
  simp [highByte, BitVec.getLsbD_setWidth]

/-- The bits of a shared byte after a merge (R105, R108). -/
theorem getLsbD_mergeLow (b : Byte) (v : Word) {off : Nat} (ho : off + 2 ≤ 8) (i : Nat) :
    (mergeLow b v off).getLsbD i =
      if off ≤ i ∧ i < off + 2 then v.getLsbD (i - off) else b.getLsbD i := by
  have h3 : ∀ j, (3 : Byte).getLsbD j = decide (j < 2) := by
    intro j
    by_cases h : j < 8
    · revert h; revert j; decide
    · rw [BitVec.getLsbD_of_ge _ _ (by omega)]; simp; omega
  simp only [mergeLow, clearMask, lowBitsAtOffset, BitVec.getLsbD_or, BitVec.getLsbD_and, BitVec.getLsbD_not,
    BitVec.getLsbD_shiftLeft, BitVec.getLsbD_setWidth, h3]
  by_cases h8 : i < 8
  · by_cases h1 : i < off
    · have h2 : ¬(off ≤ i ∧ i < off + 2) := by omega
      simp [h8, h1, h2]
    · by_cases h4 : i - off < 2
      · have h5 : i - off < 8 := by omega
        have h6 : off ≤ i ∧ i < off + 2 := by omega
        simp [h8, h1, h4, h5, h6]
      · have h6 : ¬(off ≤ i ∧ i < off + 2) := by omega
        simp [h8, h1, h4, h6]
  · have h6 : ¬(off ≤ i ∧ i < off + 2) := by omega
    rw [BitVec.getLsbD_of_ge b i (by omega)]
    simp [h8, h6]

/-- `read10` of the parts of `write10`, the low bits merged into any byte (R112, property 2). -/
theorem read10_write10 {v : Word} (hv : v.toNat ≤ 1023) (b : Byte) {off : Nat} (ho : off + 2 ≤ 8) :
    read10 (highByte v) (mergeLow b v off) off = v := by
  refine BitVec.eq_of_getLsbD_eq fun i hi => ?_
  rw [getLsbD_read10, getLsbD_highByte, getLsbD_mergeLow b v ho]
  split
  · rw [if_pos (by omega)]; congr 1; omega
  · by_cases h : i - 2 < 8
    · rw [decide_eq_true h, Bool.true_and]; congr 1; omega
    · rw [decide_eq_false h, Bool.false_and]
      exact (toNat_lt_of_getLsbD (w := 10) (by omega) (by omega)).symm

/-! ### The seven-bit groups -/

@[simp] theorem length_unpackGroup (o : CarrierOrder) (g : List Byte) : (unpackGroup o g).length = 7 := by
  simp [unpackGroup]

@[simp] theorem length_packGroup (o : CarrierOrder) (d : List Byte) : (packGroup o d).length = 8 := by
  simp [packGroup]

theorem carrierBit_lt (o : CarrierOrder) {i : Nat} (h : i < 7) : carrierBit o i < 7 := by
  cases o <;> simp [carrierBit] <;> omega

theorem carrierBit_injOn (o : CarrierOrder) {i j : Nat} (hi : i < 7) (hj : j < 7)
    (h : carrierBit o i = carrierBit o j) : i = j := by
  cases o <;> simp [carrierBit] at h <;> omega

/-- Byte `i` of an unpacked group (R122). -/
theorem getD_unpackGroup (o : CarrierOrder) (g : List Byte) {i : Nat} (h : i < 7) :
    (unpackGroup o g).getD i 0 =
      (((g.getD 0 0 >>> carrierBit o i) &&& 1) <<< 7) ||| (g.getD (1 + i) 0 &&& 0x7F) := by
  simp [unpackGroup, List.getD_eq_getElem?_getD, h]

theorem getD_packGroup_zero (o : CarrierOrder) (d : List Byte) : (packGroup o d).getD 0 0 = carrierByte o d := rfl

/-- Data byte `i` of a packed group (R123). -/
theorem getD_packGroup_succ (o : CarrierOrder) (d : List Byte) {i : Nat} (h : i < 7) :
    (packGroup o d).getD (1 + i) 0 = d.getD i 0 &&& 0x7F := by
  simp [packGroup, List.getD_eq_getElem?_getD, h, Nat.add_comm 1 i]

theorem getLsbD_one (i : Nat) : (1 : Byte).getLsbD i = decide (i = 0) := by
  by_cases h : i < 8
  · revert h; revert i; decide
  · rw [BitVec.getLsbD_of_ge _ _ (by omega)]; simp; omega

theorem getLsbD_low7 (i : Nat) : (0x7F : Byte).getLsbD i = decide (i < 7) := by
  by_cases h : i < 8
  · revert h; revert i; decide
  · rw [BitVec.getLsbD_of_ge _ _ (by omega)]; simp; omega

/-- The bits of byte `i` of an unpacked group (R122). -/
theorem getLsbD_unpackGroup (o : CarrierOrder) (g : List Byte) {i : Nat} (h : i < 7) (j : Nat) :
    ((unpackGroup o g).getD i 0).getLsbD j =
      if j = 7 then (g.getD 0 0).getLsbD (carrierBit o i)
      else decide (j < 7) && (g.getD (1 + i) 0).getLsbD j := by
  rw [getD_unpackGroup o g h]
  simp only [BitVec.getLsbD_or, BitVec.getLsbD_shiftLeft, BitVec.getLsbD_and, BitVec.getLsbD_ushiftRight,
    getLsbD_one, getLsbD_low7]
  by_cases h7 : j = 7
  · subst h7; simp
  · by_cases hl : j < 7
    · have : j < 8 := by omega
      simp [h7, hl, this]
    · have : ¬j < 8 := by omega
      simp [h7, hl, this]

theorem getLsbD_foldl_or {n : Nat} (f : Nat → BitVec n) (l : List Nat) (a : BitVec n) (i : Nat) :
    (l.foldl (fun m k => m ||| f k) a).getLsbD i = (a.getLsbD i || l.any fun k => (f k).getLsbD i) := by
  induction l generalizing a with
  | nil => simp
  | cons k l ih => simp [ih, Bool.or_assoc]

/-- The carrier byte holds bit 7 of decoded byte `i` at carrier bit `cb(i)` (R123). -/
theorem getLsbD_carrierByte (o : CarrierOrder) (d : List Byte) {i : Nat} (h : i < 7) :
    (carrierByte o d).getLsbD (carrierBit o i) = (d.getD i 0).getLsbD 7 := by
  rw [carrierByte, getLsbD_foldl_or]
  have hb := carrierBit_lt o h
  rw [Bool.eq_iff_iff]
  simp only [BitVec.getLsbD_shiftLeft, BitVec.getLsbD_and, BitVec.getLsbD_ushiftRight, getLsbD_one,
    List.any_eq_true, List.mem_range, Bool.or_eq_true, Bool.and_eq_true, decide_eq_true_eq, Bool.not_eq_true',
    decide_eq_false_iff_not]
  constructor
  · rintro (h0 | ⟨k, hk, ⟨h8, hlt⟩, hbit, h0⟩)
    · simp at h0
    · have : k = i := carrierBit_injOn o hk h (by omega)
      subst this
      simpa [h0] using hbit
  · intro hbit
    exact Or.inr ⟨i, h, ⟨by omega, by omega⟩, by simpa using hbit, by omega⟩

/-- Every bit of the carrier byte above bit 6 is 0 (R120, R123). -/
theorem getLsbD_carrierByte_high (o : CarrierOrder) (d : List Byte) {j : Nat} (h : 7 ≤ j) :
    (carrierByte o d).getLsbD j = false := by
  rw [carrierByte, getLsbD_foldl_or, Bool.eq_false_iff]
  simp only [ne_eq, Bool.or_eq_true, List.any_eq_true, List.mem_range, not_or, not_exists, not_and]
  refine ⟨by simp, fun k hk => ?_⟩
  have hb := carrierBit_lt o hk
  rw [BitVec.getLsbD_shiftLeft, BitVec.getLsbD_and, getLsbD_one,
    decide_eq_false (show ¬j - carrierBit o k = 0 by omega)]
  simp

/-! ### The whole conversion -/

@[simp] theorem length_unpackGroups (o : CarrierOrder) (k : Nat) (w : List Byte) :
    (unpackGroups o k w).length = 7 * k := by
  induction k generalizing w with
  | zero => rfl
  | succ k ih => simp [unpackGroups, ih]; omega

@[simp] theorem length_packGroups (o : CarrierOrder) (k : Nat) (b : List Byte) :
    (packGroups o k b).length = 8 * k := by
  induction k generalizing b with
  | zero => rfl
  | succ k ih => simp [packGroups, ih]; omega

@[simp] theorem length_unpackAll (o : CarrierOrder) (w : List Byte) :
    (unpackAll o w).length = 7 * (w.length / 8) := length_unpackGroups o _ w

@[simp] theorem length_packAll (o : CarrierOrder) (b : List Byte) :
    (packAll o b).length = 8 * (b.length / 7) := length_packGroups o _ b

theorem unpackGroup_congr (o : CarrierOrder) {g g' : List Byte} (h : ∀ i < 8, g.getD i 0 = g'.getD i 0) :
    unpackGroup o g = unpackGroup o g' := by
  unfold unpackGroup
  refine List.map_congr_left fun i hi => ?_
  rw [List.mem_range] at hi
  rw [h 0 (by omega), h (1 + i) (by omega)]

/-- Byte `7q + i` of an unpacked sequence is byte `i` of its group `q` (R125, R126). -/
theorem getD_unpackGroups (o : CarrierOrder) {k : Nat} (w : List Byte) {q i : Nat} (hq : q < k) (hi : i < 7) :
    (unpackGroups o k w).getD (7 * q + i) 0 = (unpackGroup o ((w.drop (8 * q)).take 8)).getD i 0 := by
  induction q generalizing k w with
  | zero =>
    obtain ⟨k, rfl⟩ : ∃ m, k = m + 1 := ⟨k - 1, by omega⟩
    simp [unpackGroups, List.getD_eq_getElem?_getD, List.getElem?_append, hi]
  | succ q ih =>
    obtain ⟨k, rfl⟩ : ∃ m, k = m + 1 := ⟨k - 1, by omega⟩
    have h := ih (w := w.drop 8) (k := k) (by omega)
    rw [List.drop_drop] at h
    rw [show 8 * (q + 1) = 8 + 8 * q by omega, ← h]
    simp only [unpackGroups, List.getD_eq_getElem?_getD]
    rw [List.getElem?_append_right (by simp; omega), length_unpackGroup]
    congr 2
    omega

/-- Byte `8q + i` of a packed sequence is byte `i` of its group `q` (R125, R126). -/
theorem getD_packGroups (o : CarrierOrder) {k : Nat} (b : List Byte) {q i : Nat} (hq : q < k) (hi : i < 8) :
    (packGroups o k b).getD (8 * q + i) 0 = (packGroup o ((b.drop (7 * q)).take 7)).getD i 0 := by
  induction q generalizing k b with
  | zero =>
    obtain ⟨k, rfl⟩ : ∃ m, k = m + 1 := ⟨k - 1, by omega⟩
    simp [packGroups, List.getD_eq_getElem?_getD, List.getElem?_append, hi]
  | succ q ih =>
    obtain ⟨k, rfl⟩ : ∃ m, k = m + 1 := ⟨k - 1, by omega⟩
    have h := ih (b := b.drop 7) (k := k) (by omega)
    rw [List.drop_drop] at h
    rw [show 7 * (q + 1) = 7 + 7 * q by omega, ← h]
    simp only [packGroups, List.getD_eq_getElem?_getD]
    rw [List.getElem?_append_right (by simp; omega), length_packGroup]
    congr 2
    omega

theorem getD_take_drop {n : Nat} (l : List Byte) (a : Nat) {i : Nat} (h : i < n) :
    ((l.drop a).take n).getD i 0 = l.getD (a + i) 0 := by
  simp [List.getD_eq_getElem?_getD, h]

/-- The bits of byte `j` of an unpacked sequence (R126). -/
theorem getLsbD_unpackAll (o : CarrierOrder) (w : List Byte) {j : Nat} (hj : j < 7 * (w.length / 8)) (i : Nat) :
    ((unpackAll o w).getD j 0).getLsbD i =
      if i = 7 then (w.getD (8 * (j / 7)) 0).getLsbD (carrierBit o (j % 7))
      else decide (i < 7) && (w.getD (8 * (j / 7) + 1 + j % 7) 0).getLsbD i := by
  have hq : j / 7 < w.length / 8 := by omega
  have hi : j % 7 < 7 := by omega
  conv_lhs => rw [show j = 7 * (j / 7) + j % 7 by omega]
  rw [unpackAll, getD_unpackGroups o w hq hi, getLsbD_unpackGroup o _ hi, getD_take_drop w _ (by omega),
    getD_take_drop w _ (by omega), Nat.add_zero, Nat.add_assoc]

/-- The carrier byte of group `q` of a packed sequence (R126). -/
theorem getLsbD_packAll_carrier (o : CarrierOrder) (b : List Byte) {j : Nat} (hj : j < 7 * (b.length / 7)) :
    ((packAll o b).getD (8 * (j / 7)) 0).getLsbD (carrierBit o (j % 7)) = (b.getD j 0).getLsbD 7 := by
  have hq : j / 7 < b.length / 7 := by omega
  have hi : j % 7 < 7 := by omega
  have h := getD_packGroups o b hq (i := 0) (by omega)
  rw [Nat.add_zero] at h
  rw [packAll, h, getD_packGroup_zero, getLsbD_carrierByte o _ hi, getD_take_drop b _ hi]
  congr 2
  omega

/-- The data byte of byte `j` in a packed sequence (R126). -/
theorem getD_packAll_data (o : CarrierOrder) (b : List Byte) {j : Nat} (hj : j < 7 * (b.length / 7)) :
    (packAll o b).getD (8 * (j / 7) + 1 + j % 7) 0 = b.getD j 0 &&& 0x7F := by
  have hq : j / 7 < b.length / 7 := by omega
  have hi : j % 7 < 7 := by omega
  rw [packAll, Nat.add_assoc, getD_packGroups o b hq (by omega), getD_packGroup_succ o _ hi,
    getD_take_drop b _ hi]
  congr 2
  omega

end Sys2Proof.Machine
end

