-- ==== Sys2Proof/Laws/State.lean ====
section
/-! SUPPORT. One lemma per field of the state and named update, so that no proof unfolds a record update. -/

namespace Sys2Proof.Machine

variable (s : State)

@[simp] theorem setX_cfg (r : Reg) (v : Word) : (s.setX r v).cfg = s.cfg := rfl
@[simp] theorem setX_x (r : Reg) (v : Word) : (s.setX r v).x = s.x.write r v := rfl
@[simp] theorem setX_w (r : Reg) (v : Word) : (s.setX r v).w = s.w := rfl
@[simp] theorem setX_b (r : Reg) (v : Word) : (s.setX r v).b = s.b := rfl
@[simp] theorem setX_p (r : Reg) (v : Word) : (s.setX r v).p = s.p := rfl
@[simp] theorem setX_name (r : Reg) (v : Word) : (s.setX r v).name = s.name := rfl
@[simp] theorem setX_e (r : Reg) (v : Word) : (s.setX r v).e = s.e := rfl
@[simp] theorem setX_st (r : Reg) (v : Word) : (s.setX r v).st = s.st := rfl
@[simp] theorem setX_fcause (r : Reg) (v : Word) : (s.setX r v).fcause = s.fcause := rfl
@[simp] theorem setX_finfo (r : Reg) (v : Word) : (s.setX r v).finfo = s.finfo := rfl
@[simp] theorem setX_fcix (r : Reg) (v : Word) : (s.setX r v).fcix = s.fcix := rfl
@[simp] theorem setX_wlen (r : Reg) (v : Word) : (s.setX r v).wlen = s.wlen := rfl
@[simp] theorem setX_namelen (r : Reg) (v : Word) : (s.setX r v).namelen = s.namelen := rfl
@[simp] theorem setX_psec (r : Reg) (v : Word) : (s.setX r v).psec = s.psec := rfl
@[simp] theorem setX_err (r : Reg) (v : Word) : (s.setX r v).err = s.err := rfl
@[simp] theorem setX_elenact (r : Reg) (v : Word) : (s.setX r v).elenact = s.elenact := rfl
@[simp] theorem setX_ehdrmask (r : Reg) (v : Word) : (s.setX r v).ehdrmask = s.ehdrmask := rfl
@[simp] theorem setX_epaycnt (r : Reg) (v : Word) : (s.setX r v).epaycnt = s.epaycnt := rfl
@[simp] theorem setX_eln (r : Reg) (v : Word) : (s.setX r v).eln = s.eln := rfl
@[simp] theorem setX_emiss (r : Reg) (v : Word) : (s.setX r v).emiss = s.emiss := rfl
@[simp] theorem setX_erngidx (r : Reg) (v : Word) : (s.setX r v).erngidx = s.erngidx := rfl
@[simp] theorem setX_erngval (r : Reg) (v : Word) : (s.setX r v).erngval = s.erngval := rfl
@[simp] theorem setX_cix (r : Reg) (v : Word) : (s.setX r v).cix = s.cix := rfl
@[simp] theorem setX_host (r : Reg) (v : Word) : (s.setX r v).host = s.host := rfl
@[simp] theorem setX_resets (r : Reg) (v : Word) : (s.setX r v).resets = s.resets := rfl

@[simp] theorem setW_cfg (m : Memory) : (s.setW m).cfg = s.cfg := rfl
@[simp] theorem setW_x (m : Memory) : (s.setW m).x = s.x := rfl
@[simp] theorem setW_w (m : Memory) : (s.setW m).w = m := rfl
@[simp] theorem setW_b (m : Memory) : (s.setW m).b = s.b := rfl
@[simp] theorem setW_p (m : Memory) : (s.setW m).p = s.p := rfl
@[simp] theorem setW_name (m : Memory) : (s.setW m).name = s.name := rfl
@[simp] theorem setW_e (m : Memory) : (s.setW m).e = s.e := rfl
@[simp] theorem setW_st (m : Memory) : (s.setW m).st = s.st := rfl
@[simp] theorem setW_fcause (m : Memory) : (s.setW m).fcause = s.fcause := rfl
@[simp] theorem setW_finfo (m : Memory) : (s.setW m).finfo = s.finfo := rfl
@[simp] theorem setW_fcix (m : Memory) : (s.setW m).fcix = s.fcix := rfl
@[simp] theorem setW_wlen (m : Memory) : (s.setW m).wlen = s.wlen := rfl
@[simp] theorem setW_namelen (m : Memory) : (s.setW m).namelen = s.namelen := rfl
@[simp] theorem setW_psec (m : Memory) : (s.setW m).psec = s.psec := rfl
@[simp] theorem setW_err (m : Memory) : (s.setW m).err = s.err := rfl
@[simp] theorem setW_elenact (m : Memory) : (s.setW m).elenact = s.elenact := rfl
@[simp] theorem setW_ehdrmask (m : Memory) : (s.setW m).ehdrmask = s.ehdrmask := rfl
@[simp] theorem setW_epaycnt (m : Memory) : (s.setW m).epaycnt = s.epaycnt := rfl
@[simp] theorem setW_eln (m : Memory) : (s.setW m).eln = s.eln := rfl
@[simp] theorem setW_emiss (m : Memory) : (s.setW m).emiss = s.emiss := rfl
@[simp] theorem setW_erngidx (m : Memory) : (s.setW m).erngidx = s.erngidx := rfl
@[simp] theorem setW_erngval (m : Memory) : (s.setW m).erngval = s.erngval := rfl
@[simp] theorem setW_cix (m : Memory) : (s.setW m).cix = s.cix := rfl
@[simp] theorem setW_host (m : Memory) : (s.setW m).host = s.host := rfl
@[simp] theorem setW_resets (m : Memory) : (s.setW m).resets = s.resets := rfl

@[simp] theorem setB_cfg (m : Memory) : (s.setB m).cfg = s.cfg := rfl
@[simp] theorem setB_x (m : Memory) : (s.setB m).x = s.x := rfl
@[simp] theorem setB_w (m : Memory) : (s.setB m).w = s.w := rfl
@[simp] theorem setB_b (m : Memory) : (s.setB m).b = m := rfl
@[simp] theorem setB_p (m : Memory) : (s.setB m).p = s.p := rfl
@[simp] theorem setB_name (m : Memory) : (s.setB m).name = s.name := rfl
@[simp] theorem setB_e (m : Memory) : (s.setB m).e = s.e := rfl
@[simp] theorem setB_st (m : Memory) : (s.setB m).st = s.st := rfl
@[simp] theorem setB_fcause (m : Memory) : (s.setB m).fcause = s.fcause := rfl
@[simp] theorem setB_finfo (m : Memory) : (s.setB m).finfo = s.finfo := rfl
@[simp] theorem setB_fcix (m : Memory) : (s.setB m).fcix = s.fcix := rfl
@[simp] theorem setB_wlen (m : Memory) : (s.setB m).wlen = s.wlen := rfl
@[simp] theorem setB_namelen (m : Memory) : (s.setB m).namelen = s.namelen := rfl
@[simp] theorem setB_psec (m : Memory) : (s.setB m).psec = s.psec := rfl
@[simp] theorem setB_err (m : Memory) : (s.setB m).err = s.err := rfl
@[simp] theorem setB_elenact (m : Memory) : (s.setB m).elenact = s.elenact := rfl
@[simp] theorem setB_ehdrmask (m : Memory) : (s.setB m).ehdrmask = s.ehdrmask := rfl
@[simp] theorem setB_epaycnt (m : Memory) : (s.setB m).epaycnt = s.epaycnt := rfl
@[simp] theorem setB_eln (m : Memory) : (s.setB m).eln = s.eln := rfl
@[simp] theorem setB_emiss (m : Memory) : (s.setB m).emiss = s.emiss := rfl
@[simp] theorem setB_erngidx (m : Memory) : (s.setB m).erngidx = s.erngidx := rfl
@[simp] theorem setB_erngval (m : Memory) : (s.setB m).erngval = s.erngval := rfl
@[simp] theorem setB_cix (m : Memory) : (s.setB m).cix = s.cix := rfl
@[simp] theorem setB_host (m : Memory) : (s.setB m).host = s.host := rfl
@[simp] theorem setB_resets (m : Memory) : (s.setB m).resets = s.resets := rfl

@[simp] theorem setP_cfg (m : Sparse 16) : (s.setP m).cfg = s.cfg := rfl
@[simp] theorem setP_x (m : Sparse 16) : (s.setP m).x = s.x := rfl
@[simp] theorem setP_w (m : Sparse 16) : (s.setP m).w = s.w := rfl
@[simp] theorem setP_b (m : Sparse 16) : (s.setP m).b = s.b := rfl
@[simp] theorem setP_p (m : Sparse 16) : (s.setP m).p = m := rfl
@[simp] theorem setP_name (m : Sparse 16) : (s.setP m).name = s.name := rfl
@[simp] theorem setP_e (m : Sparse 16) : (s.setP m).e = s.e := rfl
@[simp] theorem setP_st (m : Sparse 16) : (s.setP m).st = s.st := rfl
@[simp] theorem setP_fcause (m : Sparse 16) : (s.setP m).fcause = s.fcause := rfl
@[simp] theorem setP_finfo (m : Sparse 16) : (s.setP m).finfo = s.finfo := rfl
@[simp] theorem setP_fcix (m : Sparse 16) : (s.setP m).fcix = s.fcix := rfl
@[simp] theorem setP_wlen (m : Sparse 16) : (s.setP m).wlen = s.wlen := rfl
@[simp] theorem setP_namelen (m : Sparse 16) : (s.setP m).namelen = s.namelen := rfl
@[simp] theorem setP_psec (m : Sparse 16) : (s.setP m).psec = s.psec := rfl
@[simp] theorem setP_err (m : Sparse 16) : (s.setP m).err = s.err := rfl
@[simp] theorem setP_elenact (m : Sparse 16) : (s.setP m).elenact = s.elenact := rfl
@[simp] theorem setP_ehdrmask (m : Sparse 16) : (s.setP m).ehdrmask = s.ehdrmask := rfl
@[simp] theorem setP_epaycnt (m : Sparse 16) : (s.setP m).epaycnt = s.epaycnt := rfl
@[simp] theorem setP_eln (m : Sparse 16) : (s.setP m).eln = s.eln := rfl
@[simp] theorem setP_emiss (m : Sparse 16) : (s.setP m).emiss = s.emiss := rfl
@[simp] theorem setP_erngidx (m : Sparse 16) : (s.setP m).erngidx = s.erngidx := rfl
@[simp] theorem setP_erngval (m : Sparse 16) : (s.setP m).erngval = s.erngval := rfl
@[simp] theorem setP_cix (m : Sparse 16) : (s.setP m).cix = s.cix := rfl
@[simp] theorem setP_host (m : Sparse 16) : (s.setP m).host = s.host := rfl
@[simp] theorem setP_resets (m : Sparse 16) : (s.setP m).resets = s.resets := rfl

@[simp] theorem setName_cfg (m : Memory) : (s.setName m).cfg = s.cfg := rfl
@[simp] theorem setName_x (m : Memory) : (s.setName m).x = s.x := rfl
@[simp] theorem setName_w (m : Memory) : (s.setName m).w = s.w := rfl
@[simp] theorem setName_b (m : Memory) : (s.setName m).b = s.b := rfl
@[simp] theorem setName_p (m : Memory) : (s.setName m).p = s.p := rfl
@[simp] theorem setName_name (m : Memory) : (s.setName m).name = m := rfl
@[simp] theorem setName_e (m : Memory) : (s.setName m).e = s.e := rfl
@[simp] theorem setName_st (m : Memory) : (s.setName m).st = s.st := rfl
@[simp] theorem setName_fcause (m : Memory) : (s.setName m).fcause = s.fcause := rfl
@[simp] theorem setName_finfo (m : Memory) : (s.setName m).finfo = s.finfo := rfl
@[simp] theorem setName_fcix (m : Memory) : (s.setName m).fcix = s.fcix := rfl
@[simp] theorem setName_wlen (m : Memory) : (s.setName m).wlen = s.wlen := rfl
@[simp] theorem setName_namelen (m : Memory) : (s.setName m).namelen = s.namelen := rfl
@[simp] theorem setName_psec (m : Memory) : (s.setName m).psec = s.psec := rfl
@[simp] theorem setName_err (m : Memory) : (s.setName m).err = s.err := rfl
@[simp] theorem setName_elenact (m : Memory) : (s.setName m).elenact = s.elenact := rfl
@[simp] theorem setName_ehdrmask (m : Memory) : (s.setName m).ehdrmask = s.ehdrmask := rfl
@[simp] theorem setName_epaycnt (m : Memory) : (s.setName m).epaycnt = s.epaycnt := rfl
@[simp] theorem setName_eln (m : Memory) : (s.setName m).eln = s.eln := rfl
@[simp] theorem setName_emiss (m : Memory) : (s.setName m).emiss = s.emiss := rfl
@[simp] theorem setName_erngidx (m : Memory) : (s.setName m).erngidx = s.erngidx := rfl
@[simp] theorem setName_erngval (m : Memory) : (s.setName m).erngval = s.erngval := rfl
@[simp] theorem setName_cix (m : Memory) : (s.setName m).cix = s.cix := rfl
@[simp] theorem setName_host (m : Memory) : (s.setName m).host = s.host := rfl
@[simp] theorem setName_resets (m : Memory) : (s.setName m).resets = s.resets := rfl

@[simp] theorem setWlen_cfg (v : Word) : (s.setWlen v).cfg = s.cfg := rfl
@[simp] theorem setWlen_x (v : Word) : (s.setWlen v).x = s.x := rfl
@[simp] theorem setWlen_w (v : Word) : (s.setWlen v).w = s.w := rfl
@[simp] theorem setWlen_b (v : Word) : (s.setWlen v).b = s.b := rfl
@[simp] theorem setWlen_p (v : Word) : (s.setWlen v).p = s.p := rfl
@[simp] theorem setWlen_name (v : Word) : (s.setWlen v).name = s.name := rfl
@[simp] theorem setWlen_e (v : Word) : (s.setWlen v).e = s.e := rfl
@[simp] theorem setWlen_st (v : Word) : (s.setWlen v).st = s.st := rfl
@[simp] theorem setWlen_fcause (v : Word) : (s.setWlen v).fcause = s.fcause := rfl
@[simp] theorem setWlen_finfo (v : Word) : (s.setWlen v).finfo = s.finfo := rfl
@[simp] theorem setWlen_fcix (v : Word) : (s.setWlen v).fcix = s.fcix := rfl
@[simp] theorem setWlen_wlen (v : Word) : (s.setWlen v).wlen = v := rfl
@[simp] theorem setWlen_namelen (v : Word) : (s.setWlen v).namelen = s.namelen := rfl
@[simp] theorem setWlen_psec (v : Word) : (s.setWlen v).psec = s.psec := rfl
@[simp] theorem setWlen_err (v : Word) : (s.setWlen v).err = s.err := rfl
@[simp] theorem setWlen_elenact (v : Word) : (s.setWlen v).elenact = s.elenact := rfl
@[simp] theorem setWlen_ehdrmask (v : Word) : (s.setWlen v).ehdrmask = s.ehdrmask := rfl
@[simp] theorem setWlen_epaycnt (v : Word) : (s.setWlen v).epaycnt = s.epaycnt := rfl
@[simp] theorem setWlen_eln (v : Word) : (s.setWlen v).eln = s.eln := rfl
@[simp] theorem setWlen_emiss (v : Word) : (s.setWlen v).emiss = s.emiss := rfl
@[simp] theorem setWlen_erngidx (v : Word) : (s.setWlen v).erngidx = s.erngidx := rfl
@[simp] theorem setWlen_erngval (v : Word) : (s.setWlen v).erngval = s.erngval := rfl
@[simp] theorem setWlen_cix (v : Word) : (s.setWlen v).cix = s.cix := rfl
@[simp] theorem setWlen_host (v : Word) : (s.setWlen v).host = s.host := rfl
@[simp] theorem setWlen_resets (v : Word) : (s.setWlen v).resets = s.resets := rfl

@[simp] theorem setNamelen_cfg (v : Word) : (s.setNamelen v).cfg = s.cfg := rfl
@[simp] theorem setNamelen_x (v : Word) : (s.setNamelen v).x = s.x := rfl
@[simp] theorem setNamelen_w (v : Word) : (s.setNamelen v).w = s.w := rfl
@[simp] theorem setNamelen_b (v : Word) : (s.setNamelen v).b = s.b := rfl
@[simp] theorem setNamelen_p (v : Word) : (s.setNamelen v).p = s.p := rfl
@[simp] theorem setNamelen_name (v : Word) : (s.setNamelen v).name = s.name := rfl
@[simp] theorem setNamelen_e (v : Word) : (s.setNamelen v).e = s.e := rfl
@[simp] theorem setNamelen_st (v : Word) : (s.setNamelen v).st = s.st := rfl
@[simp] theorem setNamelen_fcause (v : Word) : (s.setNamelen v).fcause = s.fcause := rfl
@[simp] theorem setNamelen_finfo (v : Word) : (s.setNamelen v).finfo = s.finfo := rfl
@[simp] theorem setNamelen_fcix (v : Word) : (s.setNamelen v).fcix = s.fcix := rfl
@[simp] theorem setNamelen_wlen (v : Word) : (s.setNamelen v).wlen = s.wlen := rfl
@[simp] theorem setNamelen_namelen (v : Word) : (s.setNamelen v).namelen = v := rfl
@[simp] theorem setNamelen_psec (v : Word) : (s.setNamelen v).psec = s.psec := rfl
@[simp] theorem setNamelen_err (v : Word) : (s.setNamelen v).err = s.err := rfl
@[simp] theorem setNamelen_elenact (v : Word) : (s.setNamelen v).elenact = s.elenact := rfl
@[simp] theorem setNamelen_ehdrmask (v : Word) : (s.setNamelen v).ehdrmask = s.ehdrmask := rfl
@[simp] theorem setNamelen_epaycnt (v : Word) : (s.setNamelen v).epaycnt = s.epaycnt := rfl
@[simp] theorem setNamelen_eln (v : Word) : (s.setNamelen v).eln = s.eln := rfl
@[simp] theorem setNamelen_emiss (v : Word) : (s.setNamelen v).emiss = s.emiss := rfl
@[simp] theorem setNamelen_erngidx (v : Word) : (s.setNamelen v).erngidx = s.erngidx := rfl
@[simp] theorem setNamelen_erngval (v : Word) : (s.setNamelen v).erngval = s.erngval := rfl
@[simp] theorem setNamelen_cix (v : Word) : (s.setNamelen v).cix = s.cix := rfl
@[simp] theorem setNamelen_host (v : Word) : (s.setNamelen v).host = s.host := rfl
@[simp] theorem setNamelen_resets (v : Word) : (s.setNamelen v).resets = s.resets := rfl

@[simp] theorem setPsec_cfg (v : Word) : (s.setPsec v).cfg = s.cfg := rfl
@[simp] theorem setPsec_x (v : Word) : (s.setPsec v).x = s.x := rfl
@[simp] theorem setPsec_w (v : Word) : (s.setPsec v).w = s.w := rfl
@[simp] theorem setPsec_b (v : Word) : (s.setPsec v).b = s.b := rfl
@[simp] theorem setPsec_p (v : Word) : (s.setPsec v).p = s.p := rfl
@[simp] theorem setPsec_name (v : Word) : (s.setPsec v).name = s.name := rfl
@[simp] theorem setPsec_e (v : Word) : (s.setPsec v).e = s.e := rfl
@[simp] theorem setPsec_st (v : Word) : (s.setPsec v).st = s.st := rfl
@[simp] theorem setPsec_fcause (v : Word) : (s.setPsec v).fcause = s.fcause := rfl
@[simp] theorem setPsec_finfo (v : Word) : (s.setPsec v).finfo = s.finfo := rfl
@[simp] theorem setPsec_fcix (v : Word) : (s.setPsec v).fcix = s.fcix := rfl
@[simp] theorem setPsec_wlen (v : Word) : (s.setPsec v).wlen = s.wlen := rfl
@[simp] theorem setPsec_namelen (v : Word) : (s.setPsec v).namelen = s.namelen := rfl
@[simp] theorem setPsec_psec (v : Word) : (s.setPsec v).psec = v := rfl
@[simp] theorem setPsec_err (v : Word) : (s.setPsec v).err = s.err := rfl
@[simp] theorem setPsec_elenact (v : Word) : (s.setPsec v).elenact = s.elenact := rfl
@[simp] theorem setPsec_ehdrmask (v : Word) : (s.setPsec v).ehdrmask = s.ehdrmask := rfl
@[simp] theorem setPsec_epaycnt (v : Word) : (s.setPsec v).epaycnt = s.epaycnt := rfl
@[simp] theorem setPsec_eln (v : Word) : (s.setPsec v).eln = s.eln := rfl
@[simp] theorem setPsec_emiss (v : Word) : (s.setPsec v).emiss = s.emiss := rfl
@[simp] theorem setPsec_erngidx (v : Word) : (s.setPsec v).erngidx = s.erngidx := rfl
@[simp] theorem setPsec_erngval (v : Word) : (s.setPsec v).erngval = s.erngval := rfl
@[simp] theorem setPsec_cix (v : Word) : (s.setPsec v).cix = s.cix := rfl
@[simp] theorem setPsec_host (v : Word) : (s.setPsec v).host = s.host := rfl
@[simp] theorem setPsec_resets (v : Word) : (s.setPsec v).resets = s.resets := rfl

@[simp] theorem advance_cfg : (s.advance).cfg = s.cfg := rfl
@[simp] theorem advance_x : (s.advance).x = s.x := rfl
@[simp] theorem advance_w : (s.advance).w = s.w := rfl
@[simp] theorem advance_b : (s.advance).b = s.b := rfl
@[simp] theorem advance_p : (s.advance).p = s.p := rfl
@[simp] theorem advance_name : (s.advance).name = s.name := rfl
@[simp] theorem advance_e : (s.advance).e = s.e := rfl
@[simp] theorem advance_st : (s.advance).st = s.st := rfl
@[simp] theorem advance_fcause : (s.advance).fcause = s.fcause := rfl
@[simp] theorem advance_finfo : (s.advance).finfo = s.finfo := rfl
@[simp] theorem advance_fcix : (s.advance).fcix = s.fcix := rfl
@[simp] theorem advance_wlen : (s.advance).wlen = s.wlen := rfl
@[simp] theorem advance_namelen : (s.advance).namelen = s.namelen := rfl
@[simp] theorem advance_psec : (s.advance).psec = s.psec := rfl
@[simp] theorem advance_err : (s.advance).err = s.err := rfl
@[simp] theorem advance_elenact : (s.advance).elenact = s.elenact := rfl
@[simp] theorem advance_ehdrmask : (s.advance).ehdrmask = s.ehdrmask := rfl
@[simp] theorem advance_epaycnt : (s.advance).epaycnt = s.epaycnt := rfl
@[simp] theorem advance_eln : (s.advance).eln = s.eln := rfl
@[simp] theorem advance_emiss : (s.advance).emiss = s.emiss := rfl
@[simp] theorem advance_erngidx : (s.advance).erngidx = s.erngidx := rfl
@[simp] theorem advance_erngval : (s.advance).erngval = s.erngval := rfl
@[simp] theorem advance_cix : (s.advance).cix = s.cix + 1 := rfl
@[simp] theorem advance_host : (s.advance).host = s.host := rfl
@[simp] theorem advance_resets : (s.advance).resets = s.resets := rfl

@[simp] theorem setHost_cfg (h : List HostTxn) : (s.setHost h).cfg = s.cfg := rfl
@[simp] theorem setHost_x (h : List HostTxn) : (s.setHost h).x = s.x := rfl
@[simp] theorem setHost_w (h : List HostTxn) : (s.setHost h).w = s.w := rfl
@[simp] theorem setHost_b (h : List HostTxn) : (s.setHost h).b = s.b := rfl
@[simp] theorem setHost_p (h : List HostTxn) : (s.setHost h).p = s.p := rfl
@[simp] theorem setHost_name (h : List HostTxn) : (s.setHost h).name = s.name := rfl
@[simp] theorem setHost_e (h : List HostTxn) : (s.setHost h).e = s.e := rfl
@[simp] theorem setHost_st (h : List HostTxn) : (s.setHost h).st = s.st := rfl
@[simp] theorem setHost_fcause (h : List HostTxn) : (s.setHost h).fcause = s.fcause := rfl
@[simp] theorem setHost_finfo (h : List HostTxn) : (s.setHost h).finfo = s.finfo := rfl
@[simp] theorem setHost_fcix (h : List HostTxn) : (s.setHost h).fcix = s.fcix := rfl
@[simp] theorem setHost_wlen (h : List HostTxn) : (s.setHost h).wlen = s.wlen := rfl
@[simp] theorem setHost_namelen (h : List HostTxn) : (s.setHost h).namelen = s.namelen := rfl
@[simp] theorem setHost_psec (h : List HostTxn) : (s.setHost h).psec = s.psec := rfl
@[simp] theorem setHost_err (h : List HostTxn) : (s.setHost h).err = s.err := rfl
@[simp] theorem setHost_elenact (h : List HostTxn) : (s.setHost h).elenact = s.elenact := rfl
@[simp] theorem setHost_ehdrmask (h : List HostTxn) : (s.setHost h).ehdrmask = s.ehdrmask := rfl
@[simp] theorem setHost_epaycnt (h : List HostTxn) : (s.setHost h).epaycnt = s.epaycnt := rfl
@[simp] theorem setHost_eln (h : List HostTxn) : (s.setHost h).eln = s.eln := rfl
@[simp] theorem setHost_emiss (h : List HostTxn) : (s.setHost h).emiss = s.emiss := rfl
@[simp] theorem setHost_erngidx (h : List HostTxn) : (s.setHost h).erngidx = s.erngidx := rfl
@[simp] theorem setHost_erngval (h : List HostTxn) : (s.setHost h).erngval = s.erngval := rfl
@[simp] theorem setHost_cix (h : List HostTxn) : (s.setHost h).cix = s.cix := rfl
@[simp] theorem setHost_host (h : List HostTxn) : (s.setHost h).host = h := rfl
@[simp] theorem setHost_resets (h : List HostTxn) : (s.setHost h).resets = s.resets := rfl

@[simp] theorem takeFault_cfg (r : Raised) : (s.takeFault r).cfg = s.cfg := rfl
@[simp] theorem takeFault_x (r : Raised) : (s.takeFault r).x = s.x := rfl
@[simp] theorem takeFault_w (r : Raised) : (s.takeFault r).w = s.w := rfl
@[simp] theorem takeFault_b (r : Raised) : (s.takeFault r).b = s.b := rfl
@[simp] theorem takeFault_p (r : Raised) : (s.takeFault r).p = s.p := rfl
@[simp] theorem takeFault_name (r : Raised) : (s.takeFault r).name = s.name := rfl
@[simp] theorem takeFault_e (r : Raised) : (s.takeFault r).e = s.e := rfl
@[simp] theorem takeFault_st (r : Raised) : (s.takeFault r).st = s.st ||| 2 := rfl
@[simp] theorem takeFault_fcause (r : Raised) : (s.takeFault r).fcause = r.code := rfl
@[simp] theorem takeFault_finfo (r : Raised) : (s.takeFault r).finfo = r.info := rfl
@[simp] theorem takeFault_fcix (r : Raised) : (s.takeFault r).fcix = s.cix := rfl
@[simp] theorem takeFault_wlen (r : Raised) : (s.takeFault r).wlen = s.wlen := rfl
@[simp] theorem takeFault_namelen (r : Raised) : (s.takeFault r).namelen = s.namelen := rfl
@[simp] theorem takeFault_psec (r : Raised) : (s.takeFault r).psec = s.psec := rfl
@[simp] theorem takeFault_err (r : Raised) : (s.takeFault r).err = s.err := rfl
@[simp] theorem takeFault_elenact (r : Raised) : (s.takeFault r).elenact = s.elenact := rfl
@[simp] theorem takeFault_ehdrmask (r : Raised) : (s.takeFault r).ehdrmask = s.ehdrmask := rfl
@[simp] theorem takeFault_epaycnt (r : Raised) : (s.takeFault r).epaycnt = s.epaycnt := rfl
@[simp] theorem takeFault_eln (r : Raised) : (s.takeFault r).eln = s.eln := rfl
@[simp] theorem takeFault_emiss (r : Raised) : (s.takeFault r).emiss = s.emiss := rfl
@[simp] theorem takeFault_erngidx (r : Raised) : (s.takeFault r).erngidx = s.erngidx := rfl
@[simp] theorem takeFault_erngval (r : Raised) : (s.takeFault r).erngval = s.erngval := rfl
@[simp] theorem takeFault_cix (r : Raised) : (s.takeFault r).cix = s.cix := rfl
@[simp] theorem takeFault_host (r : Raised) : (s.takeFault r).host = s.host := rfl
@[simp] theorem takeFault_resets (r : Raised) : (s.takeFault r).resets = s.resets := rfl

@[simp] theorem commitResult_cfg (r : Result) : (s.commitResult r).cfg = s.cfg := rfl
@[simp] theorem commitResult_x (r : Result) : (s.commitResult r).x = s.x := rfl
@[simp] theorem commitResult_w (r : Result) : (s.commitResult r).w = s.w := rfl
@[simp] theorem commitResult_b (r : Result) : (s.commitResult r).b = s.b := rfl
@[simp] theorem commitResult_p (r : Result) : (s.commitResult r).p = s.p := rfl
@[simp] theorem commitResult_name (r : Result) : (s.commitResult r).name = s.name := rfl
@[simp] theorem commitResult_e (r : Result) : (s.commitResult r).e = r.e := rfl
@[simp] theorem commitResult_st (r : Result) : (s.commitResult r).st = withValid s.st r.valid := rfl
@[simp] theorem commitResult_fcause (r : Result) : (s.commitResult r).fcause = s.fcause := rfl
@[simp] theorem commitResult_finfo (r : Result) : (s.commitResult r).finfo = s.finfo := rfl
@[simp] theorem commitResult_fcix (r : Result) : (s.commitResult r).fcix = s.fcix := rfl
@[simp] theorem commitResult_wlen (r : Result) : (s.commitResult r).wlen = s.wlen := rfl
@[simp] theorem commitResult_namelen (r : Result) : (s.commitResult r).namelen = s.namelen := rfl
@[simp] theorem commitResult_psec (r : Result) : (s.commitResult r).psec = s.psec := rfl
@[simp] theorem commitResult_err (r : Result) : (s.commitResult r).err = r.err := rfl
@[simp] theorem commitResult_elenact (r : Result) : (s.commitResult r).elenact = r.elenact := rfl
@[simp] theorem commitResult_ehdrmask (r : Result) : (s.commitResult r).ehdrmask = r.ehdrmask := rfl
@[simp] theorem commitResult_epaycnt (r : Result) : (s.commitResult r).epaycnt = r.epaycnt := rfl
@[simp] theorem commitResult_eln (r : Result) : (s.commitResult r).eln = r.eln := rfl
@[simp] theorem commitResult_emiss (r : Result) : (s.commitResult r).emiss = r.emiss := rfl
@[simp] theorem commitResult_erngidx (r : Result) : (s.commitResult r).erngidx = r.erngidx := rfl
@[simp] theorem commitResult_erngval (r : Result) : (s.commitResult r).erngval = r.erngval := rfl
@[simp] theorem commitResult_cix (r : Result) : (s.commitResult r).cix = s.cix := rfl
@[simp] theorem commitResult_host (r : Result) : (s.commitResult r).host = s.host := rfl
@[simp] theorem commitResult_resets (r : Result) : (s.commitResult r).resets = s.resets := rfl

@[simp] theorem resetWith_cfg (c : Config) : (State.resetWith c).cfg = c := rfl
@[simp] theorem hostReset_cfg : s.hostReset.cfg = s.cfg := rfl
@[simp] theorem hostReset_host : s.hostReset.host = s.host := rfl
@[simp] theorem hostReset_resets : s.hostReset.resets = s.resets + 1 := rfl
@[simp] theorem hostReset_e : s.hostReset.e = [] := rfl
@[simp] theorem hostReset_readCsr (c : Csr) : s.hostReset.readCsr c = 0 := by cases c <;> rfl

@[simp] theorem faulted_setX (r : Reg) (v : Word) : (s.setX r v).faulted = s.faulted := rfl
@[simp] theorem faulted_setW (m : Memory) : (s.setW m).faulted = s.faulted := rfl
@[simp] theorem faulted_setB (m : Memory) : (s.setB m).faulted = s.faulted := rfl
@[simp] theorem faulted_setP (m : Sparse 16) : (s.setP m).faulted = s.faulted := rfl
@[simp] theorem faulted_setName (m : Memory) : (s.setName m).faulted = s.faulted := rfl
@[simp] theorem faulted_setWlen (v : Word) : (s.setWlen v).faulted = s.faulted := rfl
@[simp] theorem faulted_setNamelen (v : Word) : (s.setNamelen v).faulted = s.faulted := rfl
@[simp] theorem faulted_setPsec (v : Word) : (s.setPsec v).faulted = s.faulted := rfl
@[simp] theorem faulted_advance : s.advance.faulted = s.faulted := rfl
@[simp] theorem faulted_setHost (h : List HostTxn) : (s.setHost h).faulted = s.faulted := rfl

@[simp] theorem valid_setX (r : Reg) (v : Word) : (s.setX r v).valid = s.valid := rfl
@[simp] theorem valid_setW (m : Memory) : (s.setW m).valid = s.valid := rfl
@[simp] theorem valid_setB (m : Memory) : (s.setB m).valid = s.valid := rfl
@[simp] theorem valid_setP (m : Sparse 16) : (s.setP m).valid = s.valid := rfl
@[simp] theorem valid_setName (m : Memory) : (s.setName m).valid = s.valid := rfl
@[simp] theorem valid_setWlen (v : Word) : (s.setWlen v).valid = s.valid := rfl
@[simp] theorem valid_setNamelen (v : Word) : (s.setNamelen v).valid = s.valid := rfl
@[simp] theorem valid_setPsec (v : Word) : (s.setPsec v).valid = s.valid := rfl
@[simp] theorem valid_advance : s.advance.valid = s.valid := rfl
@[simp] theorem valid_setHost (h : List HostTxn) : (s.setHost h).valid = s.valid := rfl

@[simp] theorem valid_takeFault (r : Raised) : (s.takeFault r).valid = s.valid := by
  simp [State.valid, State.takeFault]

@[simp] theorem faulted_takeFault (r : Raised) : (s.takeFault r).faulted = true := by
  simp [State.faulted, State.takeFault]

@[simp] theorem withValid_getLsbD_one (st : Word) (v : Bool) :
    (withValid st v).getLsbD 1 = st.getLsbD 1 := by
  cases v <;> simp [withValid]

@[simp] theorem withValid_getLsbD_zero (st : Word) (v : Bool) : (withValid st v).getLsbD 0 = v := by
  cases v <;> simp [withValid]

@[simp] theorem faulted_commitResult (r : Result) : (s.commitResult r).faulted = s.faulted :=
  withValid_getLsbD_one s.st r.valid

@[simp] theorem valid_commitResult (r : Result) : (s.commitResult r).valid = r.valid :=
  withValid_getLsbD_zero s.st r.valid

/-! ### Writes by number and by space -/

@[simp] theorem writeCsr_cfg (c : Csr) (v : Word) : (s.writeCsr c v).cfg = s.cfg := by cases c <;> rfl
@[simp] theorem writeCsr_x (c : Csr) (v : Word) : (s.writeCsr c v).x = s.x := by cases c <;> rfl
@[simp] theorem writeCsr_w (c : Csr) (v : Word) : (s.writeCsr c v).w = s.w := by cases c <;> rfl
@[simp] theorem writeCsr_b (c : Csr) (v : Word) : (s.writeCsr c v).b = s.b := by cases c <;> rfl
@[simp] theorem writeCsr_p (c : Csr) (v : Word) : (s.writeCsr c v).p = s.p := by cases c <;> rfl
@[simp] theorem writeCsr_name (c : Csr) (v : Word) : (s.writeCsr c v).name = s.name := by cases c <;> rfl
@[simp] theorem writeCsr_e (c : Csr) (v : Word) : (s.writeCsr c v).e = s.e := by cases c <;> rfl
@[simp] theorem writeCsr_st (c : Csr) (v : Word) : (s.writeCsr c v).st = s.st := by cases c <;> rfl
@[simp] theorem writeCsr_fcause (c : Csr) (v : Word) : (s.writeCsr c v).fcause = s.fcause := by cases c <;> rfl
@[simp] theorem writeCsr_finfo (c : Csr) (v : Word) : (s.writeCsr c v).finfo = s.finfo := by cases c <;> rfl
@[simp] theorem writeCsr_fcix (c : Csr) (v : Word) : (s.writeCsr c v).fcix = s.fcix := by cases c <;> rfl
@[simp] theorem writeCsr_err (c : Csr) (v : Word) : (s.writeCsr c v).err = s.err := by cases c <;> rfl
@[simp] theorem writeCsr_elenact (c : Csr) (v : Word) : (s.writeCsr c v).elenact = s.elenact := by cases c <;> rfl
@[simp] theorem writeCsr_ehdrmask (c : Csr) (v : Word) : (s.writeCsr c v).ehdrmask = s.ehdrmask := by cases c <;> rfl
@[simp] theorem writeCsr_epaycnt (c : Csr) (v : Word) : (s.writeCsr c v).epaycnt = s.epaycnt := by cases c <;> rfl
@[simp] theorem writeCsr_eln (c : Csr) (v : Word) : (s.writeCsr c v).eln = s.eln := by cases c <;> rfl
@[simp] theorem writeCsr_emiss (c : Csr) (v : Word) : (s.writeCsr c v).emiss = s.emiss := by cases c <;> rfl
@[simp] theorem writeCsr_erngidx (c : Csr) (v : Word) : (s.writeCsr c v).erngidx = s.erngidx := by cases c <;> rfl
@[simp] theorem writeCsr_erngval (c : Csr) (v : Word) : (s.writeCsr c v).erngval = s.erngval := by cases c <;> rfl
@[simp] theorem writeCsr_cix (c : Csr) (v : Word) : (s.writeCsr c v).cix = s.cix := by cases c <;> rfl
@[simp] theorem writeCsr_host (c : Csr) (v : Word) : (s.writeCsr c v).host = s.host := by cases c <;> rfl
@[simp] theorem writeCsr_resets (c : Csr) (v : Word) : (s.writeCsr c v).resets = s.resets := by cases c <;> rfl
@[simp] theorem writeCsr_wlen (c : Csr) (v : Word) :
    (s.writeCsr c v).wlen = if c = .wlen then v else s.wlen := by cases c <;> rfl
@[simp] theorem writeCsr_namelen (c : Csr) (v : Word) :
    (s.writeCsr c v).namelen = if c = .namelen then v else s.namelen := by cases c <;> rfl
@[simp] theorem writeCsr_psec (c : Csr) (v : Word) :
    (s.writeCsr c v).psec = if c = .psec then v else s.psec := by cases c <;> rfl

@[simp] theorem setElement_cfg (sp : Space) (a : Nat) (v : Word) : (s.setElement sp a v).cfg = s.cfg := by
  cases sp <;> first | rfl | exact writeCsr_cfg s _ v
@[simp] theorem setElement_x (sp : Space) (a : Nat) (v : Word) : (s.setElement sp a v).x = s.x := by
  cases sp <;> first | rfl | exact writeCsr_x s _ v
@[simp] theorem setElement_e (sp : Space) (a : Nat) (v : Word) : (s.setElement sp a v).e = s.e := by
  cases sp <;> first | rfl | exact writeCsr_e s _ v
@[simp] theorem setElement_st (sp : Space) (a : Nat) (v : Word) : (s.setElement sp a v).st = s.st := by
  cases sp <;> first | rfl | exact writeCsr_st s _ v
@[simp] theorem setElement_fcause (sp : Space) (a : Nat) (v : Word) : (s.setElement sp a v).fcause = s.fcause := by
  cases sp <;> first | rfl | exact writeCsr_fcause s _ v
@[simp] theorem setElement_finfo (sp : Space) (a : Nat) (v : Word) : (s.setElement sp a v).finfo = s.finfo := by
  cases sp <;> first | rfl | exact writeCsr_finfo s _ v
@[simp] theorem setElement_fcix (sp : Space) (a : Nat) (v : Word) : (s.setElement sp a v).fcix = s.fcix := by
  cases sp <;> first | rfl | exact writeCsr_fcix s _ v
@[simp] theorem setElement_err (sp : Space) (a : Nat) (v : Word) : (s.setElement sp a v).err = s.err := by
  cases sp <;> first | rfl | exact writeCsr_err s _ v
@[simp] theorem setElement_elenact (sp : Space) (a : Nat) (v : Word) : (s.setElement sp a v).elenact = s.elenact := by
  cases sp <;> first | rfl | exact writeCsr_elenact s _ v
@[simp] theorem setElement_ehdrmask (sp : Space) (a : Nat) (v : Word) : (s.setElement sp a v).ehdrmask = s.ehdrmask := by
  cases sp <;> first | rfl | exact writeCsr_ehdrmask s _ v
@[simp] theorem setElement_epaycnt (sp : Space) (a : Nat) (v : Word) : (s.setElement sp a v).epaycnt = s.epaycnt := by
  cases sp <;> first | rfl | exact writeCsr_epaycnt s _ v
@[simp] theorem setElement_eln (sp : Space) (a : Nat) (v : Word) : (s.setElement sp a v).eln = s.eln := by
  cases sp <;> first | rfl | exact writeCsr_eln s _ v
@[simp] theorem setElement_emiss (sp : Space) (a : Nat) (v : Word) : (s.setElement sp a v).emiss = s.emiss := by
  cases sp <;> first | rfl | exact writeCsr_emiss s _ v
@[simp] theorem setElement_erngidx (sp : Space) (a : Nat) (v : Word) : (s.setElement sp a v).erngidx = s.erngidx := by
  cases sp <;> first | rfl | exact writeCsr_erngidx s _ v
@[simp] theorem setElement_erngval (sp : Space) (a : Nat) (v : Word) : (s.setElement sp a v).erngval = s.erngval := by
  cases sp <;> first | rfl | exact writeCsr_erngval s _ v
@[simp] theorem setElement_cix (sp : Space) (a : Nat) (v : Word) : (s.setElement sp a v).cix = s.cix := by
  cases sp <;> first | rfl | exact writeCsr_cix s _ v
@[simp] theorem setElement_host (sp : Space) (a : Nat) (v : Word) : (s.setElement sp a v).host = s.host := by
  cases sp <;> first | rfl | exact writeCsr_host s _ v
@[simp] theorem setElement_resets (sp : Space) (a : Nat) (v : Word) : (s.setElement sp a v).resets = s.resets := by
  cases sp <;> first | rfl | exact writeCsr_resets s _ v
theorem setElement_w (sp : Space) (a : Nat) (v : Word) :
    (s.setElement sp a v).w = if sp = .w then s.w.write a (v.setWidth 8) else s.w := by
  cases sp <;> first | rfl | exact writeCsr_w s _ v
theorem setElement_b (sp : Space) (a : Nat) (v : Word) :
    (s.setElement sp a v).b = if sp = .b then s.b.write a (v.setWidth 8) else s.b := by
  cases sp <;> first | rfl | exact writeCsr_b s _ v
theorem setElement_p (sp : Space) (a : Nat) (v : Word) :
    (s.setElement sp a v).p = if sp = .p then s.p.write a v else s.p := by
  cases sp <;> first | rfl | exact writeCsr_p s _ v
theorem setElement_name (sp : Space) (a : Nat) (v : Word) :
    (s.setElement sp a v).name = if sp = .n then s.name.write a (v.setWidth 8) else s.name := by
  cases sp <;> first | rfl | exact writeCsr_name s _ v

@[simp] theorem faulted_writeCsr (c : Csr) (v : Word) : (s.writeCsr c v).faulted = s.faulted := by
  cases c <;> rfl
@[simp] theorem valid_writeCsr (c : Csr) (v : Word) : (s.writeCsr c v).valid = s.valid := by cases c <;> rfl
@[simp] theorem faulted_setElement (sp : Space) (a : Nat) (v : Word) :
    (s.setElement sp a v).faulted = s.faulted := by
  cases sp <;> first | rfl | exact faulted_writeCsr s _ v
@[simp] theorem valid_setElement (sp : Space) (a : Nat) (v : Word) : (s.setElement sp a v).valid = s.valid := by
  cases sp <;> first | rfl | exact valid_writeCsr s _ v

end Sys2Proof.Machine
end

