-- ==== Sys2Proof/Laws/Command.lean ====
section
/-! SUPPORT. What the frame of a command can do (spec/60_exceptions.md R241, R244, spec/10_state.md R46), and one
lemma per check: when it lets the command go on and what it raises otherwise. -/

namespace Sys2Proof.Machine

/-! ### Checks -/

theorem require_pos {α : Type} {c : Prop} [Decidable c] {r : Raised} {k : Except Raised α} (h : c) :
    require c r k = k := if_pos h

theorem require_neg {α : Type} {c : Prop} [Decidable c] {r : Raised} {k : Except Raised α} (h : ¬c) :
    require c r k = .error r := if_neg h

/-- A check that lets a command complete held, and what follows it completed. -/
theorem require_eq_ok {α : Type} {c : Prop} [Decidable c] {r : Raised} {k : Except Raised α} {t : α} :
    require c r k = .ok t ↔ c ∧ k = .ok t := by
  unfold require
  split <;> simp_all

/-- A command raises by this check or by what follows it. -/
theorem require_eq_error {α : Type} {c : Prop} [Decidable c] {r q : Raised} {k : Except Raised α} :
    require c r k = .error q ↔ (¬c ∧ q = r) ∨ (c ∧ k = .error q) := by
  unfold require
  split <;> simp_all [eq_comm]

theorem requireIndex_eq_ok {α : Type} {c : Config} {sp : Space} {a : Nat} {k : Except Raised α} {t : α} :
    requireIndex c sp a k = .ok t ↔ a < spaceSize c sp ∧ k = .ok t := require_eq_ok

theorem requireIndex_eq_error {α : Type} {c : Config} {sp : Space} {a : Nat} {k : Except Raised α} {q : Raised} :
    requireIndex c sp a k = .error q ↔
      (¬a < spaceSize c sp ∧ q = .address a) ∨ (a < spaceSize c sp ∧ k = .error q) := require_eq_error

theorem requireRange_eq_ok {α : Type} {c : Config} {sp : Space} {a n : Nat} {k : Except Raised α} {t : α} :
    requireRange c sp a n k = .ok t ↔ a + n ≤ spaceSize c sp ∧ k = .ok t := require_eq_ok

theorem requireRange_eq_error {α : Type} {c : Config} {sp : Space} {a n : Nat} {k : Except Raised α}
    {q : Raised} :
    requireRange c sp a n k = .error q ↔
      (¬a + n ≤ spaceSize c sp ∧ q = .address a) ∨ (a + n ≤ spaceSize c sp ∧ k = .error q) := require_eq_error

theorem requireByte_eq_ok {α : Type} {v : Word} {k : Except Raised α} {t : α} :
    requireByte v k = .ok t ↔ v.toNat ≤ 255 ∧ k = .ok t := require_eq_ok

theorem requireByte_eq_error {α : Type} {v : Word} {k : Except Raised α} {q : Raised} :
    requireByte v k = .error q ↔
      (¬v.toNat ≤ 255 ∧ q = .range .operand) ∨ (v.toNat ≤ 255 ∧ k = .error q) := require_eq_error

theorem requireValue_eq_ok {α : Type} {v : Word} {n : Nat} {k : Except Raised α} {t : α} :
    requireValue v n k = .ok t ↔ v.toNat ≤ n ∧ k = .ok t := require_eq_ok

theorem requireValue_eq_error {α : Type} {v : Word} {n : Nat} {k : Except Raised α} {q : Raised} :
    requireValue v n k = .error q ↔
      (¬v.toNat ≤ n ∧ q = .range .value) ∨ (v.toNat ≤ n ∧ k = .error q) := require_eq_error

theorem requireGeometry_eq_ok {α : Type} {st : BitVec 3} {wd : BitVec 4} {k : Except Raised α} {t : α} :
    requireGeometry st wd k = .ok t ↔ validGeometry st.toNat wd.toNat ∧ k = .ok t := require_eq_ok

theorem requireGeometry_eq_error {α : Type} {st : BitVec 3} {wd : BitVec 4} {k : Except Raised α} {q : Raised} :
    requireGeometry st wd k = .error q ↔
      (¬validGeometry st.toNat wd.toNat ∧ q = .range .geometry) ∨
        (validGeometry st.toNat wd.toNat ∧ k = .error q) := require_eq_error

theorem requireOffset_eq_ok {α : Type} {off : BitVec 3} {k : Except Raised α} {t : α} :
    requireOffset off k = .ok t ↔ validOffset off.toNat ∧ k = .ok t := require_eq_ok

theorem requireOffset_eq_error {α : Type} {off : BitVec 3} {k : Except Raised α} {q : Raised} :
    requireOffset off k = .error q ↔
      (¬validOffset off.toNat ∧ q = .range .offset) ∨ (validOffset off.toNat ∧ k = .error q) :=
  require_eq_error

theorem requireMultiple_eq_ok {α : Type} {n m : Nat} {k : Except Raised α} {t : α} :
    requireMultiple n m k = .ok t ↔ n % m = 0 ∧ k = .ok t := require_eq_ok

theorem requireMultiple_eq_error {α : Type} {n m : Nat} {k : Except Raised α} {q : Raised} :
    requireMultiple n m k = .error q ↔ (¬n % m = 0 ∧ q = .length n) ∨ (n % m = 0 ∧ k = .error q) :=
  require_eq_error

/-! ### The frame of a command -/

theorem State.command_faulted {s : State} (h : s.faulted = true) (body : Except Raised State) :
    s.command body = .next s := by
  simp [State.command, h]

theorem State.command_ok {s t : State} (h : s.faulted = false) : s.command (.ok t) = .next t.advance := by
  simp [State.command, h]

theorem State.command_error {s : State} (h : s.faulted = false) (r : Raised) :
    s.command (.error r) = .next (s.takeFault r) := by
  simp [State.command, h]

/-- Everything a command can do: it is refused and changes nothing, it completes, or it takes a fault. -/
theorem State.command_eq_next {s t : State} {body : Except Raised State} :
    s.command body = .next t ↔
      (s.faulted = true ∧ t = s) ∨ (s.faulted = false ∧ ∃ u, body = .ok u ∧ t = u.advance) ∨
        (s.faulted = false ∧ ∃ r, body = .error r ∧ t = s.takeFault r) := by
  unfold State.command
  cases hs : s.faulted <;> cases body <;> simp [eq_comm]

/-! ### Loads and stores -/

/-- Everything a load can do. -/
theorem State.load_eq_ok {s t : State} {sp : Space} {rd rb : Reg} {imm : Word} :
    s.load sp rd rb imm = .ok t ↔
      s.ea rb imm < spaceSize s.cfg sp ∧ t = s.setX rd (s.element sp (s.ea rb imm)) := by
  rw [State.load, requireIndex_eq_ok, Except.ok.injEq, eq_comm (a := t)]

theorem State.load_eq_error {s : State} {sp : Space} {rd rb : Reg} {imm : Word} {q : Raised} :
    s.load sp rd rb imm = .error q ↔ ¬s.ea rb imm < spaceSize s.cfg sp ∧ q = .address (s.ea rb imm) := by
  simp [State.load, requireIndex_eq_error]

/-- Everything a store of a byte can do. -/
theorem State.storeByte_eq_ok {s t : State} {sp : Space} {rs rb : Reg} {imm : Word} :
    s.storeByte sp rs rb imm = .ok t ↔
      s.ea rb imm < spaceSize s.cfg sp ∧ (s.readX rs).toNat ≤ 255 ∧
        t = s.setElement sp (s.ea rb imm) (s.readX rs) := by
  rw [State.storeByte, requireIndex_eq_ok, requireByte_eq_ok, Except.ok.injEq, eq_comm (a := t)]

theorem State.storeByte_eq_error {s : State} {sp : Space} {rs rb : Reg} {imm : Word} {q : Raised} :
    s.storeByte sp rs rb imm = .error q ↔
      (¬s.ea rb imm < spaceSize s.cfg sp ∧ q = .address (s.ea rb imm)) ∨
        (s.ea rb imm < spaceSize s.cfg sp ∧ ¬(s.readX rs).toNat ≤ 255 ∧ q = .range .operand) := by
  simp [State.storeByte, requireIndex_eq_error, requireByte_eq_error]

end Sys2Proof.Machine
end

