-- ==== Sys2Proof/Laws/Effect.lean ====
section
/-! SUPPORT. What each command can do, said once: the state it writes when it completes, with every check it passed;
and the three things any command can do. -/

namespace Sys2Proof.Machine

/-- Command `i`, taken in `s`, passes all its checks and writes `u` (`CIX` apart). -/
def Completes (i : Instr) (s u : State) : Prop :=
  match i with
  | .nop => u = s
  | .li rd imm => u = s.setX rd imm
  | .csrr rd csr => u = s.setX rd (s.readCsr csr)
  | .csrw csr rs => ∃ n, csrLimit s.cfg csr = some n ∧ (s.readX rs).toNat ≤ n ∧ u = s.writeCsr csr (s.readX rs)
  | .lde rd rb imm => s.ea rb imm < 2 * s.cfg.paycap ∧ u = s.setX rd (s.element .e (s.ea rb imm))
  | .ldw rd rb imm => s.ea rb imm < s.cfg.wcap ∧ u = s.setX rd (s.element .w (s.ea rb imm))
  | .stw rs rb imm => s.ea rb imm < s.cfg.wcap ∧ (s.readX rs).toNat ≤ 255 ∧
      u = s.setW (s.w.write (s.ea rb imm) ((s.readX rs).setWidth 8))
  | .ldb rd rb imm => s.ea rb imm < bodyLen ∧ u = s.setX rd (s.element .b (s.ea rb imm))
  | .stb rs rb imm => s.ea rb imm < bodyLen ∧ (s.readX rs).toNat ≤ 255 ∧
      u = s.setB (s.b.write (s.ea rb imm) ((s.readX rs).setWidth 8))
  | .ldp rd rb imm => s.ea rb imm < s.cfg.nleaf ∧ u = s.setX rd (s.element .p (s.ea rb imm))
  | .stp rs rb imm => s.ea rb imm < s.cfg.nleaf ∧ u = s.setP (s.p.write (s.ea rb imm) (s.readX rs))
  | .ldn rd rb imm => s.ea rb imm < nameCap ∧ u = s.setX rd (s.element .n (s.ea rb imm))
  | .stn rs rb imm => s.ea rb imm < nameCap ∧ (s.readX rs).toNat ≤ 255 ∧
      u = s.setName (s.name.write (s.ea rb imm) ((s.readX rs).setWidth 8))
  | .rdbits rd rs1 start width => validGeometry start.toNat width.toNat ∧ (s.readX rs1).toNat ≤ 255 ∧
      u = s.setX rd ((readBits ((s.readX rs1).setWidth 8) start.toNat width.toNat).setWidth 16)
  | .wrbits rd rs1 rs2 start width => validGeometry start.toNat width.toNat ∧ (s.readX rs1).toNat ≤ 255 ∧
      (s.readX rs2).toNat ≤ 2 ^ width.toNat - 1 ∧
      u = s.setX rd ((writeBits ((s.readX rs1).setWidth 8) ((s.readX rs2).setWidth 8) start.toNat
        width.toNat).setWidth 16)
  | .rd10 rd rs1 rs2 off => validOffset off.toNat ∧ (s.readX rs1).toNat ≤ 255 ∧ (s.readX rs2).toNat ≤ 255 ∧
      u = s.setX rd (read10 ((s.readX rs1).setWidth 8) ((s.readX rs2).setWidth 8) off.toNat)
  | .wr10 rd rs1 off => ∃ rd1 rd2, nextTwo rd = some (rd1, rd2) ∧ validOffset off.toNat ∧
      (s.readX rs1).toNat ≤ 1023 ∧
      u = ((s.setX rd ((highByte (s.readX rs1)).setWidth 16)).setX rd1
        ((lowBitsAtOffset (s.readX rs1) off.toNat).setWidth 16)).setX rd2 ((clearMask off.toNat).setWidth 16)
  | .mrg10 rd rs1 rs2 off => validOffset off.toNat ∧ (s.readX rs1).toNat ≤ 255 ∧ (s.readX rs2).toNat ≤ 1023 ∧
      u = s.setX rd ((mergeLow ((s.readX rs1).setWidth 8) (s.readX rs2) off.toNat).setWidth 16)
  | .bipdec rd rs1 => (s.readX rs1).toNat ≤ 1023 ∧ u = s.setX rd (tc16 (bipDecode (s.readX rs1)))
  | .bipenc rd rs1 => validLogical (signed16 (s.readX rs1)) ∧ u = s.setX rd (bipEncode (signed16 (s.readX rs1)))
  | .unpkg ri bi => (s.readX ri).toNat + 8 ≤ s.cfg.wcap ∧ (s.readX bi).toNat + 7 ≤ bodyLen ∧
      u = s.setB (s.b.writeRange (s.readX bi).toNat
        (unpackGroup s.cfg.carrierOrder (s.w.readRange (s.readX ri).toNat 8)))
  | .pkg ri bi => (s.readX bi).toNat + 7 ≤ bodyLen ∧ (s.readX ri).toNat + 8 ≤ s.cfg.wcap ∧
      u = s.setW (s.w.writeRange (s.readX ri).toNat
        (packGroup s.cfg.carrierOrder (s.b.readRange (s.readX bi).toNat 7)))
  | .unpkall ri bi rn => (s.readX rn).toNat % 8 = 0 ∧ (s.readX ri).toNat + (s.readX rn).toNat ≤ s.cfg.wcap ∧
      (s.readX bi).toNat + 7 * ((s.readX rn).toNat / 8) ≤ bodyLen ∧
      u = s.setB (s.b.writeRange (s.readX bi).toNat
        (unpackAll s.cfg.carrierOrder (s.w.readRange (s.readX ri).toNat (s.readX rn).toNat)))
  | .pkall ri bi rn => (s.readX rn).toNat % 7 = 0 ∧ (s.readX bi).toNat + (s.readX rn).toNat ≤ bodyLen ∧
      (s.readX ri).toNat + 8 * ((s.readX rn).toNat / 7) ≤ s.cfg.wcap ∧
      u = s.setW (s.w.writeRange (s.readX ri).toNat
        (packAll s.cfg.carrierOrder (s.b.readRange (s.readX bi).toNat (s.readX rn).toNat)))
  | .validate => u = s.commitResult (validate s.cfg.paycap s.w s.wlen)
  | .parse => (∃ r, parseMessage s.cfg s.w s.wlen = .error r ∧ u = s.commitResult r) ∨
      ∃ body, parseMessage s.cfg s.w s.wlen = .ok body ∧
        u = (s.setB (Sparse.ofList body)).commitResult Result.success
  | .fldrd rd rb imm => ∃ l, s.cfg.leaves[s.ea rb imm]? = some l ∧ u = s.setX rd (readField l s.b)
  | .fldwr rs rb imm => ∃ l, s.cfg.leaves[s.ea rb imm]? = some l ∧ inRange l (s.readX rs) = true ∧
      u = s.setB (writeField l s.b (s.readX rs))
  | .decode => (∃ r, parseMessage s.cfg s.w s.wlen = .error r ∧ u = s.notDecoded r) ∨
      ∃ body, parseMessage s.cfg s.w s.wlen = .ok body ∧ u = s.decoded (Sparse.ofList body)
  | .encode => missingSections s.cfg s.psec = 0 ∧
      ∃ t, encodeBody s.cfg s.p s.name s.namelen.toNat s.psec = .ok t ∧ u = s.encoded t
  | .safeenc =>
      (missingSections s.cfg s.psec ≠ 0 ∧
        u = s.commitResult (Result.missingSections (missingSections s.cfg s.psec))) ∨
      (missingSections s.cfg s.psec = 0 ∧
        ((∃ k v, encodeBody s.cfg s.p s.name s.namelen.toNat s.psec = .error (k, v) ∧
          u = s.commitResult (Result.outOfRange k v)) ∨
        ∃ t, encodeBody s.cfg s.p s.name s.namelen.toNat s.psec = .ok t ∧ u = s.encoded t))

/-- Each command runs in the frame of R241, R244 and R46, and completes only as `Completes` says. -/
theorem exec_eq_command (i : Instr) (s : State) :
    ∃ body, exec i s = s.command body ∧ ∀ u, body = .ok u → Completes i s u := by
  cases i
  case nop => exact ⟨.ok s, rfl, fun u h => (Except.ok.inj h).symm⟩
  case li rd imm => exact ⟨.ok (s.setX rd imm), rfl, fun u h => (Except.ok.inj h).symm⟩
  case csrr rd csr => exact ⟨.ok (s.setX rd (s.readCsr csr)), rfl, fun u h => (Except.ok.inj h).symm⟩
  case validate =>
    exact ⟨.ok (s.commitResult (validate s.cfg.paycap s.w s.wlen)), rfl, fun u h => (Except.ok.inj h).symm⟩
  all_goals refine ⟨_, rfl, fun u h => ?_⟩
  all_goals simp only [Completes]
  case csrw csr rs =>
    split at h
    · cases h
    · rename_i n hn
      rw [requireValue_eq_ok] at h
      exact ⟨n, hn, h.1, (Except.ok.inj h.2).symm⟩
  case lde => exact State.load_eq_ok.mp h
  case ldw => exact State.load_eq_ok.mp h
  case ldb => exact State.load_eq_ok.mp h
  case ldp => exact State.load_eq_ok.mp h
  case ldn => exact State.load_eq_ok.mp h
  case stw => exact State.storeByte_eq_ok.mp h
  case stb => exact State.storeByte_eq_ok.mp h
  case stn => exact State.storeByte_eq_ok.mp h
  case stp => rw [requireIndex_eq_ok] at h; exact ⟨h.1, (Except.ok.inj h.2).symm⟩
  case rdbits => rw [requireGeometry_eq_ok, requireByte_eq_ok] at h; exact ⟨h.1, h.2.1, (Except.ok.inj h.2.2).symm⟩
  case wrbits =>
    rw [requireGeometry_eq_ok, requireByte_eq_ok, requireValue_eq_ok] at h
    exact ⟨h.1, h.2.1, h.2.2.1, (Except.ok.inj h.2.2.2).symm⟩
  case rd10 =>
    rw [requireOffset_eq_ok, requireByte_eq_ok, requireByte_eq_ok] at h
    exact ⟨h.1, h.2.1, h.2.2.1, (Except.ok.inj h.2.2.2).symm⟩
  case wr10 =>
    split at h
    · cases h
    · rename_i rd1 rd2 hn
      rw [requireOffset_eq_ok, requireValue_eq_ok] at h
      exact ⟨rd1, rd2, hn, h.1, h.2.1, (Except.ok.inj h.2.2).symm⟩
  case mrg10 =>
    rw [requireOffset_eq_ok, requireByte_eq_ok, requireValue_eq_ok] at h
    exact ⟨h.1, h.2.1, h.2.2.1, (Except.ok.inj h.2.2.2).symm⟩
  case bipdec => rw [requireValue_eq_ok] at h; exact ⟨h.1, (Except.ok.inj h.2).symm⟩
  case bipenc => rw [require_eq_ok] at h; exact ⟨h.1, (Except.ok.inj h.2).symm⟩
  case unpkg => rw [requireRange_eq_ok, requireRange_eq_ok] at h; exact ⟨h.1, h.2.1, (Except.ok.inj h.2.2).symm⟩
  case pkg => rw [requireRange_eq_ok, requireRange_eq_ok] at h; exact ⟨h.1, h.2.1, (Except.ok.inj h.2.2).symm⟩
  case unpkall =>
    rw [requireMultiple_eq_ok, requireRange_eq_ok, requireRange_eq_ok] at h
    exact ⟨h.1, h.2.1, h.2.2.1, (Except.ok.inj h.2.2.2).symm⟩
  case pkall =>
    rw [requireMultiple_eq_ok, requireRange_eq_ok, requireRange_eq_ok] at h
    exact ⟨h.1, h.2.1, h.2.2.1, (Except.ok.inj h.2.2.2).symm⟩
  case parse =>
    split at h
    · rename_i r hr; cases h; exact Or.inl ⟨r, hr, rfl⟩
    · rename_i body hb; cases h; exact Or.inr ⟨body, hb, rfl⟩
  case fldrd =>
    split at h
    · cases h
    · rename_i l hl; cases h; exact ⟨l, hl, rfl⟩
  case fldwr =>
    split at h
    · cases h
    · rename_i l hl; rw [require_eq_ok] at h; exact ⟨l, hl, h.1, (Except.ok.inj h.2).symm⟩
  case decode =>
    split at h
    · rename_i r hr; cases h; exact Or.inl ⟨r, hr, rfl⟩
    · rename_i body hb; cases h; exact Or.inr ⟨body, hb, rfl⟩
  case encode =>
    rw [require_eq_ok] at h
    obtain ⟨h0, h⟩ := h
    split at h
    · cases h
    · rename_i t ht; cases h; exact ⟨h0, t, ht, rfl⟩
  case safeenc =>
    split at h
    · rename_i h0; cases h; exact Or.inl ⟨h0, rfl⟩
    · rename_i h0
      refine Or.inr ⟨not_not.mp h0, ?_⟩
      split at h
      · rename_i k v hk; cases h; exact Or.inl ⟨k, v, hk, rfl⟩
      · rename_i t ht; cases h; exact Or.inr ⟨t, ht, rfl⟩

/-- Everything a command can do: it is refused, it completes, or it takes a fault. -/
theorem exec_cases {i : Instr} {s t : State} (h : exec i s = .next t) :
    (s.faulted = true ∧ t = s) ∨ (s.faulted = false ∧ ∃ u, Completes i s u ∧ t = u.advance) ∨
      (s.faulted = false ∧ ∃ r, t = s.takeFault r) := by
  obtain ⟨body, hb, hc⟩ := exec_eq_command i s
  rw [hb, State.command_eq_next] at h
  rcases h with h | ⟨hf, u, hu, ht⟩ | ⟨hf, r, -, ht⟩
  · exact Or.inl h
  · exact Or.inr (Or.inl ⟨hf, u, hc u hu, ht⟩)
  · exact Or.inr (Or.inr ⟨hf, r, ht⟩)

/-- What no completing command writes: the parameters, the fault registers, the transactions to come, and `CIX` before
it advances. -/
theorem Completes.keeps {i : Instr} {s u : State} (h : Completes i s u) :
    u.faulted = s.faulted ∧ u.cfg = s.cfg ∧ u.cix = s.cix ∧ u.host = s.host ∧ u.fcause = s.fcause ∧
      u.finfo = s.finfo ∧ u.fcix = s.fcix := by
  cases i <;> simp only [Completes] at h
  case csrw => obtain ⟨n, -, -, rfl⟩ := h; simp
  case parse => rcases h with ⟨r, -, rfl⟩ | ⟨r, -, rfl⟩ <;> simp
  case decode => rcases h with ⟨r, -, rfl⟩ | ⟨r, -, rfl⟩ <;> simp [State.decoded, State.notDecoded]
  case encode => obtain ⟨-, r, -, rfl⟩ := h; simp [State.encoded]
  case safeenc => rcases h with ⟨-, rfl⟩ | ⟨-, ⟨k, v, -, rfl⟩ | ⟨t, -, rfl⟩⟩ <;> simp [State.encoded]
  case wr10 => obtain ⟨_, _, -, -, -, rfl⟩ := h; simp
  case fldrd => obtain ⟨_, -, rfl⟩ := h; simp
  case fldwr => obtain ⟨_, -, -, rfl⟩ := h; simp
  all_goals first
    | (subst h; simp)
    | (obtain ⟨_, rfl⟩ := h; simp)
    | (obtain ⟨_, _, rfl⟩ := h; simp)
    | (obtain ⟨_, _, _, rfl⟩ := h; simp)

end Sys2Proof.Machine
end

