-- ==== Sys2Proof/Laws/Fields.lean ====
section
/-! SUPPORT. The fields of a command word and the word of its fields (spec/30_encoding.md R81, R88), register numbers
and registers. -/

namespace Sys2Proof

@[simp] theorem Reg.ofNumber_number (r : Reg) : Reg.ofNumber r.number = r := by cases r <;> rfl

@[simp] theorem Reg.number_ofNumber (n : BitVec 3) : (Reg.ofNumber n).number = n := by
  revert n; decide

@[simp] theorem Csr.ofNumber_number (c : Csr) : Csr.ofNumber c.number = c := by cases c <;> rfl

@[simp] theorem Csr.number_ofNumber (n : BitVec 4) : (Csr.ofNumber n).number = n := by
  revert n; decide

/-- The fields of the word of `f` are `f`. -/
theorem Fields.ofWord_toWord (f : Fields) : Fields.ofWord f.toWord = f := by
  obtain ⟨op, ra, rb, rc, z, imm⟩ := f
  simp only [Fields.ofWord, Fields.toWord, Fields.mk.injEq]
  refine ⟨?_, ?_, ?_, ?_, ?_, ?_⟩ <;> refine BitVec.eq_of_getLsbD_eq fun i hi => ?_ <;>
    simp only [BitVec.getLsbD_extractLsb', BitVec.getLsbD_append, hi, decide_true, Bool.true_and] <;>
    (repeat' split) <;> first | omega | (congr 1; omega)

/-- The word of the fields of `c` is `c`. -/
theorem Fields.toWord_ofWord (c : Command) : (Fields.ofWord c).toWord = c := by
  refine BitVec.eq_of_getLsbD_eq fun i hi => ?_
  simp only [Fields.ofWord, Fields.toWord, BitVec.getLsbD_append, BitVec.getLsbD_extractLsb']
  (repeat' split) <;> (rw [decide_eq_true (by omega), Bool.true_and]; congr 1; omega)

theorem Fields.toWord_injective {f g : Fields} (h : f.toWord = g.toWord) : f = g := by
  rw [← Fields.ofWord_toWord f, h, Fields.ofWord_toWord]

/-- A word under a mask, field by field. -/
theorem Fields.toWord_and (f g : Fields) :
    f.toWord &&& g.toWord =
      Fields.toWord ⟨f.op &&& g.op, f.ra &&& g.ra, f.rb &&& g.rb, f.rc &&& g.rc, f.z &&& g.z, f.imm &&& g.imm⟩ := by
  refine BitVec.eq_of_getLsbD_eq fun i hi => ?_
  simp only [Fields.toWord, BitVec.getLsbD_and, BitVec.getLsbD_append]
  (repeat' split) <;> rfl

/-! ### Immediate fields -/

theorem extract_geometryImm (start : BitVec 3) (width : BitVec 4) :
    (geometryImm start width).extractLsb' 0 3 = start ∧ (geometryImm start width).extractLsb' 4 4 = width ∧
      (geometryImm start width).extractLsb' 8 8 = 0 ∧ (geometryImm start width).extractLsb' 3 1 = 0 := by
  revert start width; decide

theorem extract_offsetImm (off : BitVec 3) :
    (offsetImm off).extractLsb' 0 3 = off ∧ (offsetImm off).extractLsb' 3 13 = 0 := by
  revert off; decide

theorem extract_csrImm (csr : Csr) :
    (csrImm csr).extractLsb' 0 4 = csr.number ∧ (csrImm csr).extractLsb' 4 12 = 0 := by
  cases csr <;> decide

/-- A field of zeros has no bit set. -/
theorem getLsbD_of_extract_eq_zero {imm : Word} {a n : Nat} (h : imm.extractLsb' a n = 0) {i : Nat} (hi : a ≤ i)
    (hn : i < a + n) : imm.getLsbD i = false := by
  have := congrArg (fun v : BitVec n => v.getLsbD (i - a)) h
  simpa [show i - a < n by omega, show a + (i - a) = i by omega] using this

theorem getLsbD_zero_field {n i : Nat} : (0 : BitVec n).getLsbD i = false := BitVec.getLsbD_zero

theorem geometryImm_of_extract {imm : Word} (h : imm.extractLsb' 8 8 = 0) (h3 : imm.extractLsb' 3 1 = 0) :
    geometryImm (imm.extractLsb' 0 3) (imm.extractLsb' 4 4) = imm := by
  refine BitVec.eq_of_getLsbD_eq fun i hi => ?_
  simp only [geometryImm, BitVec.getLsbD_append, BitVec.getLsbD_extractLsb', getLsbD_zero_field]
  split
  · rw [decide_eq_true (by omega), Bool.true_and, Nat.zero_add]
  · split
    · exact (getLsbD_of_extract_eq_zero h3 (by omega) (by omega)).symm
    · split
      · rw [decide_eq_true (by omega), Bool.true_and]
        congr 1
        omega
      · exact (getLsbD_of_extract_eq_zero h (by omega) (by omega)).symm

theorem offsetImm_of_extract {imm : Word} (h : imm.extractLsb' 3 13 = 0) :
    offsetImm (imm.extractLsb' 0 3) = imm := by
  refine BitVec.eq_of_getLsbD_eq fun i hi => ?_
  simp only [offsetImm, BitVec.getLsbD_append, BitVec.getLsbD_extractLsb', getLsbD_zero_field]
  split
  · rw [decide_eq_true (by omega), Bool.true_and, Nat.zero_add]
  · exact (getLsbD_of_extract_eq_zero h (by omega) (by omega)).symm

theorem csrImm_of_extract {imm : Word} (h : imm.extractLsb' 4 12 = 0) :
    csrImm (Csr.ofNumber (imm.extractLsb' 0 4)) = imm := by
  refine BitVec.eq_of_getLsbD_eq fun i hi => ?_
  simp only [csrImm, Csr.number_ofNumber, BitVec.getLsbD_append, BitVec.getLsbD_extractLsb', getLsbD_zero_field]
  split
  · rw [decide_eq_true (by omega), Bool.true_and, Nat.zero_add]
  · exact (getLsbD_of_extract_eq_zero h (by omega) (by omega)).symm

theorem inFormat_eq_ok {fmt : Format} {f : Fields} {i j : Instr} :
    inFormat fmt f i = .ok j ↔ fmt.fits f = true ∧ i = j := by
  unfold inFormat
  split <;> simp_all

theorem withRoom_eq_ok {i j : Instr} : withRoom i = .ok j ↔ i.wf = true ∧ i = j := by
  unfold withRoom
  split <;> simp_all

end Sys2Proof
end

