-- ==== Sys2Proof/Laws/Space.lean ====
section
/-! SUPPORT. What the operations over an index space do: reads after writes, and the canonical form. -/

namespace Sys2Proof.Machine

theorem memory_is_cells : Memory = List Host.Cell := rfl

namespace Sparse

variable {w : Nat}

@[simp] theorem read_nil (a : Nat) : Sparse.read ([] : Sparse w) a = 0 := rfl

theorem read_cons (c : Nat × BitVec w) (m : Sparse w) (a : Nat) :
    Sparse.read (c :: m) a = if c.1 = a then c.2 else Sparse.read m a := rfl

/-- A read at an index nothing is listed for. -/
theorem read_of_forall_ne {m : Sparse w} {a : Nat} (h : ∀ c ∈ m, c.1 ≠ a) : m.read a = 0 := by
  induction m with
  | nil => rfl
  | cons c m ih =>
    rw [read_cons, if_neg (h c (by simp)), ih fun d hd => h d (by simp [hd])]

theorem read_append (m n : Sparse w) (a : Nat) :
    Sparse.read (m ++ n) a = if ∃ c ∈ m, c.1 = a then m.read a else n.read a := by
  induction m with
  | nil => simp
  | cons c m ih =>
    by_cases hc : c.1 = a
    · simp [read_cons, hc]
    · simp [read_cons, hc, ih]

theorem read_filter (m : Sparse w) (f : Nat → Bool) (a : Nat) :
    Sparse.read (m.filter fun c => f c.1) a = if f a then m.read a else 0 := by
  induction m with
  | nil => simp
  | cons c m ih =>
    by_cases hc : f c.1 <;> by_cases ha : c.1 = a
    · subst ha; simp [hc, read_cons]
    · simp [hc, read_cons, ih, ha]
    · subst ha; simp [hc, ih]
    · simp [hc, read_cons, ih, ha]

theorem mem_cells {a : Nat} {vs : List (BitVec w)} {c : Nat × BitVec w} (h : c ∈ cells a vs) :
    a ≤ c.1 ∧ c.1 < a + vs.length ∧ c.2 ≠ 0 := by
  induction vs generalizing a with
  | nil => simp [cells] at h
  | cons v vs ih =>
    by_cases hv : v = unlisted w
    · rw [cells, if_pos hv] at h
      obtain ⟨h1, h2, h3⟩ := ih h
      exact ⟨by omega, by simp only [List.length_cons]; omega, h3⟩
    · rw [cells, if_neg hv, List.mem_cons] at h
      rcases h with rfl | h
      · exact ⟨le_refl _, by simp only [List.length_cons]; omega, hv⟩
      · obtain ⟨h1, h2, h3⟩ := ih h
        exact ⟨by omega, by simp only [List.length_cons]; omega, h3⟩

theorem read_cells (a : Nat) (vs : List (BitVec w)) (i : Nat) :
    (cells a vs).read i = if a ≤ i then vs.getD (i - a) 0 else 0 := by
  induction vs generalizing a with
  | nil => simp [cells]
  | cons v vs ih =>
    by_cases hi : i = a
    · subst hi
      by_cases hv : v = unlisted w
      · rw [cells, if_pos hv, ih]; simp [hv, unlisted]
      · rw [cells, if_neg hv, read_cons]; simp
    · have tail : (cells (a + 1) vs).read i = if a ≤ i then (v :: vs).getD (i - a) 0 else 0 := by
        rw [ih]
        by_cases h : a ≤ i
        · obtain ⟨k, rfl⟩ : ∃ k, i = a + 1 + k := ⟨i - a - 1, by omega⟩
          have : a + 1 + k - a = k + 1 := by omega
          simp [this, show a ≤ a + 1 + k by omega]
        · simp [h, show ¬ a + 1 ≤ i by omega]
      by_cases hv : v = unlisted w
      · rw [cells, if_pos hv, tail]
      · rw [cells, if_neg hv, read_cons, if_neg (by simpa using fun h => hi h.symm), tail]

/-- A read after a range write: the written value inside the range, the old one outside. -/
theorem read_writeRange (m : Sparse w) (a : Nat) (vs : List (BitVec w)) (i : Nat) :
    (m.writeRange a vs).read i = if a ≤ i ∧ i < a + vs.length then vs.getD (i - a) 0 else m.read i := by
  unfold writeRange
  rw [read_append, read_append, read_filter m (fun n => decide (n < a)),
    read_filter m (fun n => decide (a + vs.length ≤ n)), read_cells]
  by_cases h1 : i < a
  · have h2 : ¬ a ≤ i := by omega
    by_cases hex : ∃ c ∈ m.filter (fun c => decide (c.1 < a)), c.1 = i
    · rw [if_pos hex, if_pos (by simpa using h1), if_neg (by omega)]
    · have hn : m.read i = 0 := read_of_forall_ne fun c hc hci => hex ⟨c, by simp [hc, hci, h1], hci⟩
      have hc : ¬ ∃ c ∈ cells a vs, c.1 = i := by
        rintro ⟨c, hc, rfl⟩; have := mem_cells hc; omega
      rw [if_neg hex, if_neg hc, if_neg (by simp; omega), if_neg (by omega), hn]
  · have hex : ¬ ∃ c ∈ m.filter (fun c => decide (c.1 < a)), c.1 = i := by
      rintro ⟨c, hc, rfl⟩; simp at hc; omega
    rw [if_neg hex]
    by_cases h3 : i < a + vs.length
    · have h4 : ¬ a + vs.length ≤ i := by omega
      by_cases hc : ∃ c ∈ cells a vs, c.1 = i
      · simp [hc, h3, show a ≤ i by omega]
      · have hz : (cells a vs).read i = 0 := read_of_forall_ne fun c hc' hci => hc ⟨c, hc', hci⟩
        rw [read_cells, if_pos (by omega)] at hz
        simp only [hc, h4, decide_false, Bool.false_eq_true, if_false]
        rw [if_pos ⟨by omega, h3⟩, hz]
    · have hc : ¬ ∃ c ∈ cells a vs, c.1 = i := by
        rintro ⟨c, hc, rfl⟩; have := mem_cells hc; omega
      simp [hc, h3, show a + vs.length ≤ i by omega]

/-- A read after a write. -/
theorem read_write (m : Sparse w) (a : Nat) (v : BitVec w) (i : Nat) :
    (m.write a v).read i = if i = a then v else m.read i := by
  rw [write, read_writeRange]
  by_cases h : i = a
  · subst h; simp
  · rw [if_neg (by simp; omega), if_neg h]

theorem read_ofList (vs : List (BitVec w)) (i : Nat) : (ofList vs).read i = vs.getD i 0 := by
  rw [ofList, read_writeRange]
  by_cases h : i < vs.length
  · simp [h]
  · rw [if_neg (by omega)]; simp [List.getElem?_eq_none (Nat.le_of_not_lt h)]

@[simp] theorem length_readRange (m : Sparse w) (a n : Nat) : (m.readRange a n).length = n := by
  simp [readRange]

@[simp] theorem getElem_readRange (m : Sparse w) (a n i : Nat) (h : i < (m.readRange a n).length) :
    (m.readRange a n)[i] = m.read (a + i) := by simp [readRange]

theorem getD_readRange (m : Sparse w) (a n i : Nat) :
    (m.readRange a n).getD i 0 = if i < n then m.read (a + i) else 0 := by
  by_cases h : i < n <;> simp [readRange, h]

/-! ### The canonical form -/

theorem wfFrom_iff {a : Nat} {m : Sparse w} :
    wfFrom a m = true ↔ (∀ c ∈ m, a ≤ c.1 ∧ c.2 ≠ 0) ∧ m.Pairwise (fun c d => c.1 < d.1) := by
  induction m generalizing a with
  | nil => simp [wfFrom]
  | cons c m ih =>
    obtain ⟨b, v⟩ := c
    simp only [wfFrom, Bool.and_eq_true, decide_eq_true_eq, ih, List.mem_cons, List.pairwise_cons]
    constructor
    · rintro ⟨⟨h1, h2⟩, h3, h4⟩
      refine ⟨?_, fun d hd => (h3 d hd).1, h4⟩
      rintro d (rfl | hd)
      · exact ⟨h1, h2⟩
      · exact ⟨by have := (h3 d hd).1; omega, (h3 d hd).2⟩
    · rintro ⟨h1, h2, h3⟩
      have hb := h1 (b, v) (by simp)
      exact ⟨⟨hb.1, hb.2⟩, fun d hd => ⟨h2 d hd, (h1 d (by simp [hd])).2⟩, h3⟩

theorem wf_iff {m : Sparse w} :
    m.wf = true ↔ (∀ c ∈ m, c.2 ≠ 0) ∧ m.Pairwise (fun c d => c.1 < d.1) := by
  simp [wf, wfFrom_iff]

theorem pairwise_cells (a : Nat) (vs : List (BitVec w)) :
    (cells a vs).Pairwise (fun c d => c.1 < d.1) := by
  induction vs generalizing a with
  | nil => simp [cells]
  | cons v vs ih =>
    by_cases hv : v = unlisted w
    · rw [cells, if_pos hv]; exact ih _
    · rw [cells, if_neg hv, List.pairwise_cons]
      exact ⟨fun d hd => by have := mem_cells hd; simp only; omega, ih _⟩

/-- Every write keeps the canonical form. -/
theorem wf_writeRange {m : Sparse w} (h : m.wf = true) (a : Nat) (vs : List (BitVec w)) :
    (m.writeRange a vs).wf = true := by
  rw [wf_iff] at h ⊢
  obtain ⟨hz, hp⟩ := h
  unfold writeRange
  constructor
  · intro c hc
    simp only [List.mem_append, List.mem_filter] at hc
    rcases hc with hc | hc | hc
    · exact hz c hc.1
    · exact (mem_cells hc).2.2
    · exact hz c hc.1
  · rw [List.pairwise_append, List.pairwise_append]
    refine ⟨hp.filter _, ⟨pairwise_cells a vs, hp.filter _, ?_⟩, ?_⟩
    · intro c hc d hd
      have := mem_cells hc
      simp at hd; omega
    · intro c hc d hd
      simp only [List.mem_filter, decide_eq_true_eq] at hc
      simp only [List.mem_append, List.mem_filter, decide_eq_true_eq] at hd
      rcases hd with hd | hd
      · have := mem_cells hd; omega
      · omega

theorem wf_write {m : Sparse w} (h : m.wf = true) (a : Nat) (v : BitVec w) : (m.write a v).wf = true :=
  wf_writeRange h a [v]

theorem wf_nil : wf ([] : Sparse w) = true := rfl

theorem wf_ofList (vs : List (BitVec w)) : (ofList vs).wf = true := wf_writeRange wf_nil 0 vs

/-- Canonical contents are determined by what they read as. -/
theorem ext_of_wf {m n : Sparse w} (hm : m.wf = true) (hn : n.wf = true) (h : ∀ a, m.read a = n.read a) :
    m = n := by
  rw [wf_iff] at hm hn
  obtain ⟨zm, pm⟩ := hm
  obtain ⟨zn, pn⟩ := hn
  induction m generalizing n with
  | nil =>
    cases n with
    | nil => rfl
    | cons d n =>
      have := h d.1
      rw [read_cons, if_pos rfl] at this
      exact absurd this.symm (zn d (by simp))
  | cons c m ih =>
    cases n with
    | nil =>
      have := h c.1
      rw [read_cons, if_pos rfl] at this
      exact absurd this (zm c (by simp))
    | cons d n =>
      rw [List.pairwise_cons] at pm pn
      have lt_or : ∀ {e f : Nat × BitVec w} {k l : Sparse w}, e.2 ≠ 0 → (∀ g ∈ l, f.1 < g.1) →
          (Sparse.read (e :: k) e.1 = Sparse.read (f :: l) e.1) → f.1 ≤ e.1 := by
        intro e f k l he hl heq
        by_contra hlt
        rw [read_cons, if_pos rfl, read_cons, if_neg (by omega),
          read_of_forall_ne fun g hg => by have := hl g hg; omega] at heq
        exact he heq
      have hcd : c.1 = d.1 := le_antisymm
        (lt_or (zn d (by simp)) pm.1 (h d.1).symm) (lt_or (zm c (by simp)) pn.1 (h c.1))
      have hv : c.2 = d.2 := by
        have := h c.1
        rwa [read_cons, if_pos rfl, read_cons, if_pos hcd.symm] at this
      have hc : c = d := Prod.ext hcd hv
      subst hc
      congr 1
      refine ih (fun a => ?_) (fun e he => zm e (by simp [he])) pm.2 (fun e he => zn e (by simp [he])) pn.2
      by_cases ha : c.1 = a
      · subst ha
        rw [read_of_forall_ne fun e he => by have := pm.1 e he; omega,
          read_of_forall_ne fun e he => by have := pn.1 e he; omega]
      · have := h a
        rwa [read_cons, if_neg ha, read_cons, if_neg ha] at this

/-! ### Bounds -/

theorem below_iff {m : Sparse w} {n : Nat} : m.below n = true ↔ ∀ c ∈ m, c.1 < n := by
  simp [below]

theorem below_nil (n : Nat) : below ([] : Sparse w) n = true := rfl

theorem below_writeRange {m : Sparse w} {n : Nat} (h : m.below n = true) {a : Nat} {vs : List (BitVec w)}
    (hr : a + vs.length ≤ n) : (m.writeRange a vs).below n = true := by
  rw [below_iff] at h ⊢
  intro c hc
  simp only [writeRange, List.mem_append, List.mem_filter] at hc
  rcases hc with hc | hc | hc
  · exact h c hc.1
  · have := mem_cells hc; omega
  · exact h c hc.1

theorem below_write {m : Sparse w} {n : Nat} (h : m.below n = true) {a : Nat} (ha : a < n) (v : BitVec w) :
    (m.write a v).below n = true :=
  below_writeRange h (by simpa using ha)

theorem below_ofList {vs : List (BitVec w)} {n : Nat} (h : vs.length ≤ n) : (ofList vs).below n = true :=
  below_writeRange (below_nil n) (by simpa using h)

theorem read_of_below {m : Sparse w} {n a : Nat} (h : m.below n = true) (ha : n ≤ a) : m.read a = 0 :=
  read_of_forall_ne fun c hc => by have := below_iff.1 h c hc; omega

end Sparse

/-- The canonical form of a byte space is that of an index space. -/
theorem memory_wf_eq (m : Memory) : Memory.wf m = Sparse.wf m := rfl

/-! ### General registers -/

/-- A read after a write of the register file: `x[0]` reads 0 (spec/10_state.md R20). -/
theorem Regs.read_write (x : Regs) (r : Reg) (v : Word) (q : Reg) :
    (x.write r v).read q = if q = .x0 then 0 else if q = r then v else x.read q := by
  cases r <;> cases q <;> rfl

/-- A write leaves every other register alone. -/
theorem Regs.read_write_of_ne (x : Regs) {r q : Reg} (v : Word) (h : q ≠ r) : (x.write r v).read q = x.read q := by
  cases r <;> cases q <;> first | rfl | exact absurd rfl h

@[simp] theorem Regs.read_x0 (x : Regs) : x.read .x0 = 0 := rfl

@[simp] theorem Regs.write_x0 (x : Regs) (v : Word) : x.write .x0 v = x := rfl

end Sys2Proof.Machine
end

