-- ==== Sys2Proof/Laws/Frame.lean ====
section
/-! SUPPORT. The frame functions: the masks and lists of `validate` by index, and when `parse` gives a body
(spec/42_frame.md R145 to R149). -/

namespace Sys2Proof.Machine

/-- The bits of `maskOf`. -/
theorem getLsbD_maskOf (f : Nat → Bool) {n : Nat} (hn : n ≤ 16) (i : Nat) :
    (maskOf f n).getLsbD i = (decide (i < n) && f i) := by
  rw [maskOf, getLsbD_foldl_or, show (0 : Word).getLsbD i = false from BitVec.getLsbD_zero, Bool.false_or]
  have h1 : ∀ j k : Nat, j < 16 → ((1 : Word) <<< j).getLsbD k = decide (k = j) := by
    intro j k hj
    rw [BitVec.getLsbD_shiftLeft]
    by_cases hk : k < 16
    · have : (1 : Word).getLsbD (k - j) = decide (k - j = 0) := by
        have hlt : k - j < 16 := by omega
        revert hlt
        generalize k - j = m
        intro hlt
        interval_cases m <;> rfl
      rw [this]
      by_cases h : k = j
      · simp [h, hj]
      · by_cases hlt : k < j
        · simp [hlt, h]
        · have : ¬k - j = 0 := by omega
          simp [this, h]
    · have : ¬k = j := by omega
      simp [hk, this]
  rw [Bool.eq_iff_iff]
  simp only [List.any_eq_true, List.mem_range, Bool.and_eq_true,
    decide_eq_true_eq]
  constructor
  · rintro ⟨j, hj, h⟩
    split at h
    · rw [h1 j i (by omega), decide_eq_true_eq] at h
      subst h
      exact ⟨hj, by assumption⟩
    · simp at h
  · rintro ⟨hi, hf⟩
    refine ⟨i, hi, ?_⟩
    rw [if_pos hf, h1 i i (by omega)]
    simp

/-- Header byte `i` is wrong or absent exactly when its bit of `EHDRMASK` is set (R145). -/
theorem getLsbD_ehdrmask (paycap : Nat) (w : Memory) (wlen : Word) (i : Nat) :
    (validate paycap w wlen).ehdrmask.getLsbD i = (decide (i < 7) && badHeader w wlen.toNat i) :=
  getLsbD_maskOf _ (by decide) i

/-- The body of a message is there exactly when every structural check and the marker check pass (R148, R149). -/
theorem parseMessage_eq_ok {c : Config} {w : Memory} {wlen : Word} {body : List Byte} :
    parseMessage c w wlen = .ok body ↔
      (validate c.paycap w wlen).valid = true ∧ (messageBody c w).take 4 = c.marker.toList ∧
        body = messageBody c w := by
  unfold parseMessage
  dsimp only
  split
  · rename_i h; simp [h]
  · rename_i h
    split
    · rename_i hm; simp [hm]
    · rename_i hm; simp [h, not_not.mp hm, eq_comm]

/-- Otherwise the structural result or the marker error (R149). -/
theorem parseMessage_eq_error {c : Config} {w : Memory} {wlen : Word} {r : Result} :
    parseMessage c w wlen = .error r ↔
      ((validate c.paycap w wlen).valid = false ∧ r = validate c.paycap w wlen) ∨
        ((validate c.paycap w wlen).valid = true ∧ (messageBody c w).take 4 ≠ c.marker.toList ∧
          r = Result.badMarker) := by
  unfold parseMessage
  dsimp only
  split
  · rename_i h; simp [h, eq_comm]
  · rename_i h
    split
    · rename_i hm; simp [h, hm, eq_comm]
    · rename_i hm; simp [h, not_not.mp hm]

@[simp] theorem length_messageBody (c : Config) (w : Memory) : (messageBody c w).length = bodyLen := by
  simp [messageBody, payLen, bodyLen]

/-- The bits of byte `j` of the body of a message (spec/41_sevenbit.md R126). -/
theorem getLsbD_messageBody (c : Config) (w : Memory) {j : Nat} (hj : j < bodyLen) (i : Nat) :
    ((messageBody c w).getD j 0).getLsbD i =
      if i = 7 then (w.read (7 + 8 * (j / 7))).getLsbD (carrierBit c.carrierOrder (j % 7))
      else decide (i < 7) && (w.read (7 + 8 * (j / 7) + 1 + j % 7)).getLsbD i := by
  have hb : j < 448 := hj
  rw [messageBody, getLsbD_unpackAll _ _ (by simp [payLen]; omega), Sparse.getD_readRange, Sparse.getD_readRange,
    if_pos (show 8 * (j / 7) < payLen by simp [payLen]; omega),
    if_pos (show 8 * (j / 7) + 1 + j % 7 < payLen by simp [payLen]; omega)]
  simp only [hdrLen, Nat.add_assoc]

/-! ### The members of a result -/

theorem length_badPayload (w : Memory) (len : Nat) : (badPayload w len).length ≤ 512 := by
  unfold badPayload
  refine le_trans (List.length_filter_le _ _) ?_
  simp [ftrPos, hdrLen]

/-- The payload bytes of the message that are above 127 (R145). -/
theorem mem_badPayload {w : Memory} {len a : Nat} :
    a ∈ badPayload w len ↔ 7 ≤ a ∧ a ≤ 518 ∧ a < len ∧ 127 < (w.read a).toNat := by
  simp only [badPayload, ftrPos, hdrLen, List.mem_filter, List.mem_map, List.mem_range, decide_eq_true_eq]
  constructor
  · rintro ⟨⟨b, h, rfl⟩, h2⟩; omega
  · rintro ⟨h1, h2, h3, h4⟩; exact ⟨⟨a - 7, by omega, by omega⟩, h4⟩

theorem length_payloadRecords (w : Memory) (l : List Nat) : (payloadRecords w l).length = 2 * l.length := by
  induction l with
  | nil => rfl
  | cons a l ih => simp only [payloadRecords, List.flatMap_cons, List.length_append, List.length_cons,
      List.length_nil] at *; omega

/-- Record `j` of the error list (spec/10_state.md R28). -/
theorem getD_payloadRecords (w : Memory) {l : List Nat} {j a : Nat} (h : l[j]? = some a) :
    (payloadRecords w l).getD (2 * j) 0 = BitVec.ofNat 16 a ∧
      (payloadRecords w l).getD (2 * j + 1) 0 = (w.read a).setWidth 16 := by
  induction l generalizing j with
  | nil => simp at h
  | cons b l ih =>
    cases j with
    | zero => simp at h; subst h; simp [payloadRecords]
    | succ j =>
      have := ih (j := j) (by simpa using h)
      simp only [payloadRecords, List.flatMap_cons] at *
      rw [show 2 * (j + 1) = 2 * j + 1 + 1 by omega]
      simpa using this

/-- The bits of `ERR` that a structural check can set, each on its own condition (spec/10_state.md R38). -/
theorem structural_err_bits : ∀ a b c d : Bool,
    let v := errFlag .elen a ||| errFlag .ehdr b ||| errFlag .eftr c ||| errFlag .epay d
    v.getLsbD 0 = a ∧ v.getLsbD 1 = b ∧ v.getLsbD 2 = c ∧ v.getLsbD 3 = d ∧ v.toNat ≤ 15 ∧
      (v = 0 ↔ a = false ∧ b = false ∧ c = false ∧ d = false) := by decide

/-- `ERR` of a structural result (R145). -/
theorem validate_err (paycap : Nat) (w : Memory) (wlen : Word) :
    (validate paycap w wlen).err =
      (errFlag .elen (decide (wlen.toNat ≠ msgLen)) |||
        errFlag .ehdr (decide (maskOf (badHeader w wlen.toNat) hdrLen ≠ 0)) |||
        errFlag .eftr (badFooter w wlen.toNat) ||| errFlag .epay (decide (badPayload w wlen.toNat ≠ []))) := rfl

theorem maskOf_eq_zero {f : Nat → Bool} {n : Nat} (hn : n ≤ 16) : maskOf f n = 0 ↔ ∀ i < n, f i = false := by
  constructor
  · intro h i hi
    have := getLsbD_maskOf f hn i
    rw [h] at this
    simpa [hi] using this.symm
  · intro h
    refine BitVec.eq_of_getLsbD_eq fun i _ => ?_
    rw [getLsbD_maskOf f hn]
    by_cases hi : i < n
    · rw [h i hi]; simp
    · simp [hi]

theorem readRange_congr {k : Nat} {m n : Sparse k} {a len : Nat} (h : ∀ i, i < len → m.read (a + i) = n.read (a + i)) :
    m.readRange a len = n.readRange a len :=
  List.map_congr_left fun i hi => h i (List.mem_range.mp hi)

/-- A byte whose low seven bits are one byte's and whose top bit is a carrier bit, as a number (R126). -/
theorem toNat_of_carried {x c d : Byte} {k : Nat}
    (h : ∀ i, x.getLsbD i = if i = 7 then c.getLsbD k else decide (i < 7) && d.getLsbD i) :
    x.toNat = d.toNat % 128 + 128 * (c.toNat / 2 ^ k % 2) := by
  have h1 : x = (d &&& 0x7F) ||| ((if c.getLsbD k then 1 else 0) <<< 7) := by
    refine BitVec.eq_of_getLsbD_eq fun i hi => ?_
    rw [h]
    cases c.getLsbD k <;> interval_cases i <;> simp
  have h2 : c.toNat / 2 ^ k % 2 = if c.getLsbD k then 1 else 0 := by
    rw [BitVec.getLsbD, Nat.testBit_eq_decide_div_mod_eq]
    rcases Nat.mod_two_eq_zero_or_one (c.toNat / 2 ^ k) with h | h <;> simp [h]
  rw [h1, h2]
  clear h h1 h2
  generalize c.getLsbD k = q
  revert q d
  decide +revert

end Sys2Proof.Machine
end

