-- ==== Sys2Proof/Laws/Layout.lean ====
section
/-! SUPPORT. Fields bit by bit, for a leaf of an admitted layout (spec/43_layout.md R161 to R170), and what writing a
field keeps of an index space. -/

namespace Sys2Proof.Machine

/-! ### What admission says of one leaf -/

theorem leafWf_range {l : Entry} (h : leafWf l = true) : ∀ q ∈ footprint l, 16 ≤ q.1 ∧ q.1 ≤ 447 := by
  simp only [leafWf, Bool.and_eq_true, List.all_eq_true, decide_eq_true_eq] at h
  exact h.1.1.1

theorem leafWf_bip {l : Entry} (h : leafWf l = true) (hb : l.bip = true) : l.kind = .s10 := by
  simp only [leafWf, Bool.and_eq_true, Bool.or_eq_true, Bool.not_eq_true', decide_eq_true_eq] at h
  rcases h.1.2 with h | h
  · simp [hb] at h
  · exact h

theorem leafWf_sect {l : Entry} (h : leafWf l = true) : l.sect ≤ 9 := by
  simp only [leafWf, Bool.and_eq_true, decide_eq_true_eq] at h
  exact h.2

theorem leafWf_bits {l : Entry} (h : leafWf l = true) (hk : l.kind = .bits) : validGeometry l.start l.width := by
  simp only [leafWf, Bool.and_eq_true, hk, decide_eq_true_eq] at h
  exact h.1.1.2

theorem leafWf_s10 {l : Entry} (h : leafWf l = true) (hk : l.kind = .s10) :
    validOffset l.start ∧ l.off ≠ l.loff := by
  simp only [leafWf, Bool.and_eq_true, hk, decide_eq_true_eq] at h
  exact h.1.1.2

theorem leafWf_barr {l : Entry} (h : leafWf l = true) (hk : l.kind = .barr) : 1 ≤ l.width ∧ l.width ≤ 16 := by
  simp only [leafWf, Bool.and_eq_true, hk, decide_eq_true_eq] at h
  exact h.1.1.2

theorem validOffset_le {off : Nat} (h : validOffset off) : off + 2 ≤ 8 := by
  rcases h with h | h | h | h <;> omega

/-! ### Footprints -/

theorem mem_footprint_byte {l : Entry} (hk : l.kind = .byte) (q : Nat × Nat) :
    q ∈ footprint l ↔ q.1 = l.off ∧ q.2 < 8 := by
  obtain ⟨a, b⟩ := q
  simp only [footprint, hk, List.mem_map, List.mem_range, Prod.mk.injEq]
  constructor
  · rintro ⟨i, hi, rfl, rfl⟩; exact ⟨rfl, hi⟩
  · rintro ⟨rfl, hb⟩; exact ⟨b, hb, rfl, rfl⟩

theorem mem_footprint_bits {l : Entry} (hk : l.kind = .bits) (q : Nat × Nat) :
    q ∈ footprint l ↔ q.1 = l.off ∧ l.start ≤ q.2 ∧ q.2 < l.start + l.width := by
  obtain ⟨a, b⟩ := q
  simp only [footprint, hk, List.mem_map, List.mem_range, Prod.mk.injEq]
  constructor
  · rintro ⟨i, hi, rfl, rfl⟩; exact ⟨rfl, by omega, by omega⟩
  · rintro ⟨rfl, h1, h2⟩; exact ⟨b - l.start, by omega, rfl, by omega⟩

theorem mem_footprint_s10 {l : Entry} (hk : l.kind = .s10) (q : Nat × Nat) :
    q ∈ footprint l ↔ (q.1 = l.off ∧ q.2 < 8) ∨ (q.1 = l.loff ∧ l.start ≤ q.2 ∧ q.2 < l.start + 2) := by
  obtain ⟨a, b⟩ := q
  simp only [footprint, hk, List.mem_append, List.mem_map, List.mem_range, List.mem_cons, List.not_mem_nil,
    or_false, Prod.mk.injEq]
  constructor
  · rintro (⟨i, hi, rfl, rfl⟩ | ⟨rfl, rfl⟩ | ⟨rfl, rfl⟩)
    · exact Or.inl ⟨rfl, hi⟩
    · exact Or.inr ⟨rfl, by omega, by omega⟩
    · exact Or.inr ⟨rfl, by omega, by omega⟩
  · rintro (⟨rfl, hb⟩ | ⟨rfl, h1, h2⟩)
    · exact Or.inl ⟨b, hb, rfl, rfl⟩
    · rcases (show b = l.start ∨ b = l.start + 1 by omega) with h | h
      · exact Or.inr (Or.inl ⟨rfl, h⟩)
      · exact Or.inr (Or.inr ⟨rfl, h⟩)

theorem mem_footprint_barr {l : Entry} (hk : l.kind = .barr) (q : Nat × Nat) :
    q ∈ footprint l ↔ l.off ≤ q.1 ∧ q.2 < 8 ∧ 8 * (q.1 - l.off) + q.2 < l.width := by
  obtain ⟨a, b⟩ := q
  simp only [footprint, hk, List.mem_map, List.mem_range, Prod.mk.injEq]
  constructor
  · rintro ⟨i, hi, rfl, rfl⟩; exact ⟨by omega, by omega, by omega⟩
  · rintro ⟨h1, h2, h3⟩; exact ⟨8 * (a - l.off) + b, h3, by omega, by omega⟩

/-! ### Reading a field -/

theorem readField_byte {l : Entry} (hk : l.kind = .byte) (t : Memory) :
    readField l t = (t.read l.off).setWidth 16 := by
  simp only [readField, hk]

theorem readField_bits {l : Entry} (hk : l.kind = .bits) (t : Memory) :
    readField l t = (readBits (t.read l.off) l.start l.width).setWidth 16 := by
  simp only [readField, hk]

theorem readField_s10 {l : Entry} (hk : l.kind = .s10) (t : Memory) :
    readField l t =
      if l.bip then tc16 (bipDecode (read10 (t.read l.off) (t.read l.loff) l.start))
      else read10 (t.read l.off) (t.read l.loff) l.start := by
  simp only [readField, hk]

/-- The elements of a packed boolean array (R164, R167). -/
theorem getLsbD_readField_barr {l : Entry} (hk : l.kind = .barr) (hw : l.width ≤ 16) (t : Memory) (i : Nat) :
    (readField l t).getLsbD i = (decide (i < l.width) && (t.read (l.off + i / 8)).getLsbD (i % 8)) := by
  have hbit : ∀ j k : Nat, j < 16 →
      ((readBits (t.read (l.off + j / 8)) (j % 8) 1).setWidth 16 <<< j : Word).getLsbD k =
        (decide (k = j) && (t.read (l.off + j / 8)).getLsbD (j % 8)) := by
    intro j k hj
    rw [BitVec.getLsbD_shiftLeft, BitVec.getLsbD_setWidth, getLsbD_readBits]
    by_cases h : k = j
    · subst h; simp [hj]
    · by_cases hlt : k < j
      · simp [hlt, h]
      · simp [h, show ¬k - j < 1 by omega]
  simp only [readField, hk]
  rw [getLsbD_foldl_or, show (0 : Word).getLsbD i = false from BitVec.getLsbD_zero, Bool.false_or, Bool.eq_iff_iff]
  simp only [List.any_eq_true, List.mem_range, Bool.and_eq_true, decide_eq_true_eq]
  constructor
  · rintro ⟨j, hj, h⟩
    rw [hbit j i (by omega), Bool.and_eq_true, decide_eq_true_eq] at h
    obtain ⟨rfl, h⟩ := h
    exact ⟨hj, h⟩
  · rintro ⟨hi, h⟩
    exact ⟨i, hi, by rw [hbit i i (by omega), h]; simp⟩

/-! ### Writing a field -/

theorem writeField_byte {l : Entry} (hk : l.kind = .byte) (t : Memory) (v : Word) :
    writeField l t v = t.write l.off (v.setWidth 8) := by
  simp only [writeField, hk]

theorem writeField_bits {l : Entry} (hk : l.kind = .bits) (t : Memory) (v : Word) :
    writeField l t v = t.write l.off (writeBits (t.read l.off) (v.setWidth 8) l.start l.width) := by
  simp only [writeField, hk]

/-- The raw value a 10-bit field stores (R162, R168). -/
def rawOf (l : Entry) (v : Word) : Word := if l.bip then bipEncode (signed16 v) else v

theorem writeField_s10 {l : Entry} (hk : l.kind = .s10) (hne : l.off ≠ l.loff) (t : Memory) (v : Word) :
    writeField l t v =
      (t.write l.off (highByte (rawOf l v))).write l.loff (mergeLow (t.read l.loff) (rawOf l v) l.start) := by
  simp only [writeField, hk, rawOf]
  rw [Sparse.read_write, if_neg (Ne.symm hne)]

/-- One packed boolean array written up to element `n`. -/
def writeElements (off : Nat) (v : Word) (n : Nat) (t : Memory) : Memory :=
  (List.range n).foldl
    (fun t i => t.write (off + i / 8) (writeBits (t.read (off + i / 8)) (((v >>> i) &&& 1).setWidth 8) (i % 8) 1)) t

theorem writeField_barr {l : Entry} (hk : l.kind = .barr) (t : Memory) (v : Word) :
    writeField l t v = writeElements l.off v l.width t := by
  simp only [writeField, hk, writeElements]

theorem writeElements_succ (off : Nat) (v : Word) (n : Nat) (t : Memory) :
    writeElements off v (n + 1) t =
      (writeElements off v n t).write (off + n / 8)
        (writeBits ((writeElements off v n t).read (off + n / 8)) (((v >>> n) &&& 1).setWidth 8) (n % 8) 1) := by
  simp [writeElements, List.range_succ]

/-- The bits of a packed boolean array that was written up to element `n` (R164, R168). -/
theorem getLsbD_writeElements (off : Nat) (v : Word) (n : Nat) (t : Memory) (a b : Nat) :
    ((writeElements off v n t).read a).getLsbD b =
      if off ≤ a ∧ b < 8 ∧ 8 * (a - off) + b < n then v.getLsbD (8 * (a - off) + b) else (t.read a).getLsbD b := by
  induction n with
  | zero => simp [writeElements]
  | succ n ih =>
    rw [writeElements_succ, Sparse.read_write]
    have hv : ∀ i : Nat, (((v >>> n) &&& 1).setWidth 8 : Byte).getLsbD i = (decide (i = 0) && v.getLsbD n) := by
      intro i
      rw [BitVec.getLsbD_setWidth, BitVec.getLsbD_and, BitVec.getLsbD_ushiftRight]
      have h1 : (1 : Word).getLsbD i = decide (i = 0) := by
        by_cases h : i < 16
        · interval_cases i <;> rfl
        · rw [BitVec.getLsbD_of_ge _ _ (by omega)]; simp; omega
      rw [h1]
      by_cases h : i = 0 <;> simp [h]
    split
    · rename_i hab
      subst hab
      rw [getLsbD_writeBits (by omega) ?_]
      · by_cases h : b = n % 8
        · rw [if_pos (by omega), if_pos (by omega), hv, show b - n % 8 = 0 by omega]
          simp only [decide_true, Bool.true_and]
          congr 1
          omega
        · rw [if_neg (by omega), ih]
          by_cases hc : off ≤ off + n / 8 ∧ b < 8 ∧ 8 * (off + n / 8 - off) + b < n
          · rw [if_pos hc, if_pos (by omega)]
          · rw [if_neg hc, if_neg (by omega)]
      · have h1 : ((v >>> n) &&& 1 : Word).toNat ≤ 1 := by
          rw [BitVec.toNat_and]
          exact Nat.and_le_right
        rw [BitVec.toNat_setWidth]
        omega
    · rename_i hab
      rw [ih]
      by_cases hc : off ≤ a ∧ b < 8 ∧ 8 * (a - off) + b < n
      · rw [if_pos hc, if_pos (by omega)]
      · rw [if_neg hc, if_neg (by omega)]

/-! ### What writing a field keeps -/

theorem wf_writeElements (off : Nat) (v : Word) (n : Nat) {t : Memory} (h : Sparse.wf t = true) :
    Sparse.wf (writeElements off v n t) = true := by
  induction n with
  | zero => exact h
  | succ n ih => rw [writeElements_succ]; exact Sparse.wf_write ih _ _

theorem below_writeElements {off : Nat} (v : Word) (n : Nat) {t : Memory} {m : Nat} (h : t.below m = true)
    (hm : ∀ i < n, off + i / 8 < m) : (writeElements off v n t).below m = true := by
  induction n with
  | zero => exact h
  | succ n ih =>
    rw [writeElements_succ]
    exact Sparse.below_write (ih fun i hi => hm i (by omega)) (hm n (by omega)) _

/-- Writing a field keeps the canonical form. -/
theorem wf_writeField (l : Entry) (v : Word) {t : Memory} (h : Sparse.wf t = true) :
    Sparse.wf (writeField l t v) = true := by
  cases hk : l.kind with
  | byte => rw [writeField_byte hk]; exact Sparse.wf_write h _ _
  | bits => rw [writeField_bits hk]; exact Sparse.wf_write h _ _
  | s10 => simp only [writeField, hk]; exact Sparse.wf_write (Sparse.wf_write h _ _) _ _
  | barr => rw [writeField_barr hk]; exact wf_writeElements _ _ _ h

/-- Writing a leaf of an admitted layout stays inside the body. -/
theorem below_writeField {l : Entry} (hl : leafWf l = true) (v : Word) {t : Memory} (h : t.below bodyLen = true) :
    (writeField l t v).below bodyLen = true := by
  have hr := leafWf_range hl
  cases hk : l.kind with
  | byte =>
    have := hr (l.off, 0) ((mem_footprint_byte hk _).mpr ⟨rfl, by omega⟩)
    rw [writeField_byte hk]
    exact Sparse.below_write h (by simp [bodyLen] at *; omega) _
  | bits =>
    have hg := leafWf_bits hl hk
    have := hr (l.off, l.start) ((mem_footprint_bits hk _).mpr ⟨rfl, le_refl _, by simp; omega⟩)
    rw [writeField_bits hk]
    exact Sparse.below_write h (by simp [bodyLen] at *; omega) _
  | s10 =>
    have h1 := hr (l.off, 0) ((mem_footprint_s10 hk _).mpr (Or.inl ⟨rfl, by omega⟩))
    have h2 := hr (l.loff, l.start) ((mem_footprint_s10 hk _).mpr (Or.inr ⟨rfl, le_refl _, by simp⟩))
    rw [writeField_s10 hk (leafWf_s10 hl hk).2]
    exact Sparse.below_write (Sparse.below_write h (by simp [bodyLen] at *; omega) _)
      (by simp [bodyLen] at *; omega) _
  | barr =>
    have hw := leafWf_barr hl hk
    rw [writeField_barr hk]
    refine below_writeElements v l.width h fun i hi => ?_
    have := hr (l.off + i / 8, i % 8) ((mem_footprint_barr hk _).mpr
      ⟨by simp, by simp; omega, by simp; omega⟩)
    simp [bodyLen] at *
    omega

/-! ### The leaves -/

theorem leaf_of_getElem? {c : Config} {k : Nat} {l : Entry} (h : c.leaves[k]? = some l) : l ∈ c.leaves :=
  List.mem_of_getElem? h

theorem leaf_lt {c : Config} {k : Nat} {l : Entry} (h : c.leaves[k]? = some l) : k < c.nleaf := by
  rw [List.getElem?_eq_some_iff] at h
  exact h.1

/-- Different leaves of an admitted layout share no bit (condition 2 of R170). -/
theorem disjoint_leaves {c : Config} (h : wfLayout c.layout) {j k : Nat} {l l' : Entry} (hj : c.leaves[j]? = some l)
    (hk : c.leaves[k]? = some l') (hne : j ≠ k) : ∀ q ∈ footprint l, q ∉ footprint l' := by
  have hp := List.pairwise_iff_getElem.mp h.2.1
  rw [List.getElem?_eq_some_iff] at hj hk
  obtain ⟨hj, rfl⟩ := hj
  obtain ⟨hk, rfl⟩ := hk
  rcases Nat.lt_or_gt_of_ne hne with h | h
  · exact hp j k hj hk h
  · exact fun q hq hq' => hp k j hk hj h q hq' hq

/-! ### Fields as numbers -/

theorem toNat_readBits (b : Byte) (start : Nat) {width : Nat} (h : width ≤ 8) :
    (readBits b start width).toNat = b.toNat / 2 ^ start % 2 ^ width := by
  have : 2 ^ width ≤ 2 ^ 8 := Nat.pow_le_pow_right (by omega) h
  have : 0 < 2 ^ width := by positivity
  rw [readBits, BitVec.toNat_and, BitVec.toNat_ushiftRight, widthMask, BitVec.toNat_ofNat,
    Nat.mod_eq_of_lt (a := 2 ^ width - 1) (by omega), Nat.and_two_pow_sub_one_eq_mod, Nat.shiftRight_eq_div_pow]

theorem toNat_read10 (high low : Byte) (off : Nat) :
    (read10 high low off).toNat = 4 * high.toNat + low.toNat / 2 ^ off % 4 := by
  have h1 : (high.setWidth 16 <<< 2 : Word).toNat = high.toNat <<< 2 := by
    simp only [BitVec.toNat_shiftLeft, BitVec.toNat_setWidth, Nat.shiftLeft_eq]
    have := high.isLt
    omega
  have h2 : (((low >>> off) &&& 3).setWidth 16 : Word).toNat = low.toNat / 2 ^ off % 4 := by
    rw [BitVec.toNat_setWidth, BitVec.toNat_and, BitVec.toNat_ushiftRight, show (3 : Byte).toNat = 2 ^ 2 - 1 from rfl,
      Nat.and_two_pow_sub_one_eq_mod, Nat.shiftRight_eq_div_pow]
    omega
  rw [read10, BitVec.toNat_or, h1, h2, ← Nat.shiftLeft_add_eq_or_of_lt (by omega), Nat.shiftLeft_eq]
  omega

theorem validLogical_signed16 (v : Word) : validLogical (signed16 v) ↔ v.toNat ≤ 0x01FF ∨ 0xFE00 ≤ v.toNat := by
  rw [signed16, BitVec.toInt_eq_toNat_cond]
  have := v.isLt
  split <;> omega

/-! ### Checking that no two leaves overlap -/

/-- No position of the list is listed twice or set in `seen`, position `(a, b)` being bit `8 * a + b`. -/
def fresh (seen : Nat) (ps : List (Nat × Nat)) : Bool :=
  match ps with
  | [] => true
  | q :: rest => !seen.testBit (8 * q.1 + q.2) && fresh (seen ||| 2 ^ (8 * q.1 + q.2)) rest

theorem nodup_of_fresh {seen : Nat} {ps : List (Nat × Nat)} (h : fresh seen ps = true) :
    ps.Nodup ∧ ∀ q ∈ ps, seen.testBit (8 * q.1 + q.2) = false := by
  induction ps generalizing seen with
  | nil => simp
  | cons q rest ih =>
    simp only [fresh, Bool.and_eq_true, Bool.not_eq_true'] at h
    obtain ⟨h1, h2⟩ := ih h.2
    have h3 : ∀ r ∈ rest, r ≠ q ∧ seen.testBit (8 * r.1 + r.2) = false := by
      intro r hr
      have := h2 r hr
      rw [Nat.testBit_or, Bool.or_eq_false_iff, Nat.testBit_two_pow] at this
      exact ⟨fun e => by simp [e] at this, this.1⟩
    refine ⟨List.nodup_cons.mpr ⟨fun hm => (h3 q hm).1 rfl, h1⟩, fun r hr => ?_⟩
    rcases List.mem_cons.mp hr with rfl | hr
    · exact h.1
    · exact (h3 r hr).2

/-- A linear check of condition 2 of R170. -/
theorem pairwise_disjoint_of_fresh {ls : List Entry} (h : fresh 0 (ls.flatMap footprint) = true) :
    ls.Pairwise disjoint :=
  (List.nodup_flatMap.mp (nodup_of_fresh h).1).2.imp fun hd _ hq hq' => hd hq hq'

end Sys2Proof.Machine
end

