-- ==== Sys2Proof/Laws/Marshal.lean ====
section
/-! SUPPORT. The marshaller's functions: the walk of the layout, the name, the bytes of a message
(spec/44_marshal.md R201 to R207). -/

namespace Sys2Proof.Machine

/-! ### The walk of the layout -/

/-- The walk gives a body when every leaf of a present section is in range (R205). -/
theorem encodeLeaves_eq_ok {p : Sparse 16} {psec : Word} {k : Nat} {ls : List Entry} (t : Memory)
    (h : ∀ j l, ls[j]? = some l → psec.getLsbD l.sect = true → inRange l (p.read (k + j)) = true) :
    ∃ t', encodeLeaves p psec k ls t = .ok t' := by
  induction ls generalizing k t with
  | nil => exact ⟨t, rfl⟩
  | cons l rest ih =>
    have ih' := fun t => ih (k := k + 1) t fun j l' hj hp => by
      rw [show k + 1 + j = k + (j + 1) by omega]
      exact h (j + 1) l' (by simpa using hj) hp
    unfold encodeLeaves
    by_cases hs : psec.getLsbD l.sect = true
    · have := h 0 l rfl hs
      rw [Nat.add_zero] at this
      rw [if_pos hs, if_pos this]
      exact ih' _
    · rw [if_neg hs]
      exact ih' _

/-- Where the walk gives a body, every leaf of a present section was in range (R205). -/
theorem inRange_of_encodeLeaves {p : Sparse 16} {psec : Word} {k : Nat} {ls : List Entry} {t t' : Memory}
    (h : encodeLeaves p psec k ls t = .ok t') :
    ∀ j l, ls[j]? = some l → psec.getLsbD l.sect = true → inRange l (p.read (k + j)) = true := by
  induction ls generalizing k t with
  | nil => intro j l hj; simp at hj
  | cons l rest ih =>
    unfold encodeLeaves at h
    intro j l' hj hp
    cases j with
    | zero =>
      simp at hj
      subst hj
      rw [if_pos hp] at h
      split at h
      · assumption
      · cases h
    | succ j =>
      rw [show k + (j + 1) = k + 1 + j by omega]
      split at h
      · split at h
        · exact ih h j l' (by simpa using hj) hp
        · cases h
      · exact ih h j l' (by simpa using hj) hp

/-- The walk stops at the first leaf of a present section that is out of range (R205). -/
theorem encodeLeaves_eq_error {p : Sparse 16} {psec : Word} {k i : Nat} {ls : List Entry} (t : Memory) {l : Entry}
    (hi : ls[i]? = some l) (hp : psec.getLsbD l.sect = true) (hr : inRange l (p.read (k + i)) = false)
    (h : ∀ j l, j < i → ls[j]? = some l → psec.getLsbD l.sect = true → inRange l (p.read (k + j)) = true) :
    encodeLeaves p psec k ls t = .error (k + i, p.read (k + i)) := by
  induction ls generalizing k t i with
  | nil => simp at hi
  | cons l' rest ih =>
    unfold encodeLeaves
    cases i with
    | zero =>
      simp at hi
      subst hi
      rw [if_pos hp, if_neg (by simpa using hr)]
      rfl
    | succ i =>
      have ih' := fun t => ih (k := k + 1) (i := i) t (by simpa using hi)
        (by rw [show k + 1 + i = k + (i + 1) by omega]; exact hr) fun j l' hj hl hp => by
          rw [show k + 1 + j = k + (j + 1) by omega]
          exact h (j + 1) l' (by omega) (by simpa using hl) hp
      rw [show k + 1 + i = k + (i + 1) by omega] at ih'
      by_cases hs : psec.getLsbD l'.sect = true
      · have := h 0 l' (by omega) rfl hs
        rw [Nat.add_zero] at this
        rw [if_pos hs, if_pos this]
        exact ih' _
      · rw [if_neg hs]
        exact ih' _

/-- The walk reads the registers of the present sections only (R205). -/
theorem encodeLeaves_congr {p p' : Sparse 16} {psec : Word} {k : Nat} {ls : List Entry} (t : Memory)
    (h : ∀ j l, ls[j]? = some l → psec.getLsbD l.sect = true → p'.read (k + j) = p.read (k + j)) :
    encodeLeaves p' psec k ls t = encodeLeaves p psec k ls t := by
  induction ls generalizing k t with
  | nil => rfl
  | cons l rest ih =>
    have ih' := fun t => ih (k := k + 1) t fun j l' hj hp => by
      rw [show k + 1 + j = k + (j + 1) by omega]
      exact h (j + 1) l' (by simpa using hj) hp
    unfold encodeLeaves
    by_cases hs : psec.getLsbD l.sect = true
    · have := h 0 l rfl hs
      rw [Nat.add_zero] at this
      rw [if_pos hs, if_pos hs, this, ih']
    · rw [if_neg hs, if_neg hs, ih']

/-- The walk keeps the canonical form. -/
theorem wf_encodeLeaves {p : Sparse 16} {psec : Word} {k : Nat} {ls : List Entry} {t t' : Memory}
    (ht : Sparse.wf t = true) (h : encodeLeaves p psec k ls t = .ok t') : Sparse.wf t' = true := by
  induction ls generalizing k t with
  | nil => cases h; exact ht
  | cons l rest ih =>
    unfold encodeLeaves at h
    split at h
    · split at h
      · exact ih (wf_writeField _ _ ht) h
      · cases h
    · exact ih ht h

/-! ### The name -/

/-- The name injected into a body, byte by byte (R205). -/
theorem read_injectName (name : Memory) (len : Nat) (t : Memory) (a : Nat) :
    (injectName name len t).read a =
      if nameOff ≤ a ∧ a < nameOff + min len nameLen then name.read (a - nameOff) else t.read a := by
  rw [injectName, Sparse.read_writeRange, Sparse.length_readRange, Sparse.getD_readRange]
  by_cases h : nameOff ≤ a ∧ a < nameOff + min len nameLen
  · rw [if_pos h, if_pos h, if_pos (by omega), Nat.zero_add]
  · rw [if_neg h, if_neg h]

/-- The trimmed length ends at the last byte that is not 0 (R202). -/
theorem trimmedLen_spec (t : Memory) (n : Nat) :
    trimmedLen t n ≤ n ∧ (trimmedLen t n = 0 ∨ t.read (nameOff + (trimmedLen t n - 1)) ≠ 0) ∧
      ∀ a, trimmedLen t n ≤ a → a < n → t.read (nameOff + a) = 0 := by
  induction n with
  | zero => simp [trimmedLen]
  | succ n ih =>
    unfold trimmedLen
    split
    · rename_i h
      refine ⟨by omega, ih.2.1, fun a h1 h2 => ?_⟩
      by_cases ha : a = n
      · subst ha; exact h
      · exact ih.2.2 a h1 (by omega)
    · rename_i h
      exact ⟨le_refl _, Or.inr (by simpa using h), fun a h1 h2 => by omega⟩

theorem read_nameOf (t : Memory) (a : Nat) :
    (nameOf t).read a = if a < nameLenOf t then t.read (nameOff + a) else 0 := by
  rw [nameOf, Sparse.read_ofList, Sparse.getD_readRange]

/-! ### Parameters and messages -/

/-- The value of a leaf among the decoded parameters (R201). -/
theorem read_paramsOf {c : Config} (t : Memory) {k : Nat} {l : Entry} (h : c.leaves[k]? = some l) :
    (paramsOf c t).read k = readField l t := by
  rw [paramsOf, Sparse.read_ofList, List.getD_eq_getElem?_getD, List.getElem?_map, h]
  rfl

@[simp] theorem length_messageBytes (c : Config) (t : Memory) : (messageBytes c t).length = msgLen := by
  simp [messageBytes, hdr, bodyLen, msgLen]

/-- The bytes of a message: header, packed body, footer (R206). -/
theorem getD_messageBytes (c : Config) (t : Memory) (a : Nat) :
    (messageBytes c t).getD a 0 =
      if a < 7 then hdr.getD a 0
      else if a < 519 then (packAll c.carrierOrder (t.readRange 0 bodyLen)).getD (a - 7) 0
      else if a = 519 then ftr else 0 := by
  have hh : hdr.length = 7 := rfl
  have hl : (packAll c.carrierOrder (t.readRange 0 bodyLen)).length = 512 := by simp [bodyLen]
  rw [messageBytes, List.append_assoc]
  simp only [List.getD_eq_getElem?_getD, List.getElem?_append, hl, hh]
  split
  · rfl
  · by_cases h : a < 519
    · rw [if_pos (by omega), if_pos h]
    · rw [if_neg (by omega), if_neg h]
      by_cases h9 : a = 519
      · subst h9; rfl
      · rw [if_neg h9, List.getElem?_eq_none (by simp; omega)]
        rfl

end Sys2Proof.Machine
end

