-- ==== Sys2Proof/Laws/PerInstr.lean ====
section
/-! SUPPORT. The per-instruction family OpcodeField: bits 31:26 of the word of a command are its opcode and bit 16 is 0
(spec/30_encoding.md R81, R84). -/

namespace Sys2Proof.Laws.OpcodeField

open Sys2Proof

/-- The word of the command carries its opcode in bits 31:26 and 0 in bit 16 (R81, R84). -/
def Statement (i : Instr) : Prop :=
  (Sys2Proof.encode i).extractLsb' 26 6 = i.opcode ∧ (Sys2Proof.encode i).extractLsb' 16 1 = 0

theorem of_fields {i : Instr} (h : i.fields.op = i.opcode ∧ i.fields.z = 0) : Statement i := by
  have hf := Fields.ofWord_toWord i.fields
  exact ⟨(congrArg Fields.op hf).trans h.1, (congrArg Fields.z hf).trans h.2⟩

theorem nop : Statement .nop := of_fields ⟨rfl, rfl⟩

theorem li (rd : Reg) (imm : Word) : Statement (.li rd imm) := of_fields ⟨rfl, rfl⟩

theorem csrr (rd : Reg) (csr : Csr) : Statement (.csrr rd csr) := of_fields ⟨rfl, rfl⟩

theorem csrw (csr : Csr) (rs : Reg) : Statement (.csrw csr rs) := of_fields ⟨rfl, rfl⟩

theorem lde (rd rb : Reg) (imm : Word) : Statement (.lde rd rb imm) := of_fields ⟨rfl, rfl⟩

theorem ldw (rd rb : Reg) (imm : Word) : Statement (.ldw rd rb imm) := of_fields ⟨rfl, rfl⟩

theorem stw (rs rb : Reg) (imm : Word) : Statement (.stw rs rb imm) := of_fields ⟨rfl, rfl⟩

theorem ldb (rd rb : Reg) (imm : Word) : Statement (.ldb rd rb imm) := of_fields ⟨rfl, rfl⟩

theorem stb (rs rb : Reg) (imm : Word) : Statement (.stb rs rb imm) := of_fields ⟨rfl, rfl⟩

theorem ldp (rd rb : Reg) (imm : Word) : Statement (.ldp rd rb imm) := of_fields ⟨rfl, rfl⟩

theorem stp (rs rb : Reg) (imm : Word) : Statement (.stp rs rb imm) := of_fields ⟨rfl, rfl⟩

theorem ldn (rd rb : Reg) (imm : Word) : Statement (.ldn rd rb imm) := of_fields ⟨rfl, rfl⟩

theorem stn (rs rb : Reg) (imm : Word) : Statement (.stn rs rb imm) := of_fields ⟨rfl, rfl⟩

theorem rdbits (rd rs1 : Reg) (start : BitVec 3) (width : BitVec 4) : Statement (.rdbits rd rs1 start width) := of_fields ⟨rfl, rfl⟩

theorem wrbits (rd rs1 rs2 : Reg) (start : BitVec 3) (width : BitVec 4) : Statement (.wrbits rd rs1 rs2 start width) := of_fields ⟨rfl, rfl⟩

theorem rd10 (rd rs1 rs2 : Reg) (off : BitVec 3) : Statement (.rd10 rd rs1 rs2 off) := of_fields ⟨rfl, rfl⟩

theorem wr10 (rd rs1 : Reg) (off : BitVec 3) : Statement (.wr10 rd rs1 off) := of_fields ⟨rfl, rfl⟩

theorem mrg10 (rd rs1 rs2 : Reg) (off : BitVec 3) : Statement (.mrg10 rd rs1 rs2 off) := of_fields ⟨rfl, rfl⟩

theorem bipdec (rd rs1 : Reg) : Statement (.bipdec rd rs1) := of_fields ⟨rfl, rfl⟩

theorem bipenc (rd rs1 : Reg) : Statement (.bipenc rd rs1) := of_fields ⟨rfl, rfl⟩

theorem unpkg (ri bi : Reg) : Statement (.unpkg ri bi) := of_fields ⟨rfl, rfl⟩

theorem pkg (ri bi : Reg) : Statement (.pkg ri bi) := of_fields ⟨rfl, rfl⟩

theorem unpkall (ri bi rn : Reg) : Statement (.unpkall ri bi rn) := of_fields ⟨rfl, rfl⟩

theorem pkall (ri bi rn : Reg) : Statement (.pkall ri bi rn) := of_fields ⟨rfl, rfl⟩

theorem validate : Statement .validate := of_fields ⟨rfl, rfl⟩

theorem parse : Statement .parse := of_fields ⟨rfl, rfl⟩

theorem fldrd (rd rb : Reg) (imm : Word) : Statement (.fldrd rd rb imm) := of_fields ⟨rfl, rfl⟩

theorem fldwr (rs rb : Reg) (imm : Word) : Statement (.fldwr rs rb imm) := of_fields ⟨rfl, rfl⟩

theorem decode : Statement .decode := of_fields ⟨rfl, rfl⟩

theorem encode : Statement .encode := of_fields ⟨rfl, rfl⟩

theorem safeenc : Statement .safeenc := of_fields ⟨rfl, rfl⟩

end Sys2Proof.Laws.OpcodeField
end

