-- ==== Sys2Proof/Laws/Step.lean ====
section
/-! SUPPORT. Everything one step can do (spec/60_exceptions.md R258). -/

namespace Sys2Proof.Machine

/-- The ways a step takes transaction `a` in state `s`, the transaction already off the list, to `t`. -/
def Takes (a : HostTxn) (s t : State) : Prop :=
  match a with
  | .read sp i => i < spaceSize s.cfg sp ∧ t = s
  | .write sp i v => s.faulted = false ∧ i < spaceSize s.cfg sp ∧ hostWritable s sp i v = true ∧
      t = s.setElement sp i v
  | .command c => (∃ i, Sys2Proof.decode c = .ok i ∧ exec i s = .next t) ∨
      ∃ r, Sys2Proof.decode c = .error r ∧ execIllegal c s = .next t
  | .reset => t = s.hostReset

/-- A step does nothing when no transaction is to come, and takes the next one otherwise. -/
theorem step_cases {s t : State} (h : step s = .next t) :
    (s.host = [] ∧ t = s) ∨ ∃ a rest, s.host = a :: rest ∧ Takes a (s.setHost rest) t := by
  unfold step at h
  cases hh : s.host with
  | nil => exact Or.inl ⟨rfl, by simpa [nextTransaction, hh, eq_comm] using h⟩
  | cons a rest =>
    refine Or.inr ⟨a, rest, rfl, ?_⟩
    simp only [nextTransaction, hh] at h
    cases a with
    | read sp i =>
      simp only [stepRead, hostRead] at h
      split at h
      · rename_i hv
        split at hv
        · rename_i hi; cases h; exact ⟨hi, rfl⟩
        · cases hv
      · cases h
    | write sp i v =>
      simp only [stepWrite] at h
      split at h
      · rename_i hc; cases h; exact ⟨hc.1, hc.2.1, hc.2.2, rfl⟩
      · cases h
    | command c =>
      simp only at h
      split at h
      · rename_i i hd; exact Or.inl ⟨i, hd, h⟩
      · rename_i r hd; exact Or.inr ⟨r, hd, h⟩
    | reset => cases h; rfl

/-- An illegal word is refused or raises. -/
theorem execIllegal_cases {c : Command} {s t : State} (h : execIllegal c s = .next t) :
    (s.faulted = true ∧ t = s) ∨ (s.faulted = false ∧ t = s.takeFault (.illegal (upperHalf c))) := by
  rw [execIllegal, State.command_eq_next] at h
  rcases h with h | ⟨-, u, hu, -⟩ | ⟨hf, r, hr, rfl⟩
  · exact Or.inl h
  · cases hu
  · cases hr; exact Or.inr ⟨hf, rfl⟩

end Sys2Proof.Machine
end

