-- ==== Sys2Proof/Tests/Slice0.lean ====
section
/-! SUPPORT. Tests: words of the spec's field tables decoded, one-step vectors of spec/95_test_vectors.md, and for every
statement with hypotheses states and operands that meet them. -/

namespace Sys2Proof.Tests

open Sys2Proof Sys2Proof.Machine

/-! ### Helpers -/

/-- An instance with one layout entry of each kind, seven leaves. -/
def demo : Config where
  carrierOrder := .asc
  marker := #v[0x50, 0x52, 0x4F, 0x47]
  layout := [
    { name := "byte", sect := 1, kind := .byte, off := 16, width := 8, dommax := 255 },
    { name := "bits", sect := 2, kind := .bits, off := 17, start := 2, width := 3, dommax := 7 },
    { name := "split", sect := 3, kind := .s10, off := 18, start := 4, width := 10, loff := 19, dommax := 1023 },
    { name := "bip", sect := 4, kind := .s10, off := 20, start := 6, width := 10, loff := 19, bip := true, dommax := 1023 },
    { name := "flags", sect := 6, kind := .barr, off := 22, width := 16, dommax := 65535, n1 := 2, s1 := 2 },
    { name := "last", sect := 9, kind := .bits, off := 447, start := 7, width := 1, dommax := 1 }]
  paycap := 2
  wcap := 521
  reqsec := 0x3FF

theorem demo_admitted : demo.admitted :=
  ⟨⟨by decide, pairwise_disjoint_of_fresh (by decide), by decide, by decide⟩, by decide, by decide, by decide⟩

/-- The instance `demo` after reset. -/
def base : State := State.resetWith demo

/-- `base` under a fault. -/
def stuck : State := { base with st := 2, fcause := 4 }

/-- `base` with registers `x1` to `x3` set. -/
def regs (x1 x2 x3 : Word) : State := { base with x := ⟨x1, x2, x3, 0, 0, 0, 0⟩ }

/-- The message `G0` of spec/95_test_vectors.md 2.3 in `W`: header, marker, 444 zero body bytes, footer. -/
def good : State :=
  { base with
    wlen := 520
    w := [(0, 0xF0), (1, 0x42), (2, 0x30), (4, 0x01), (5, 0x44), (6, 0x40), (8, 0x50), (9, 0x52), (10, 0x4F),
      (11, 0x47), (519, 0xF7)] }

/-- Parameters in range for every leaf of `demo`, the name `TE`, every section present. -/
def params : State :=
  { base with
    p := [(0, 0xAB), (1, 5), (2, 0x2A7), (3, 0x1FF), (4, 0x8001), (6, 1)]
    name := [(0, 0x54), (1, 0x45)]
    namelen := 2
    psec := 0x3FF }

/-- The next state of an outcome. -/
def next (o : Host.Outcome State Fault Refusal) : Option State :=
  match o with
  | .next t => some t
  | .fault _ => none
  | .refused _ => none

/-- The state after the command word `w`. -/
def run (s : State) (w : Nat) : Option State := next (step (s.withFetchWord 32 w))

/-- What a fault leaves in `FCAUSE` and `FINFO`, if the command raised. -/
def raised (o : Option State) : Option (Nat × Nat) :=
  match o with
  | some t => if t.faulted then some (t.fcause.toNat, t.finfo.toNat) else none
  | none => none

/-! ### Well-formedness and decoding (spec/95_test_vectors.md 2.6) -/

theorem test_wf_refuses_wr10_x6 : Instr.wf (.wr10 .x6 .x1 4) = false := by decide
theorem test_wf_refuses_wr10_x7 : Instr.wf (.wr10 .x7 .x1 4) = false := by decide
theorem test_wf_accepts_wr10_x5 : Instr.wf (.wr10 .x5 .x7 6) = true := by decide

theorem test_decode_nop : decode 0x00000000 = .ok .nop := by decide
theorem test_decode_li : decode 0x0780FFFF = .ok (.li .x7 0xFFFF) := by decide
theorem test_decode_csrr : decode 0x0A80000F = .ok (.csrr .x5 .cix) := by decide
theorem test_decode_csrw : decode 0x0F000006 = .ok (.csrw .psec .x6) := by decide
theorem test_decode_lde : decode 0x1CA0000F = .ok (.lde .x1 .x2 15) := by decide
theorem test_decode_ldw : decode 0x20F00207 = .ok (.ldw .x1 .x7 519) := by decide
theorem test_decode_stw : decode 0x279003FF = .ok (.stw .x7 .x1 1023) := by decide
theorem test_decode_ldb : decode 0x293001BF = .ok (.ldb .x2 .x3 447) := by decide
theorem test_decode_stb : decode 0x2DC00004 = .ok (.stb .x3 .x4 4) := by decide
theorem test_decode_ldp : decode 0x32500172 = .ok (.ldp .x4 .x5 370) := by decide
theorem test_decode_stp : decode 0x36E0000C = .ok (.stp .x5 .x6 12) := by decide
theorem test_decode_ldn : decode 0x3B00000F = .ok (.ldn .x6 .x0 15) := by decide
theorem test_decode_stn : decode 0x3CA0000B = .ok (.stn .x1 .x2 11) := by decide
theorem test_decode_rdbits : decode 0x41100032 = .ok (.rdbits .x2 .x1 2 3) := by decide
theorem test_decode_wrbits : decode 0x45940032 = .ok (.wrbits .x3 .x1 .x2 2 3) := by decide
theorem test_decode_rd10 : decode 0x49940004 = .ok (.rd10 .x3 .x1 .x2 4) := by decide
theorem test_decode_wr10 : decode 0x4EF00006 = .ok (.wr10 .x5 .x7 6) := by decide
theorem test_decode_mrg10 : decode 0x53EA0002 = .ok (.mrg10 .x7 .x6 .x5 2) := by decide
theorem test_decode_bipdec : decode 0x55100000 = .ok (.bipdec .x2 .x1) := by decide
theorem test_decode_bipenc : decode 0x5BF00000 = .ok (.bipenc .x7 .x7) := by decide
theorem test_decode_unpkg : decode 0x60A00000 = .ok (.unpkg .x1 .x2) := by decide
theorem test_decode_pkg : decode 0x67E00000 = .ok (.pkg .x7 .x6) := by decide
theorem test_decode_unpkall : decode 0x68A60000 = .ok (.unpkall .x1 .x2 .x3) := by decide
theorem test_decode_pkall : decode 0x6FEA0000 = .ok (.pkall .x7 .x6 .x5) := by decide
theorem test_decode_validate : decode 0x80000000 = .ok .validate := by decide
theorem test_decode_parse : decode 0x84000000 = .ok .parse := by decide
theorem test_decode_fldrd : decode 0xA080000C = .ok (.fldrd .x1 .x0 12) := by decide
theorem test_decode_fldwr : decode 0xA7F00172 = .ok (.fldwr .x7 .x7 370) := by decide
theorem test_decode_decode : decode 0xC0000000 = .ok .decode := by decide
theorem test_decode_encode : decode 0xC4000000 = .ok .encode := by decide
theorem test_decode_safeenc : decode 0xC8000000 = .ok .safeenc := by decide
theorem test_decode_unassigned : decode 0x10000000 = .error .unassignedOpcode ∧
    decode 0xFC000000 = .error .unassignedOpcode := by decide
theorem test_decode_reserved : decode 0x00000001 = .error .reservedBits ∧ decode 0x00800000 = .error .reservedBits ∧
    decode 0x80010000 = .error .reservedBits ∧ decode 0x058102A7 = .error .reservedBits := by decide
theorem test_decode_wr10_x6 : decode 0x4F100004 = .error .wr10Destination := by decide
theorem test_decode_table_word : decodeTableWord 32 0x41100032 = some (.rdbits .x2 .x1 2 3) := by decide

/-! ### One step (spec/95_test_vectors.md; the vector of each test in its name or comment) -/

-- R220, R46
theorem test_nop : run base 0x00000000 = some { base with cix := 1 } := by decide
-- R221: not sign-extended
theorem test_li : (run base 0x0780FFFF).map (·.readX .x7) = some 0xFFFF := by decide
-- R222: a byte is zero-extended, the index is `x2 + 519`
theorem test_ldw : (run { good with x := ⟨0, 7, 0, 0, 0, 0, 0⟩ } 0x20A00200).map (·.readX .x1) = some 0xF7 := by decide
-- R223
theorem test_stw_operand : raised (run (regs 0x100 0 0) 0x24800000) = some (1, 0x3000) := by decide
-- R224, R61: the index wraps
theorem test_ldb_wraps : (run { regs 0 0xFFFF 0 with b := [(12, 0xA9)] } 0x28A0000D).map (·.readX .x1) = some 0xA9 := by
  decide
-- P1, row 3
theorem test_stb : (run { base with x := ⟨0, 0, 0xA9, 0, 0, 0, 0⟩ } 0x2D800016).map (·.b) = some [(22, 0xA9)] := by
  decide
-- R226
theorem test_ldp_address : raised (run base 0x32500172) = some (4, 370) := by decide
-- R227: any value
theorem test_stp : (run (regs 0xFFFF 0 0) 0x34800006).map (·.p) = some [(6, 0xFFFF)] := by decide
-- R228
theorem test_ldn : (run { base with name := [(15, 0x21)] } 0x3B00000F).map (·.readX .x6) = some 0x21 := by decide
-- R229: the index is checked before the operand
theorem test_stn_address : raised (run (regs 0x100 0 0) 0x3C800010) = some (4, 16) := by decide
-- R230
theorem test_lde : (run { base with e := [(3, 0xFF)] } 0x1C800003).map (·.readX .x1) = some 0xFF := by decide
-- R231: `CIX` as it was
theorem test_csrr : (run { base with cix := 9 } 0x0A80000F).map (·.readX .x5) = some 9 := by decide
-- R232: a read-only number is an illegal command
theorem test_csrw_read_only : raised (run base 0x0C00000F) = some (5, 0x0C00) := by decide
theorem test_csrw_value : raised (run (regs 522 0 0) 0x0C800004) = some (1, 0x4000) := by decide

theorem test_rdbits_v_bf_1 : (run (regs 0xB6 0 0) 0x41100032).map (·.readX .x2) = some 5 := by decide
theorem test_rdbits_v_bf_5 : raised (run (regs 0xB6 0 0) 0x41100036) = some (1, 0x1000) := by decide
theorem test_wrbits_v_bf_7 : (run (regs 0xFF 0 0) 0x45940032).map (·.readX .x3) = some 0xE3 := by decide
theorem test_wrbits_v_bf_10 : raised (run (regs 0xFF 8 0) 0x45940032) = some (1, 0x4000) := by decide
theorem test_rd10_v_bf_16c : (run (regs 0x12 0x34 0) 0x49940004).map (·.readX .x3) = some 0x4B := by decide
theorem test_wr10_v_bf_12f : (run (regs 0x2A7 0 0) 0x4C900004).map (·.x) = some ⟨0xA9, 0x30, 0xCF, 0, 0, 0, 0⟩ := by
  decide
theorem test_wr10_v_bf_15 : raised (run (regs 5 0 0) 0x4F100004) = some (5, 0x4F10) := by decide
theorem test_mrg10_v_bf_17c : (run (regs 0x0F 2 0) 0x51940006).map (·.readX .x3) = some 0x8F := by decide
theorem test_bipdec_v_bf_18b : (run (regs 0x1FF 0 0) 0x55100000).map (·.readX .x2) = some 0xFFFF := by decide
theorem test_bipenc_v_bf_19f : raised (run (regs 0xFDFF 0 0) 0x59100000) = some (1, 0x4000) := by decide

theorem test_unpkg_v_sb_14 : (run { regs 7 0 0 with w := [(7, 0x40), (8, 0x7F), (14, 1)] } 0x60A00000).map (·.b) =
    some [(0, 0x7F), (6, 0x81)] := by decide
theorem test_pkg_v_sb_15 : (run { regs 100 441 0 with
      b := [(441, 0x80), (442, 0x7F), (444, 1), (445, 2), (446, 0x83), (447, 4)] } 0x64A00000).map (·.w) =
    some [(100, 0x21), (102, 0x7F), (104, 1), (105, 2), (106, 3), (107, 4)] := by decide
-- R127: two groups, the second starts 7 bytes later
theorem test_unpkall : (run { regs 0 0 16 with w := [(0, 1), (9, 0x55)] } 0x68A60000).map (·.b) =
    some [(0, 0x80), (7, 0x55)] := by decide
theorem test_pkall_length : raised (run (regs 0 0 8) 0x6CA60000) = some (2, 8) := by decide

theorem test_validate_v_fr_5 :
    (run { good with w := [(1, 0x42), (2, 0x30), (4, 0x01), (5, 0x44), (6, 0x41), (100, 0x80), (101, 0xFF)] } 0x80000000).map
      (fun t => ([t.st, t.err, t.ehdrmask, t.epaycnt, t.eln], t.e)) =
    some ([0, 0x0E, 0x41, 2, 2], [(0, 100), (1, 0x80), (2, 101), (3, 0xFF)]) := by decide +kernel
theorem test_parse_v_fr_1p : (run good 0x84000000).map (fun t => (t.st, t.b)) =
    some (1, [(0, 0x50), (1, 0x52), (2, 0x4F), (3, 0x47)]) := by decide +kernel
theorem test_parse_v_fr_7p : (run { good with w := good.w.write 8 0x51 } 0x84000000).map (fun t => (t.st, t.err, t.b)) =
    some (0, 0x10, []) := by decide +kernel
theorem test_fldrd_v_ly_1 : (run { State.reset with b := [(22, 0xA9), (33, 0x30)] } 0xA080000C).map (·.readX .x1) =
    some 0x2A7 := by decide +kernel
theorem test_fldwr_v_ly_3d : (run { State.reset with
      x := ⟨0xFE00, 0, 0, 0, 0, 0, 0⟩, b := [(28, 0x77), (35, 0xFF)] } 0xA4800016).map (·.b) =
    some [(35, 0xCF)] := by decide +kernel
-- V-MA-2 in the small instance: the name `T`, the bipolar leaf at raw 0
theorem test_decode_message : (run { good with w := good.w.write 12 0x54 } 0xC0000000).map
      (fun t => ([t.st, t.namelen, t.psec], t.p, t.name)) =
    some ([1, 1, 0x3FF], [(3, 0xFE00)], [(0, 0x54)]) := by decide +kernel
-- V-MA-3 (b)
theorem test_decode_bad_marker : (run { params with w := good.w.write 8 0x51, wlen := 520 } 0xC0000000).map
      (fun t => ([t.err, t.namelen], t.p, t.name)) = some ([0x10, 0], [], []) := by decide +kernel
-- R205 to R207: by hand from the leaves of the small instance
theorem test_encode : (run params 0xC4000000).map (fun t => (t.b, t.wlen, t.st, t.w.read 519)) =
    some ([(0, 0x50), (1, 0x52), (2, 0x4F), (3, 0x47), (4, 0x54), (5, 0x45), (16, 0xAB), (17, 0x14), (18, 0xA9),
      (19, 0xF0), (20, 0xFF), (22, 0x01), (23, 0x80), (447, 0x80)], 520, 1, 0xF7) := by decide +kernel
-- P5, row 23
theorem test_encode_missing : raised (run { params with psec := 0 } 0xC4000000) = some (3, 0x3FF) := by decide
-- P5, row 12
theorem test_safeenc_range : (run { params with p := params.p.write 2 0x400 } 0xC8000000).map
      (fun t => (t.st, t.err, t.erngidx, t.erngval)) = some (0, 0x40, 2, 0x400) := by decide

/-! ### Hypotheses that can be met: encoding and the machine -/

theorem test_witness_encoding : Instr.wf (.wr10 .x5 .x7 6) = true ∧ decode 0x4EF00006 = .ok (.wr10 .x5 .x7 6) := by
  decide

theorem test_witness_step : (base.withFetchWord 32 0x04800400).host = [.command 0x04800400] ∧
    decode 0x04800400 = .ok (.li .x1 1024) ∧
    (base.withFetchWord 32 0xFC000000).host = [.command 0xFC000000] ∧ decode 0xFC000000 = .error .unassignedOpcode ∧
    (base.withFetchWord 32 0xFC000000).faulted = false := by decide

theorem test_witness_fault : stuck.faulted = true ∧ (stuck.withFetchWord 32 0).host = .command 0 :: [] ∧
    (next (step { stuck with host := [.reset] })).map (·.faulted) = some false := by decide

theorem test_witness_raising : (regs 0x400 0 0).faulted = false ∧
    ∃ t, exec (.wr10 .x3 .x1 4) (regs 0x400 0 0) = .next t ∧ t.faulted = true := ⟨by decide, _, rfl, by decide⟩

theorem test_witness_cix : (∃ t, exec .nop stuck = .next t ∧ stuck.faulted = true) ∧
    (∃ t, exec (.ldw .x1 .x0 521) base = .next t ∧ base.faulted = false ∧ t.faulted = true) ∧
    ∃ t, exec .nop { base with cix := 0xFFFF } = .next t ∧ t.faulted = false ∧ t.cix = 0 :=
  ⟨⟨_, rfl, by decide⟩, ⟨_, rfl, by decide, by decide⟩, ⟨_, rfl, by decide, by decide⟩⟩

theorem test_witness_frames : (∃ t, exec (.li .x1 5) base = .next t) ∧ Reg.x2 ∉ (Instr.li .x1 5).destinations ∧
    Instr.li .x1 5 ∉ [Instr.validate, .parse, .decode, .encode, .safeenc] ∧
    (∀ sp, sp ∉ (Instr.li .x1 5).writes) ∧ ∃ t, step base = .next t :=
  ⟨⟨_, rfl⟩, by decide, by decide, fun sp => by cases sp <;> decide, ⟨_, rfl⟩⟩

/-- Each of the three writable control registers is unlisted for a command that writes another. -/
theorem test_witness_control : Csr.wlen ∉ Instr.decode.writesControl ∧ Csr.namelen ∉ Instr.encode.writesControl ∧
    Csr.psec ∉ Instr.safeenc.writesControl ∧ (∃ t, exec .decode base = .next t) ∧ (∃ t, exec .encode base = .next t) ∧
    ∃ t, exec .safeenc base = .next t := ⟨by decide, by decide, by decide, ⟨_, rfl⟩, ⟨_, rfl⟩, ⟨_, rfl⟩⟩

theorem test_witness_results : base.faulted = false ∧ (∃ t, exec .validate base = .next t ∧ t.faulted = false) ∧
    ∃ t, exec .encode base = .next t ∧ t.faulted = true := ⟨by decide, ⟨_, rfl, by decide⟩, ⟨_, rfl, by decide⟩⟩

/-! ### Hypotheses that can be met: the host -/

theorem test_witness_host_read : hostRead base .w 520 = some 0 ∧ hostRead base .w 521 = none ∧
    hostRead base .b 447 = some 0 ∧ hostRead base .b 448 = none ∧ hostRead base .p 6 = some 0 ∧
    hostRead base .p 7 = none ∧ hostRead base .n 15 = some 0 ∧ hostRead base .n 16 = none ∧
    hostRead base .e 3 = some 0 ∧ hostRead base .e 4 = none ∧ hostRead base .csr 15 = some 0 ∧
    hostRead base .csr 16 = none ∧ hostRead stuck .csr 0 = some 2 := by decide

theorem test_witness_host_write :
    (next (step { base with host := [.write .w 520 255] })).map (·.w) = some [(520, 255)] ∧
    (next (step { base with host := [.write .b 447 255] })).map (·.b) = some [(447, 255)] ∧
    (next (step { base with host := [.write .p 6 0xFFFF] })).map (·.p) = some [(6, 0xFFFF)] ∧
    (next (step { base with host := [.write .n 15 255] })).map (·.name) = some [(15, 255)] ∧
    (next (step { base with host := [.write .csr 4 521] })).map (·.wlen) = some 521 ∧
    (next (step { base with host := [.write .csr 5 16] })).map (·.namelen) = some 16 ∧
    (next (step { base with host := [.write .csr 6 0x3FF] })).map (·.psec) = some 0x3FF := by decide

theorem test_witness_host_refused :
    next (step { stuck with host := [.write .w 0 0] }) = none ∧ next (step { base with host := [.write .w 521 0] }) = none ∧
    next (step { base with host := [.write .e 0 0] }) = none ∧ next (step { base with host := [.write .w 0 256] }) = none ∧
    next (step { base with host := [.write .csr 3 0] }) = none ∧ next (step { base with host := [.write .csr 7 0] }) = none ∧
    next (step { base with host := [.write .csr 4 522] }) = none ∧
    next (step { base with host := [.write .csr 5 17] }) = none ∧
    next (step { base with host := [.write .csr 6 0x400] }) = none ∧
    next (step { base with host := [.read .e 4] }) = none := by decide

theorem test_witness_reset : (next (step { stuck with host := [.reset], wlen := 7 })).map
      (fun t => (t.faulted, t.wlen, t.fcause)) = some (false, 0, 0) := by decide

theorem test_witness_invariants : base.cfg.admitted ∧ base.Contained ∧ base.LegalControl ∧ base.FaultRecord ∧
    base.ResultGroup ∧ ∃ t, step (base.withFetchWord 32 0x80000000) = .next t :=
  ⟨demo_admitted, ⟨by decide, by decide, by decide, by decide, by decide⟩,
    ⟨by decide, by decide, by decide, by decide, by decide, by decide, by decide, by decide⟩, ⟨by decide, by decide⟩,
    ⟨by decide, by decide, by decide, by decide, by decide, by decide, by decide, fun _ _ => rfl, by decide, by decide⟩,
    ⟨_, rfl⟩⟩

/-! ### Hypotheses that can be met: commands, each clause at the ends of its range -/

theorem test_witness_moves : base.faulted = false ∧ base.ea .x0 520 < base.cfg.wcap ∧ base.cfg.wcap ≤ base.ea .x0 521 ∧
    base.ea .x0 447 < 448 ∧ 448 ≤ base.ea .x0 448 ∧ base.ea .x0 6 < base.cfg.nleaf ∧ base.cfg.nleaf ≤ base.ea .x0 7 ∧
    base.ea .x0 15 < 16 ∧ 16 ≤ base.ea .x0 16 ∧ base.ea .x0 3 < 2 * base.cfg.paycap ∧
    2 * base.cfg.paycap ≤ base.ea .x0 4 ∧ ((regs 255 256 0).readX .x1).toNat ≤ 255 ∧
    255 < ((regs 255 256 0).readX .x2).toNat := by decide

theorem test_witness_csrw : ((regs 521 522 0).readX .x1).toNat ≤ demo.wcap ∧ demo.wcap < ((regs 521 522 0).readX .x2).toNat ∧
    ((regs 16 17 0).readX .x1).toNat ≤ 16 ∧ 16 < ((regs 16 17 0).readX .x2).toNat ∧
    ((regs 0x3FF 0x400 0).readX .x1).toNat ≤ 0x03FF ∧ 0x03FF < ((regs 0x3FF 0x400 0).readX .x2).toNat ∧
    Csr.fcix.number.toNat ∉ [4, 5, 6] ∧ Csr.err.number.toNat ∉ [4, 5, 6] := by decide

theorem test_witness_bit_fields : validGeometry 7 1 ∧ validGeometry 0 8 ∧ ¬validGeometry 0 0 ∧ ¬validGeometry 7 2 ∧
    ¬validGeometry 0 9 ∧ ((regs 255 256 0).readX .x1).toNat ≤ 255 ∧ 255 < ((regs 255 256 0).readX .x2).toNat ∧
    ((regs 7 8 0).readX .x1).toNat ≤ 2 ^ 3 - 1 ∧ 2 ^ 3 ≤ ((regs 7 8 0).readX .x2).toNat ∧
    (6 : BitVec 3).toNat % 2 = 0 ∧ (7 : BitVec 3).toNat % 2 = 1 ∧ ((regs 1023 1024 0).readX .x1).toNat ≤ 1023 ∧
    1023 < ((regs 1023 1024 0).readX .x2).toNat ∧ 6 ≤ (6 : BitVec 3).toNat ∧
    Reg.x6.number.toNat = Reg.x5.number.toNat + 1 ∧ Reg.x7.number.toNat = Reg.x5.number.toNat + 2 ∧
    ((regs 0x1FF 0x200 0).readX .x1).toNat ≤ 0x01FF ∧ 0xFE00 ≤ ((regs 0xFE00 0xFDFF 0).readX .x1).toNat ∧
    0x01FF < ((regs 0x1FF 0x200 0).readX .x2).toNat ∧ ((regs 0xFE00 0xFDFF 0).readX .x2).toNat < 0xFE00 ∧
    validOffset 0 ∧ validOffset 6 ∧ 1 + 3 ≤ 4 ∧ validGeometry 1 3 ∧ validGeometry 4 4 := by decide

theorem test_witness_groups : ((regs 513 441 0).readX .x1).toNat + 8 ≤ demo.wcap ∧
    ((regs 513 441 0).readX .x2).toNat + 7 ≤ 448 ∧ demo.wcap < ((regs 514 442 0).readX .x1).toNat + 8 ∧
    448 < ((regs 514 442 0).readX .x2).toNat + 7 ∧
    ((regs 9 0 512).readX .x3).toNat % 8 = 0 ∧ ((regs 9 0 512).readX .x1).toNat + 512 ≤ demo.wcap ∧
    ((regs 9 0 512).readX .x2).toNat + 7 * (512 / 8) ≤ 448 ∧ demo.wcap < ((regs 10 1 512).readX .x1).toNat + 512 ∧
    448 < ((regs 10 1 512).readX .x2).toNat + 7 * (512 / 8) ∧ ((regs 0 0 511).readX .x3).toNat % 8 ≠ 0 ∧
    ((regs 9 0 448).readX .x3).toNat % 7 = 0 ∧ ((regs 9 0 448).readX .x2).toNat + 448 ≤ 448 ∧
    ((regs 9 0 448).readX .x1).toNat + 8 * (448 / 7) ≤ demo.wcap ∧ 448 < ((regs 10 1 448).readX .x2).toNat + 448 ∧
    demo.wcap < ((regs 10 1 448).readX .x1).toNat + 8 * (448 / 7) ∧ ((regs 0 0 447).readX .x3).toNat % 7 ≠ 0 ∧
    (List.replicate 14 (0x80 : Byte)).length % 7 = 0 ∧ (List.replicate 16 (0x80 : Byte)).length % 8 = 0 := by decide

theorem good_wellFormed : good.wellFormedMessage :=
  ⟨rfl, by decide, by decide, fun a h1 h2 =>
    (by decide +kernel : ∀ a < 519, 7 ≤ a → (good.w.read a).toNat ≤ 127) a (by omega) h1⟩

theorem good_marker : good.markerPresent := by
  unfold State.markerPresent
  decide

theorem test_witness_message : good.faulted = false ∧ good.wellFormedMessage ∧ good.markerPresent ∧
    (∃ t, exec .validate good = .next t) ∧ ¬base.wellFormedMessage :=
  ⟨by decide, good_wellFormed, good_marker, ⟨_, rfl⟩, fun h => absurd h.1 (by decide)⟩

theorem test_witness_no_marker : ({ good with w := good.w.write 8 0x51 } : State).wellFormedMessage ∧
    ¬({ good with w := good.w.write 8 0x51 } : State).markerPresent :=
  ⟨⟨rfl, by decide, by decide, fun a h1 h2 =>
    (by decide +kernel : ∀ a < 519, 7 ≤ a → ((good.w.write 8 0x51 : Memory).read a).toNat ≤ 127) a (by omega) h1⟩,
    fun h => absurd (h 0 (by decide)) (by decide)⟩

/-- Two wire buffers that differ beyond the message only. -/
theorem test_witness_beyond_message : (∀ a, a < min good.wlen.toNat 520 → (good.w.write 520 1).read a = good.w.read a) ∧
    (good.w.write 520 1 : Memory).read 520 ≠ good.w.read 520 := by decide +kernel

theorem test_witness_zero_body : ∀ j, 4 ≤ j → j < 448 → carriedByte good.cfg.carrierOrder good.w 7 j = 0 := fun j h1 h2 =>
  (by decide +kernel : ∀ j < 448, 4 ≤ j → carriedByte good.cfg.carrierOrder good.w 7 j = 0) j h2 h1

/-- The entry of two leaves, with the entries before and after it. -/
theorem test_witness_expansion : ∃ (before : List Entry) (e : Entry) (after : List Entry),
    demo.layout = before ++ e :: after ∧ 1 < e.n1 ∧ 0 < e.n2 ∧ (expand before).length = 4 :=
  ⟨demo.layout.take 4, demo.layout.getD 4 (leafOf { name := "", sect := 0, kind := .byte, off := 0, width := 0, dommax := 0 } 0 0),
    demo.layout.drop 5, by decide⟩

theorem test_witness_fields : wfLayout demo.layout ∧ (∀ k < 7, ∃ l ∈ demo.leaves, demo.leaves[k]? = some l) ∧
    (demo.leaves.map fun l => (inRange l 0xFFFF, inRange l 0)) =
      [(false, true), (false, true), (false, true), (true, true), (true, true), (true, true), (false, true)] ∧
    demo.leaves.map (·.kind) = [.byte, .bits, .s10, .s10, .barr, .barr, .bits] ∧
    demo.leaves.map (·.bip) = [false, false, false, true, false, false, false] ∧
    (446, 7) ∉ demo.leaves.flatMap footprint :=
  ⟨demo_admitted.1, by decide, by decide, by decide, by decide, by decide⟩

theorem test_witness_field_commands : (regs 255 256 0).cfg.admitted ∧
    (demo.leaves[(regs 255 256 0).ea .x0 0]?).map (fun l => (inRange l ((regs 255 256 0).readX .x1), inRange l
      ((regs 255 256 0).readX .x2))) = some (true, false) ∧ demo.nleaf ≤ (regs 255 256 0).ea .x0 7 :=
  ⟨demo_admitted, by decide, by decide⟩

/-! ### Hypotheses that can be met: the encoders -/

theorem params_inRange : ∀ k l, demo.leaves[k]? = some l → inRange l (params.p.read k) = true := by
  intro k l h
  have hk : k < 7 := by
    have := (List.getElem?_eq_some_iff.mp h).1
    exact lt_of_lt_of_eq this (by decide)
  have ha : ∀ k < 7, ∀ l ∈ demo.leaves[k]?, inRange l (params.p.read k) = true := by decide
  exact ha k hk l h

theorem test_witness_encode : params.faulted = false ∧ params.cfg.admitted ∧ params.missing = 0 ∧
    params.parametersInRange ∧ (∃ t, exec .encode params = .next t ∧ t.faulted = false) ∧
    ({ params with psec := 0x3F7 } : State).missing = 8 :=
  ⟨by decide, demo_admitted, by decide, fun k l h _ => params_inRange k l h, ⟨_, rfl, by decide +kernel⟩, by decide⟩

theorem test_witness_first_out_of_range :
    ({ params with p := [(0, 1), (2, 0x400), (6, 2)] } : State).firstOutOfRange 2 ∧
      ({ params with p := [(0, 1), (2, 0x400), (6, 2)] } : State).missing = 0 := by
  refine ⟨⟨⟨_, rfl, by decide, by decide⟩, fun j l hj h _ => ?_⟩, by decide⟩
  have ha : ∀ j < 2, ∀ l ∈ demo.leaves[j]?, inRange l (Sparse.read [(0, (1 : Word)), (2, 0x400), (6, 2)] j) = true := by
    decide
  exact ha j hj l h

/-- Registers of absent sections and name bytes beyond `NAMELEN` that differ. -/
theorem test_witness_absent : (∀ k < 7, ∀ l ∈ demo.leaves[k]?, (0x3FD : Word).getLsbD l.sect = true →
      (params.p.write 0 0xFFFF).read k = params.p.read k) ∧ (params.p.write 0 0xFFFF).read 0 ≠ params.p.read 0 ∧
    (∀ a, a < params.namelen.toNat → (params.name.write 15 1).read a = params.name.read a) := by decide

/-- With section 0 absent any name and any `NAMELEN` will do; with it present, a `NAMELEN` above 12 and the name bytes from
12 on may differ. -/
theorem test_witness_absent_name :
    ({ params with psec := 0x3FE } : State).psec.getLsbD 0 = false ∧
    (∃ t, exec .encode { params with psec := 0x3FE } = .next t) ∧
    ({ params with namelen := 13 } : State).psec.getLsbD 0 = true ∧
    min (16 : Word).toNat 12 = min ({ params with namelen := 13 } : State).namelen.toNat 12 ∧
    (∀ a, a < min ({ params with namelen := 13 } : State).namelen.toNat 12 →
      (params.name.write 12 1).read a = params.name.read a) ∧
    (params.name.write 12 1).read 12 ≠ params.name.read 12 ∧
    ∃ t, exec .safeenc { params with namelen := 13 } = .next t :=
  ⟨by decide, ⟨_, rfl⟩, by decide, by decide, by decide, by decide, ⟨_, rfl⟩⟩

theorem test_witness_round_trip : params.faulted = false ∧ params.cfg.admitted ∧ params.Contained ∧
    params.psec = 0x03FF ∧ (∀ k l, params.cfg.leaves[k]? = some l → inRange l (params.p.read k) = true) ∧
    params.namelen.toNat ≤ 12 ∧ params.name.read (params.namelen.toNat - 1) ≠ 0 :=
  ⟨by decide, demo_admitted, ⟨by decide, by decide, by decide, by decide, by decide⟩, by decide, params_inRange,
    by decide, by decide⟩

end Sys2Proof.Tests
end

section
/-! PROOFS. The state: general registers read back what was written, and the values a reset gives
(spec/10_state.md R20, R50, spec/70_reset_and_hazards.md R270). -/

namespace Sys2Proof.Machine

/-! ### General registers -/

@[simp] theorem readX_x0 (s : State) : s.readX .x0 = 0 := Regs.read_x0 s.x

@[simp] theorem setX_x0 (s : State) (v : Word) : s.setX .x0 v = s := by
  rw [State.setX, Regs.write_x0]

theorem readX_setX (s : State) (r : Reg) (v : Word) (q : Reg) :
    (s.setX r v).readX q = if q = .x0 then 0 else if q = r then v else s.readX q :=
  Regs.read_write s.x r v q

theorem readX_setX_self (s : State) {r : Reg} (v : Word) (hr : r ≠ .x0) : (s.setX r v).readX r = v := by
  rw [readX_setX, if_neg hr, if_pos rfl]

theorem readX_setX_of_ne (s : State) {r q : Reg} (v : Word) (hq : q ≠ r) : (s.setX r v).readX q = s.readX q :=
  Regs.read_write_of_ne s.x v hq

/-- Settles O15: a read of the written register is `readX_setX_self`, or of `x0` after a discarded write; a read of
another register is `readX_setX_of_ne`. -/
theorem registersReadBack : Obligations.RegistersReadBack := by
  intro s r v
  refine ⟨readX_x0 s, setX_x0 s v, fun q => ?_⟩
  by_cases hq : q = r
  · subst hq
    by_cases hx : q = .x0
    · subst hx; simp
    · simp [readX_setX_self s v hx, hx]
  · simp [readX_setX_of_ne s v hq, hq]

/-! ### Reset -/

@[simp] theorem resetWith_e (c : Config) : (State.resetWith c).e = [] := rfl

@[simp] theorem resetWith_readCsr (c : Config) (r : Csr) : (State.resetWith c).readCsr r = 0 := by
  cases r <;> rfl

/-- With `hostReset` to come, the step is that reset, whatever the state: no check for a fault stands before it
(spec/60_exceptions.md R252). -/
theorem step_hostReset {s : State} {rest : List HostTxn} (h : s.host = .reset :: rest) :
    step s = .next (s.setHost rest).hostReset := by
  simp only [step, nextTransaction, h]

/-- Settles O16: the reset step is `State.hostReset` (`step_hostReset`), power-on is `State.resetWith`, and both leave
every control register at 0 and `E` without a listed element. -/
theorem resetLeavesTheSpecifiedValues : Obligations.ResetLeavesTheSpecifiedValues := by
  refine ⟨fun s rest h => ⟨_, step_hostReset h, ?_⟩, ?power_on⟩
  · exact ⟨hostReset_cfg _, hostReset_host _, readX_x0 _, hostReset_readCsr _, fun a => by
      rw [hostReset_e, Sparse.read_nil]⟩
  case power_on =>
    exact ⟨readX_x0 _, resetWith_readCsr _, fun a => by
      rw [State.reset, resetWith_e, Sparse.read_nil]⟩

end Sys2Proof.Machine
end

section
/-! PROOFS. A word decodes to the command that spells it (spec/30_encoding.md R83, R85, R88), and the values of the
immediate fields as numbers (R82). -/

namespace Sys2Proof

/-- The decoder sees only the fields of a word. -/
theorem decode_wordOf (op : BitVec 6) (ra rb rc : BitVec 3) (imm : Word) :
    decode (wordOf op ra rb rc imm) = decodeFields ⟨op, ra, rb, rc, 0, imm⟩ :=
  congrArg decodeFields (Fields.ofWord_toWord ⟨op, ra, rb, rc, 0, imm⟩)

/-- The decoder undoes the encoder: the fields of the word are those of the command, its opcode selects the one row of
R84, and no must-be-zero field of the format holds an operand. -/
theorem decode_encode {i : Instr} (h : i.wf = true) : decode (encode i) = .ok i := by
  rw [encode, decode, Fields.ofWord_toWord]
  cases i
  all_goals
    simp [Instr.fields, decodeFields, inFormat, Format.fits, withRoom, h, extract_geometryImm, extract_offsetImm,
      extract_csrImm, bind, Except.bind]

theorem geometryImm_eq_ofNat (start : BitVec 3) (width : BitVec 4) :
    geometryImm start width = BitVec.ofNat 16 (16 * width.toNat + start.toNat) := by
  revert start width; decide

theorem offsetImm_eq_setWidth (off : BitVec 3) : offsetImm off = off.setWidth 16 := by
  revert off; decide

/-- There is room for three destinations exactly for `x0` to `x5` (spec/40_bitfield.md R107). -/
theorem Reg.roomForThree_eq (r : Reg) : r.roomForThree = decide (r.number.toNat ≤ 5) := by
  cases r <;> rfl

/-- A `WR10` word in its format names a command exactly when its destination leaves room for three (R85). -/
theorem decodeFields_wr10 (ra rb off : BitVec 3) :
    decodeFields ⟨0x13, ra, rb, 0, 0, offsetImm off⟩ = withRoom (.wr10 (Reg.ofNumber ra) (Reg.ofNumber rb) off) := by
  simp [decodeFields, inFormat, Format.fits, extract_offsetImm, bind, Except.bind]

/-- The register `k` places after `r`, by number. -/
theorem Reg.eq_ofNumber_add {r q : Reg} {k : Nat} (h : q.number.toNat = r.number.toNat + k) :
    q = Reg.ofNumber (r.number + BitVec.ofNat 3 k) := by
  have hn : r.number + BitVec.ofNat 3 k = q.number := by
    refine BitVec.eq_of_toNat_eq ?_
    have := q.number.isLt
    rw [BitVec.toNat_add, BitVec.toNat_ofNat]
    omega
  rw [hn, Reg.ofNumber_number]

end Sys2Proof
end

section
/-! PROOFS. The values of the pure functions of the BitField Codec as numbers (spec/40_bitfield.md R100 to R111), and
the round-trip laws of R112. -/

namespace Sys2Proof.Machine

/-! ### Bytes in registers -/

/-- A byte in a register is at most 255. -/
theorem toNat_setWidth_le (b : Byte) : (b.setWidth 16).toNat ≤ 255 := by
  have := b.isLt
  rw [BitVec.toNat_setWidth]
  omega

/-- A register used as a byte has the byte's value (R114). -/
theorem toNat_setWidth_of_le {v : Word} (h : v.toNat ≤ 255) : (v.setWidth 8).toNat = v.toNat := by
  rw [BitVec.toNat_setWidth]
  omega

/-- A bit below 8 survives a change of width to at least 8 bits. -/
theorem getLsbD_setWidth_of_lt {m n i : Nat} (v : BitVec m) (hn : 8 ≤ n) (hi : i < 8) :
    (v.setWidth n).getLsbD i = v.getLsbD i := by
  rw [BitVec.getLsbD_setWidth, decide_eq_true (by omega), Bool.true_and]

/-! ### Values of the functions -/

/-- The high byte of a 10-bit value (R105). -/
theorem toNat_highByte {v : Word} (h : v.toNat ≤ 1023) : (highByte v).toNat = v.toNat / 4 := by
  rw [highByte, BitVec.toNat_setWidth, BitVec.toNat_ushiftRight, Nat.shiftRight_eq_div_pow]
  omega

/-- The low bits of a value, moved to their place in the shared byte (R105). -/
theorem toNat_lowBitsAtOffset (v : Word) {off : Nat} (ho : off + 2 ≤ 8) :
    (lowBitsAtOffset v off).toNat = v.toNat % 4 * 2 ^ off := by
  have hand : (v.setWidth 8 &&& 3).toNat = v.toNat % 4 := by
    rw [BitVec.toNat_and, BitVec.toNat_setWidth, show (3 : Byte).toNat = 2 ^ 2 - 1 from rfl,
      Nat.and_two_pow_sub_one_eq_mod]
    omega
  have hlt : v.toNat % 4 * 2 ^ off < 2 ^ 8 :=
    calc v.toNat % 4 * 2 ^ off < 2 ^ 2 * 2 ^ off :=
          Nat.mul_lt_mul_of_pos_right (Nat.mod_lt _ (by decide)) (Nat.two_pow_pos off)
      _ = 2 ^ (2 + off) := (pow_add 2 2 off).symm
      _ ≤ 2 ^ 8 := Nat.pow_le_pow_right (by decide) (by omega)
  rw [lowBitsAtOffset, BitVec.toNat_shiftLeft, hand, Nat.shiftLeft_eq, Nat.mod_eq_of_lt hlt]

/-- The mask of the six bits to keep (R105). -/
theorem toNat_clearMask {off : Nat} (ho : validOffset off) : (clearMask off).toNat = 255 - 3 * 2 ^ off := by
  rcases ho with rfl | rfl | rfl | rfl <;> rfl

/-- Merging into a zero byte leaves the shifted low bits alone. -/
theorem mergeLow_zero (v : Word) (off : Nat) : mergeLow 0 v off = lowBitsAtOffset v off := by
  simp [mergeLow]

/-- `tc16` of a decoded raw value: 512 subtracted modulo 65536 (R109, R110). -/
theorem tc16_bipDecode (v : Word) : tc16 (bipDecode v) = BitVec.ofNat 16 ((v.toNat + 65024) % 65536) := by
  refine BitVec.eq_of_toNat_eq ?_
  have hv := v.isLt
  rw [tc16, bipDecode, bias, BitVec.toNat_ofInt, BitVec.toNat_ofNat]
  omega

/-- `bipEncode` of a register pattern: 512 added modulo 65536 (R109, R111). -/
theorem bipEncode_signed16 (v : Word) : bipEncode (signed16 v) = BitVec.ofNat 16 ((v.toNat + 512) % 65536) := by
  refine BitVec.eq_of_toNat_eq ?_
  have hv := v.isLt
  rw [bipEncode, signed16, bias, BitVec.toNat_ofInt, BitVec.toNat_ofNat, BitVec.toInt_eq_toNat_cond]
  split <;> omega

/-- The offsets that fit two bits of a byte are the even ones of the field (R104, R105). -/
theorem validOffset_toNat (off : BitVec 3) : validOffset off.toNat ↔ off.toNat % 2 = 0 := by
  have := off.isLt
  omega

/-! ### The round-trip laws -/

/-- A write outside a bit range is not seen by a read of the range (R112). -/
theorem readBits_writeBits_of_disjoint {b v : Byte} {start width start' width' : Nat} (hg : start + width ≤ 8)
    (hv : v.toNat < 2 ^ width) (hd : start + width ≤ start' ∨ start' + width' ≤ start) :
    readBits (writeBits b v start width) start' width' = readBits b start' width' := by
  refine BitVec.eq_of_getLsbD_eq fun i _ => ?_
  rw [getLsbD_readBits, getLsbD_readBits, getLsbD_writeBits hg hv]
  by_cases hi : i < width'
  · rw [if_neg (by omega)]
  · simp [hi]

/-- Merges whose two bits do not meet may be made in either order (R108). -/
theorem mergeLow_comm (b : Byte) (u v : Word) {off off' : Nat} (ho : off + 2 ≤ 8) (ho' : off' + 2 ≤ 8)
    (hd : off + 2 ≤ off' ∨ off' + 2 ≤ off) :
    mergeLow (mergeLow b u off) v off' = mergeLow (mergeLow b v off') u off := by
  refine BitVec.eq_of_getLsbD_eq fun i _ => ?_
  simp only [getLsbD_mergeLow _ _ ho, getLsbD_mergeLow _ _ ho']
  by_cases h : off ≤ i ∧ i < off + 2
  · have h' : ¬(off' ≤ i ∧ i < off' + 2) := by omega
    simp only [if_pos h, if_neg h']
  · simp only [if_neg h]

/-- A merge replaces what an earlier one put at the same offset (R108). -/
theorem mergeLow_mergeLow (b : Byte) (u v : Word) {off : Nat} (ho : off + 2 ≤ 8) :
    mergeLow (mergeLow b u off) v off = mergeLow b v off := by
  refine BitVec.eq_of_getLsbD_eq fun i _ => ?_
  simp only [getLsbD_mergeLow _ _ ho]
  split <;> rfl

/-- Settles O36: each law bit by bit; the first is the merge into a zero byte. -/
theorem bitFieldLaws : Obligations.BitFieldLaws := by
  refine ⟨fun v off hv ho => ?_, fun b v start width hg hv => ?_,
    fun b u v off off' ho ho' => ⟨fun hne => ?_, ?_⟩⟩
  · rw [← mergeLow_zero]
    exact read10_write10 hv 0 (validOffset_le ho)
  · have hfit : v.toNat < 2 ^ width := by have := Nat.two_pow_pos width; omega
    obtain ⟨-, -, hg⟩ := hg
    exact ⟨readBits_writeBits hg hfit, fun _ _ _ hd => readBits_writeBits_of_disjoint hg hfit hd⟩
  · exact mergeLow_comm b u v (validOffset_le ho) (validOffset_le ho') (by omega)
  · exact mergeLow_mergeLow b u v (validOffset_le ho)

end Sys2Proof.Machine
end

section
/-! PROOFS. The BitField Codec commands: their words, the value each writes and the faults each raises
(spec/40_bitfield.md R102 to R111). -/

namespace Sys2Proof.Machine

/-! ### The two outcomes of a command that writes one register -/

/-- A body that gives one register write completes: that write and the count in `CIX` (spec/10_state.md R46). -/
theorem State.command_setX {s : State} {body : Except Raised State} {rd : Reg} {v : Word}
    (hf : s.faulted = false) (h : body = .ok (s.setX rd v)) : s.command body = .next (s.wroteX rd v) := by
  rw [h, State.command_ok hf]
  rfl

/-- A body that raises a `RangeError` leaves the four writes with its sub-code (spec/60_exceptions.md R241, R243). -/
theorem State.command_rangeError {s : State} {body : Except Raised State} (k : RangeKind)
    (hf : s.faulted = false) (h : body = .error (.range k)) : s.command body = .next (s.afterFault 1 k.info) := by
  rw [h, State.command_error hf]
  rfl

/-! ### Bit ranges -/

/-- Settles O30: the checks of R102 in their order, and `toNat_readBits` for the value. -/
theorem rdbitsExtractsTheField : Obligations.RdbitsExtractsTheField := by
  intro s rd rs1 start width hf
  refine ⟨?word, fun h1 h8 hg hb => ?value, fun h1 h8 hg hb => ?operand, fun hg => ?geometry⟩
  case word =>
    rw [← geometryImm_eq_ofNat]
    exact decode_encode (i := .rdbits rd rs1 start width) rfl
  case value =>
    rw [← toNat_setWidth_of_le hb, ← toNat_readBits _ _ h8, BitVec.ofNat_toNat]
    exact State.command_setX hf (requireGeometry_eq_ok.mpr ⟨⟨h1, h8, hg⟩, requireByte_eq_ok.mpr ⟨hb, rfl⟩⟩)
  case operand =>
    exact State.command_rangeError .operand hf (requireGeometry_eq_error.mpr (.inr ⟨⟨h1, h8, hg⟩,
      requireByte_eq_error.mpr (.inl ⟨by omega, rfl⟩)⟩))
  case geometry =>
    exact State.command_rangeError .geometry hf (requireGeometry_eq_error.mpr (.inl ⟨hg, rfl⟩))

/-- Settles O31: the checks of R103 in their order, and `getLsbD_writeBits` for the bits of the result. -/
theorem wrbitsReplacesTheField : Obligations.WrbitsReplacesTheField := by
  intro s rd rs1 rs2 start width hf
  refine ⟨?word, fun h1 h8 hg hb hv => ?value, fun h1 h8 hg hb hv => ?unfit, fun h1 h8 hg hb => ?operand,
    fun hg => ?geometry⟩
  case word =>
    rw [← geometryImm_eq_ofNat]
    exact decode_encode (i := .wrbits rd rs1 rs2 start width) rfl
  case value =>
    refine ⟨_, State.command_setX hf (requireGeometry_eq_ok.mpr ⟨⟨h1, h8, hg⟩, requireByte_eq_ok.mpr ⟨hb,
      requireValue_eq_ok.mpr ⟨hv, rfl⟩⟩⟩), toNat_setWidth_le _, fun i hi => ?_⟩
    have hfit : ((s.readX rs2).setWidth 8).toNat < 2 ^ width.toNat := by
      have hpos := Nat.two_pow_pos width.toNat
      have hle := Nat.mod_le (s.readX rs2).toNat (2 ^ 8)
      rw [BitVec.toNat_setWidth]
      omega
    rw [getLsbD_setWidth_of_lt _ (by decide) hi, getLsbD_writeBits hg hfit,
      getLsbD_setWidth_of_lt _ (by decide) hi, getLsbD_setWidth_of_lt _ (by decide) (by omega)]
  case unfit =>
    have hpos := Nat.two_pow_pos width.toNat
    exact State.command_rangeError .value hf (requireGeometry_eq_error.mpr (.inr ⟨⟨h1, h8, hg⟩,
      requireByte_eq_error.mpr (.inr ⟨hb, requireValue_eq_error.mpr (.inl ⟨by omega, rfl⟩)⟩)⟩))
  case operand =>
    exact State.command_rangeError .operand hf (requireGeometry_eq_error.mpr (.inr ⟨⟨h1, h8, hg⟩,
      requireByte_eq_error.mpr (.inl ⟨by omega, rfl⟩)⟩))
  case geometry =>
    exact State.command_rangeError .geometry hf (requireGeometry_eq_error.mpr (.inl ⟨hg, rfl⟩))

/-! ### Ten-bit values -/

/-- An odd offset is refused before anything else is looked at (R106 to R108). -/
theorem requireOffset_odd {α : Type} {off : BitVec 3} (ho : off.toNat % 2 = 1) (k : Except Raised α) :
    requireOffset off k = .error (.range .offset) :=
  requireOffset_eq_error.mpr (.inl ⟨by rw [validOffset_toNat]; omega, rfl⟩)

/-- Settles O32: the checks of R106 in their order, and `toNat_read10` for the value. -/
theorem rd10CombinesTheTwoBytes : Obligations.Rd10CombinesTheTwoBytes := by
  intro s rd rs1 rs2 off hf
  refine ⟨?word, fun ho h1 h2 => ?value, fun ho hb => ?operand, fun ho => ?offset⟩
  case word =>
    rw [← offsetImm_eq_setWidth]
    exact decode_encode (i := .rd10 rd rs1 rs2 off) rfl
  case value =>
    rw [← toNat_setWidth_of_le h1, ← toNat_setWidth_of_le h2, ← toNat_read10, BitVec.ofNat_toNat, BitVec.setWidth_eq]
    exact State.command_setX hf (requireOffset_eq_ok.mpr ⟨(validOffset_toNat off).mpr ho,
      requireByte_eq_ok.mpr ⟨h1, requireByte_eq_ok.mpr ⟨h2, rfl⟩⟩⟩)
  case operand =>
    refine State.command_rangeError .operand hf (requireOffset_eq_error.mpr (.inr ⟨(validOffset_toNat off).mpr ho,
      requireByte_eq_error.mpr ?_⟩))
    by_cases h1 : (s.readX rs1).toNat ≤ 255
    · exact .inr ⟨h1, requireByte_eq_error.mpr (.inl ⟨by omega, rfl⟩)⟩
    · exact .inl ⟨h1, rfl⟩
  case offset =>
    exact State.command_rangeError .offset hf (requireOffset_odd ho _)

/-- A register with two more after it is one of `x0` to `x5`. -/
theorem number_le_five {r q : Reg} (h : q.number.toNat = r.number.toNat + 2) : r.number.toNat ≤ 5 := by
  have := q.number.isLt
  omega

/-- The two registers after a destination with room for three (R107). -/
theorem nextTwo_of_le {r : Reg} (h : r.number.toNat ≤ 5) :
    nextTwo r = some (Reg.ofNumber (r.number + 1), Reg.ofNumber (r.number + 2)) := by
  cases r
  case x6 => exact absurd h (by decide)
  case x7 => exact absurd h (by decide)
  all_goals rfl

/-- `WR10` with room for three destinations: the checks of R107, then the three writes of what was read. -/
theorem exec_wr10 {rd rd1 rd2 : Reg} (h1 : rd1.number.toNat = rd.number.toNat + 1)
    (h2 : rd2.number.toNat = rd.number.toNat + 2) (rs1 : Reg) (off : BitVec 3) (s : State) :
    exec (.wr10 rd rs1 off) s = s.command (requireOffset off <| requireValue (s.readX rs1) 1023 <|
      .ok (((s.setX rd ((highByte (s.readX rs1)).setWidth 16)).setX rd1
        ((lowBitsAtOffset (s.readX rs1) off.toNat).setWidth 16)).setX rd2 ((clearMask off.toNat).setWidth 16))) := by
  have hnext : nextTwo rd = some (rd1, rd2) := by
    rw [nextTwo_of_le (number_le_five h2), Reg.eq_ofNumber_add h1, Reg.eq_ofNumber_add h2]
    rfl
  simp only [exec, execWr10, hnext]

/-- Settles O33: `exec_wr10` for the command, and the values of `write10` as numbers. -/
theorem wr10WritesThreeRegisters : Obligations.Wr10WritesThreeRegisters := by
  refine ⟨fun ra rb off hra => ?no_room, fun s rd rd1 rd2 rs1 off hf h1 h2 =>
    ⟨?word, fun ho hv => ?value, fun ho hv => ?unfit, fun ho => ?offset⟩⟩
  case no_room =>
    have hroom : (Reg.ofNumber ra).roomForThree = false := by
      rw [Reg.roomForThree_eq, Reg.number_ofNumber, decide_eq_false (by omega)]
    rw [← offsetImm_eq_setWidth, decode_wordOf, decodeFields_wr10, withRoom, Instr.wf, hroom]
    rfl
  case word =>
    have hroom : rd.roomForThree = true := by
      rw [Reg.roomForThree_eq, decide_eq_true (number_le_five h2)]
    rw [← offsetImm_eq_setWidth]
    exact decode_encode (i := .wr10 rd rs1 off) hroom
  case value =>
    have hoff := (validOffset_toNat off).mpr ho
    rw [exec_wr10 h1 h2, requireOffset_eq_ok.mpr ⟨hoff, requireValue_eq_ok.mpr ⟨hv, rfl⟩⟩, State.command_ok hf,
      ← toNat_highByte hv, ← toNat_lowBitsAtOffset _ (validOffset_le hoff), ← toNat_clearMask hoff]
    simp only [BitVec.ofNat_toNat]
    rfl
  case unfit =>
    rw [exec_wr10 h1 h2]
    exact State.command_rangeError .value hf (requireOffset_eq_error.mpr (.inr ⟨(validOffset_toNat off).mpr ho,
      requireValue_eq_error.mpr (.inl ⟨by omega, rfl⟩)⟩))
  case offset =>
    rw [exec_wr10 h1 h2]
    exact State.command_rangeError .offset hf (requireOffset_odd ho _)

/-- Settles O34: the checks of R108 in their order, and `getLsbD_mergeLow` for the bits of the result. -/
theorem mrg10MergesTheLowBits : Obligations.Mrg10MergesTheLowBits := by
  intro s rd rs1 rs2 off hf
  refine ⟨?word, fun ho hb hv => ?value, fun ho hb hv => ?unfit, fun ho hb => ?operand, fun ho => ?offset⟩
  case word =>
    rw [← offsetImm_eq_setWidth]
    exact decode_encode (i := .mrg10 rd rs1 rs2 off) rfl
  case value =>
    have hoff := (validOffset_toNat off).mpr ho
    refine ⟨_, State.command_setX hf (requireOffset_eq_ok.mpr ⟨hoff, requireByte_eq_ok.mpr ⟨hb,
      requireValue_eq_ok.mpr ⟨hv, rfl⟩⟩⟩), toNat_setWidth_le _, fun i hi => ?_⟩
    rw [getLsbD_setWidth_of_lt _ (by decide) hi, getLsbD_mergeLow _ _ (validOffset_le hoff),
      getLsbD_setWidth_of_lt _ (by decide) hi]
  case unfit =>
    exact State.command_rangeError .value hf (requireOffset_eq_error.mpr (.inr ⟨(validOffset_toNat off).mpr ho,
      requireByte_eq_error.mpr (.inr ⟨hb, requireValue_eq_error.mpr (.inl ⟨by omega, rfl⟩)⟩)⟩))
  case operand =>
    exact State.command_rangeError .operand hf (requireOffset_eq_error.mpr (.inr ⟨(validOffset_toNat off).mpr ho,
      requireByte_eq_error.mpr (.inl ⟨by omega, rfl⟩)⟩))
  case offset =>
    exact State.command_rangeError .offset hf (requireOffset_odd ho _)

/-! ### Bipolar coding -/

/-- Settles O35: the one check of each of R110 and R111, the accepted patterns by `validLogical_signed16`, and the
shifts by 512 as numbers. -/
theorem bipolarCodingShiftsBy512 : Obligations.BipolarCodingShiftsBy512 := by
  intro s rd rs1 hf
  refine ⟨decode_encode (i := .bipdec rd rs1) rfl, fun hv => ?decode, fun hv => ?decode_unfit,
    decode_encode (i := .bipenc rd rs1) rfl, fun hv => ?encode, fun hlow hhigh => ?encode_unfit⟩
  case decode =>
    rw [← tc16_bipDecode]
    exact State.command_setX hf (requireValue_eq_ok.mpr ⟨hv, rfl⟩)
  case decode_unfit =>
    exact State.command_rangeError .value hf (requireValue_eq_error.mpr (.inl ⟨by omega, rfl⟩))
  case encode =>
    rw [← bipEncode_signed16]
    exact State.command_setX hf (require_eq_ok.mpr ⟨(validLogical_signed16 _).mpr hv, rfl⟩)
  case encode_unfit =>
    exact State.command_rangeError .value hf (require_eq_error.mpr (.inl ⟨by rw [validLogical_signed16]; omega, rfl⟩))

end Sys2Proof.Machine
end

section
/-! PROOFS. The functions of the SevenBit Codec: groups and whole sequences as numbers, and the round trips of R124 and
R131 (spec/41_sevenbit.md R120 to R126). -/

namespace Sys2Proof.Machine

/-! ### Carrier bits -/

theorem carrierBit_eq_carrierPosition (o : CarrierOrder) (i : Nat) : carrierBit o i = carrierPosition o i := by
  cases o <;> rfl

/-- `cb` is a bijection on `0..6`, and its own inverse (R121, R124). -/
theorem carrierBit_carrierBit (o : CarrierOrder) {i : Nat} (h : i < 7) : carrierBit o (carrierBit o i) = i := by
  cases o
  case asc => rfl
  case desc =>
    simp only [carrierBit]
    omega

/-! ### Seven-bit bytes -/

theorem toNat_and_low7 (b : Byte) : (b &&& 0x7F).toNat = b.toNat % 128 := by
  rw [BitVec.toNat_and, show (0x7F : Byte).toNat = 2 ^ 7 - 1 from rfl, Nat.and_two_pow_sub_one_eq_mod]

theorem toNat_and_low7_le (b : Byte) : (b &&& 0x7F).toNat ≤ 127 := by
  rw [toNat_and_low7]
  omega

theorem toNat_carrierByte_le (o : CarrierOrder) (d : List Byte) : (carrierByte o d).toNat ≤ 127 := by
  have hlt : (carrierByte o d).toNat < 2 ^ 7 := Nat.lt_pow_two_of_testBit _ fun _ hj => getLsbD_carrierByte_high o d hj
  omega

/-- A packed group is 7-bit safe (R123). -/
theorem toNat_le_of_mem_packGroup {o : CarrierOrder} {d : List Byte} {x : Byte} (h : x ∈ packGroup o d) :
    x.toNat ≤ 127 := by
  rw [packGroup, List.mem_cons, List.mem_map] at h
  rcases h with rfl | ⟨i, -, rfl⟩
  · exact toNat_carrierByte_le o d
  · exact toNat_and_low7_le _

theorem toNat_le_of_mem_packGroups {o : CarrierOrder} {k : Nat} {b : List Byte} {x : Byte}
    (h : x ∈ packGroups o k b) : x.toNat ≤ 127 := by
  induction k generalizing b with
  | zero => cases h
  | succ k ih =>
    rw [packGroups, List.mem_append] at h
    rcases h with h | h
    · exact toNat_le_of_mem_packGroup h
    · exact ih h

/-- A packed sequence is 7-bit safe (R123, R125). -/
theorem toNat_packAll_le (o : CarrierOrder) (b : List Byte) {i : Nat} (hi : i < 8 * (b.length / 7)) :
    ((packAll o b).getD i 0).toNat ≤ 127 := by
  rw [← length_packAll o b] at hi
  rw [List.getD_eq_getElem _ _ hi]
  exact toNat_le_of_mem_packGroups (List.getElem_mem hi)

/-- One group is a sequence of one group (R125). -/
theorem unpackAll_of_length_eight (o : CarrierOrder) {g : List Byte} (h : g.length = 8) :
    unpackAll o g = unpackGroup o g := by
  rw [unpackAll, h, unpackGroups, unpackGroups, List.append_nil, List.take_of_length_le (le_of_eq h)]

/-! ### Which wire bytes carry a body byte -/

/-- Byte `j` of the unpacked bytes of a range is the one the range carries (R126). -/
theorem toNat_unpackAll_readRange (o : CarrierOrder) (w : Memory) (a : Nat) {n j : Nat} (hj : j < 7 * (n / 8)) :
    ((unpackAll o (w.readRange a n)).getD j 0).toNat = carriedByte o w a j := by
  rw [carriedByte, ← carrierBit_eq_carrierPosition]
  refine toNat_of_carried fun i => ?_
  rw [getLsbD_unpackAll o _ (by rwa [Sparse.length_readRange]), Sparse.getD_readRange, Sparse.getD_readRange,
    if_pos (show 8 * (j / 7) < n by omega), if_pos (show 8 * (j / 7) + 1 + j % 7 < n by omega)]
  simp only [Nat.add_assoc]

/-- A buffer that holds a packed sequence from index `a` on carries that sequence (R126). -/
theorem carriedByte_of_packAll {o : CarrierOrder} {b : List Byte} {m : Memory} {a : Nat}
    (h : ∀ i < 8 * (b.length / 7), m.read (a + i) = (packAll o b).getD i 0) {j : Nat} (hj : j < 7 * (b.length / 7)) :
    carriedByte o m a j = (b.getD j 0).toNat := by
  rw [carriedByte, ← carrierBit_eq_carrierPosition]
  refine (toNat_of_carried fun i => ?_).symm
  rw [Nat.add_assoc, Nat.add_assoc, h _ (by omega), h _ (by omega), getLsbD_packAll_carrier o b hj, ← Nat.add_assoc,
    getD_packAll_data o b hj, BitVec.getLsbD_and, getLsbD_low7]
  by_cases h7 : i < 7
  · simp [h7, Nat.ne_of_lt h7]
  · by_cases he : i = 7
    · simp [he]
    · simp [h7, he, BitVec.getLsbD_of_ge _ i (show 8 ≤ i by omega)]

/-! ### Round trips group by group -/

/-- Lists of bytes of one length that agree at every index are equal. -/
theorem eq_of_getD {l l' : List Byte} (hl : l.length = l'.length) (h : ∀ i < l.length, l.getD i 0 = l'.getD i 0) :
    l = l' := by
  refine List.ext_getElem hl fun i h1 h2 => ?_
  rw [← List.getD_eq_getElem _ 0 h1, ← List.getD_eq_getElem _ 0 h2]
  exact h i h1

/-- The first half of R124. -/
theorem unpackGroup_packGroup (o : CarrierOrder) {d : List Byte} (hd : d.length = 7) :
    unpackGroup o (packGroup o d) = d := by
  refine eq_of_getD (by simp [hd]) fun i hi => ?_
  rw [length_unpackGroup] at hi
  refine BitVec.eq_of_getLsbD_eq fun j hj => ?_
  rw [getLsbD_unpackGroup o _ hi, getD_packGroup_zero, getLsbD_carrierByte o d hi, getD_packGroup_succ o d hi,
    BitVec.getLsbD_and, getLsbD_low7]
  by_cases h7 : j = 7
  · simp [h7]
  · simp [h7, show j < 7 by omega]

/-- The carrier byte of an unpacked group is the group's own, bit 7 cleared (R124). -/
theorem carrierByte_unpackGroup (o : CarrierOrder) (g : List Byte) :
    carrierByte o (unpackGroup o g) = g.getD 0 0 &&& 0x7F := by
  refine BitVec.eq_of_getLsbD_eq fun j _ => ?_
  rw [BitVec.getLsbD_and, getLsbD_low7]
  by_cases hj : j < 7
  · have hcb := carrierBit_lt o hj
    have hbit := getLsbD_carrierByte o (unpackGroup o g) hcb
    rw [carrierBit_carrierBit o hj] at hbit
    rw [hbit, getLsbD_unpackGroup o g hcb, if_pos rfl, carrierBit_carrierBit o hj]
    simp [hj]
  · rw [getLsbD_carrierByte_high o _ (by omega)]
    simp [hj]

/-- A data byte of a group, unpacked and with its carrier bit dropped again (R124). -/
theorem getD_unpackGroup_and_low7 (o : CarrierOrder) (g : List Byte) {i : Nat} (hi : i < 7) :
    (unpackGroup o g).getD i 0 &&& 0x7F = g.getD (1 + i) 0 &&& 0x7F := by
  refine BitVec.eq_of_getLsbD_eq fun j _ => ?_
  rw [BitVec.getLsbD_and, BitVec.getLsbD_and, getLsbD_low7, getLsbD_unpackGroup o g hi]
  by_cases hj : j < 7
  · simp [hj, Nat.ne_of_lt hj]
  · simp [hj]

/-- The second half of R124. -/
theorem packGroup_unpackGroup (o : CarrierOrder) {g : List Byte} (hg : g.length = 8) :
    packGroup o (unpackGroup o g) = g.map (· &&& 0x7F) := by
  refine eq_of_getD (by simp [hg]) fun i hi => ?_
  rw [length_packGroup] at hi
  refine Eq.trans ?_ (List.getD_map g 0 (· &&& 0x7F)).symm
  cases i with
  | zero => exact carrierByte_unpackGroup o g
  | succ i =>
    have hi7 : i < 7 := by omega
    rw [Nat.add_comm i 1, getD_packGroup_succ o _ hi7, getD_unpackGroup_and_low7 o g hi7]

theorem unpackGroups_packGroups (o : CarrierOrder) {k : Nat} {b : List Byte} (hb : b.length = 7 * k) :
    unpackGroups o k (packGroups o k b) = b := by
  induction k generalizing b with
  | zero => exact (List.length_eq_zero_iff.mp hb).symm
  | succ k ih =>
    have hhead : (b.take 7).length = 7 := by rw [List.length_take]; omega
    have htail : (b.drop 7).length = 7 * k := by rw [List.length_drop]; omega
    rw [packGroups, unpackGroups, List.take_left' (length_packGroup o _), List.drop_left' (length_packGroup o _),
      unpackGroup_packGroup o hhead, ih htail, List.take_append_drop]

theorem packGroups_unpackGroups (o : CarrierOrder) {k : Nat} {w : List Byte} (hw : w.length = 8 * k) :
    packGroups o k (unpackGroups o k w) = w.map (· &&& 0x7F) := by
  induction k generalizing w with
  | zero => rw [List.length_eq_zero_iff.mp hw]; rfl
  | succ k ih =>
    have hhead : (w.take 8).length = 8 := by rw [List.length_take]; omega
    have htail : (w.drop 8).length = 8 * k := by rw [List.length_drop]; omega
    rw [unpackGroups, packGroups, List.take_left' (length_unpackGroup o _), List.drop_left' (length_unpackGroup o _),
      packGroup_unpackGroup o hhead, ih htail, ← List.map_append, List.take_append_drop]

/-- Settles O41: the two round trips of a group, carried through the sequence group by group. -/
theorem repackingRoundTrips : Obligations.RepackingRoundTrips := by
  intro o
  refine ⟨fun b hb => ?unpack_pack, fun w hw => ?pack_unpack⟩
  case unpack_pack =>
    rw [unpackAll, length_packAll, Nat.mul_div_cancel_left _ (by decide), packAll]
    exact unpackGroups_packGroups o (by omega)
  case pack_unpack =>
    rw [packAll, length_unpackAll, Nat.mul_div_cancel_left _ (by decide), unpackAll]
    exact packGroups_unpackGroups o (by omega)

end Sys2Proof.Machine
end

section
/-! PROOFS. The SevenBit Codec commands: their words, the bytes each writes and the faults each raises
(spec/41_sevenbit.md R127 to R130). -/

namespace Sys2Proof.Machine

/-! ### The outcomes of a command that writes one buffer -/

/-- A body that replaces `B` completes: that write and the count in `CIX` (spec/10_state.md R46). -/
theorem State.command_setB {s : State} {body : Except Raised State} {m : Memory}
    (hf : s.faulted = false) (h : body = .ok (s.setB m)) :
    s.command body = .next { s with b := m, cix := s.cix + 1 } := by
  rw [h, State.command_ok hf]
  rfl

/-- A body that replaces `W` completes: that write and the count in `CIX` (spec/10_state.md R46). -/
theorem State.command_setW {s : State} {body : Except Raised State} {m : Memory}
    (hf : s.faulted = false) (h : body = .ok (s.setW m)) :
    s.command body = .next { s with w := m, cix := s.cix + 1 } := by
  rw [h, State.command_ok hf]
  rfl

/-- A body that raises an `AddressError` leaves the four writes with the index (spec/60_exceptions.md R241, R243). -/
theorem State.command_addressError {s : State} {body : Except Raised State} {a : Nat}
    (hf : s.faulted = false) (h : body = .error (.address a)) : s.command body = .next (s.afterFault 4 a) := by
  rw [h, State.command_error hf]
  rfl

/-- A body that raises a `LengthError` leaves the four writes with the length (spec/60_exceptions.md R241, R243). -/
theorem State.command_lengthError {s : State} {body : Except Raised State} {n : Nat}
    (hf : s.faulted = false) (h : body = .error (.length n)) : s.command body = .next (s.afterFault 2 n) := by
  rw [h, State.command_error hf]
  rfl

/-- A range that leaves its space is refused with its first index (spec/20_memory.md R62). -/
theorem requireRange_of_lt {α : Type} {c : Config} {sp : Space} {a n : Nat} (h : spaceSize c sp < a + n)
    (k : Except Raised α) : requireRange c sp a n k = .error (.address a) :=
  requireRange_eq_error.mpr (.inl ⟨Nat.not_le_of_lt h, rfl⟩)

/-! ### A written range by index -/

theorem Sparse.read_writeRange_add {w : Nat} (m : Sparse w) (a : Nat) {vs : List (BitVec w)} {j : Nat}
    (hj : j < vs.length) : (m.writeRange a vs).read (a + j) = vs.getD j 0 := by
  rw [Sparse.read_writeRange, if_pos (by omega), Nat.add_sub_cancel_left]

theorem Sparse.read_writeRange_of_outside {w : Nat} (m : Sparse w) {a n c : Nat} {vs : List (BitVec w)}
    (hn : vs.length = n) (h : c < a ∨ a + n ≤ c) : (m.writeRange a vs).read c = m.read c := by
  rw [Sparse.read_writeRange, if_neg (by omega)]

/-- A body with the unpacked bytes of a wire range in it, by index (R126). -/
theorem toNat_read_unpacked (o : CarrierOrder) (w t : Memory) (a b : Nat) {n j : Nat} (hj : j < 7 * (n / 8)) :
    ((t.writeRange b (unpackAll o (w.readRange a n))).read (b + j)).toNat = carriedByte o w a j := by
  rw [Sparse.read_writeRange_add _ _ (by simpa using hj), toNat_unpackAll_readRange o w a hj]

/-- A wire buffer with a packed body range in it, by index. -/
theorem read_packed (o : CarrierOrder) (w t : Memory) (a b : Nat) {n i : Nat} (hi : i < 8 * (n / 7)) :
    (w.writeRange a (packAll o (t.readRange b n))).read (a + i) = (packAll o (t.readRange b n)).getD i 0 :=
  Sparse.read_writeRange_add _ _ (by simpa using hi)

/-- A wire buffer with a packed group in it: the carrier byte comes first (R120, R123). -/
theorem read_packedGroup_carrier (o : CarrierOrder) (w : Memory) (a : Nat) (d : List Byte) :
    (w.writeRange a (packGroup o d)).read a = carrierByte o d :=
  Sparse.read_writeRange_add w a (j := 0) (by simp)

/-- A wire buffer with a packed group in it: the data bytes follow the carrier byte (R120, R123). -/
theorem read_packedGroup_data (o : CarrierOrder) (w : Memory) (a : Nat) (d : List Byte) {i : Nat} (hi : i < 7) :
    (w.writeRange a (packGroup o d)).read (a + 1 + i) = d.getD i 0 &&& 0x7F := by
  rw [Nat.add_assoc, Sparse.read_writeRange_add _ _ (by rw [length_packGroup]; omega), getD_packGroup_succ o d hi]

/-! ### Whole conversions -/

/-- Settles O39: the checks of R127 in their order, and `toNat_read_unpacked` for the bytes. -/
theorem unpkallUnpacksTheGroups : Obligations.UnpkallUnpacksTheGroups := by
  intro s ri bi rn hf
  refine ⟨decode_encode (i := .unpkall ri bi rn) rfl, fun hn ha hb => ?unpack, fun hn => ?length,
    fun hn ha => ?wire, fun hn ha hb => ?body⟩
  case unpack =>
    exact ⟨_, State.command_setB hf (requireMultiple_eq_ok.mpr ⟨hn, requireRange_eq_ok.mpr ⟨ha,
        requireRange_eq_ok.mpr ⟨hb, rfl⟩⟩⟩),
      fun _ hj => toNat_read_unpacked _ _ _ _ _ hj,
      fun _ hc => Sparse.read_writeRange_of_outside _ (by simp) hc⟩
  case length =>
    exact State.command_lengthError hf (requireMultiple_eq_error.mpr (.inl ⟨hn, rfl⟩))
  case wire =>
    exact State.command_addressError hf (requireMultiple_eq_error.mpr (.inr ⟨hn, requireRange_of_lt ha _⟩))
  case body =>
    exact State.command_addressError hf (requireMultiple_eq_error.mpr (.inr ⟨hn,
      requireRange_eq_error.mpr (.inr ⟨ha, requireRange_of_lt hb _⟩)⟩))

/-- Settles O40: the checks of R128 in their order, `carriedByte_of_packAll` for what the wire bytes carry and
`toNat_packAll_le` for their bound. -/
theorem pkallPacksTheGroups : Obligations.PkallPacksTheGroups := by
  intro s ri bi rn hf
  refine ⟨decode_encode (i := .pkall ri bi rn) rfl, fun hn hb ha => ?pack, fun hn => ?length,
    fun hn hb => ?body, fun hn hb ha => ?wire⟩
  case pack =>
    refine ⟨_, State.command_setW hf (requireMultiple_eq_ok.mpr ⟨hn, requireRange_eq_ok.mpr ⟨hb,
        requireRange_eq_ok.mpr ⟨ha, rfl⟩⟩⟩), fun j hj => ?carried, fun j hj => ?safe,
      fun _ hc => Sparse.read_writeRange_of_outside _ (by simp) hc⟩
    case carried =>
      rw [carriedByte_of_packAll (fun i hi => read_packed _ _ _ _ _ (by simpa using hi))
        (by rw [Sparse.length_readRange]; omega), Sparse.getD_readRange, if_pos hj]
    case safe =>
      rw [read_packed _ _ _ _ _ hj]
      exact toNat_packAll_le _ _ (by simpa using hj)
  case length =>
    exact State.command_lengthError hf (requireMultiple_eq_error.mpr (.inl ⟨hn, rfl⟩))
  case body =>
    exact State.command_addressError hf (requireMultiple_eq_error.mpr (.inr ⟨hn, requireRange_of_lt hb _⟩))
  case wire =>
    exact State.command_addressError hf (requireMultiple_eq_error.mpr (.inr ⟨hn,
      requireRange_eq_error.mpr (.inr ⟨hb, requireRange_of_lt ha _⟩)⟩))

/-! ### Single groups -/

/-- Settles O37: the checks of R129 in their order; the group is a sequence of one group. -/
theorem unpkgUnpacksOneGroup : Obligations.UnpkgUnpacksOneGroup := by
  intro s ri bi hf
  refine ⟨decode_encode (i := .unpkg ri bi) rfl, fun ha hb => ?unpack, fun ha => ?wire, fun ha hb => ?body⟩
  case unpack =>
    refine ⟨_, State.command_setB hf (requireRange_eq_ok.mpr ⟨ha, requireRange_eq_ok.mpr ⟨hb, rfl⟩⟩),
      fun j hj => ?_, fun _ hc => Sparse.read_writeRange_of_outside _ (length_unpackGroup _ _) hc⟩
    rw [← unpackAll_of_length_eight _ (Sparse.length_readRange _ _ _)]
    exact toNat_read_unpacked _ _ _ _ _ hj
  case wire =>
    exact State.command_addressError hf (requireRange_of_lt ha _)
  case body =>
    exact State.command_addressError hf (requireRange_eq_error.mpr (.inr ⟨ha, requireRange_of_lt hb _⟩))

/-- Settles O38: the checks of R130 in their order; byte 0 of the group is the carrier byte, the others the low seven
bits of the body bytes. -/
theorem pkgPacksOneGroup : Obligations.PkgPacksOneGroup := by
  intro s ri bi hf
  refine ⟨decode_encode (i := .pkg ri bi) rfl, fun ha hb => ?pack, fun hb => ?body, fun hb ha => ?wire⟩
  case pack =>
    have hdata : ∀ i, i < 7 → (s.b.readRange (s.readX bi).toNat 7).getD i 0 = s.b.read ((s.readX bi).toNat + i) :=
      fun i hi => by rw [Sparse.getD_readRange, if_pos hi]
    refine ⟨_, State.command_setW hf (requireRange_eq_ok.mpr ⟨hb, requireRange_eq_ok.mpr ⟨ha, rfl⟩⟩),
      fun i hi => ?top, fun i hi => ?low, ?safe,
      fun _ hc => Sparse.read_writeRange_of_outside _ (length_packGroup _ _) hc⟩
    case top =>
      rw [read_packedGroup_carrier, ← carrierBit_eq_carrierPosition, getLsbD_carrierByte _ _ hi, hdata i hi]
    case low =>
      rw [read_packedGroup_data _ _ _ _ hi, toNat_and_low7, hdata i hi]
    case safe =>
      rw [read_packedGroup_carrier]
      exact toNat_carrierByte_le _ _
  case body =>
    exact State.command_addressError hf (requireRange_of_lt hb _)
  case wire =>
    exact State.command_addressError hf (requireRange_eq_error.mpr (.inr ⟨hb, requireRange_of_lt ha _⟩))

end Sys2Proof.Machine
end

section
/-! PROOFS. The result of `validate` member by member (spec/42_frame.md R143 to R145), when it reports success, and what
`commitResult` writes. -/

namespace Sys2Proof.Machine

/-! ### The unsafe payload bytes -/

/-- Both lists hold the same indices in rising order. -/
theorem badPayload_eq_unsafePayload (s : State) : badPayload s.w s.wlen.toNat = s.unsafePayload := by
  refine List.Pairwise.eq_of_mem_iff (r := (· < ·)) ?_ ?_ fun a => ?_
  · exact (List.pairwise_map.mpr (List.pairwise_lt_range.imp fun h => Nat.add_lt_add_right h hdrLen)).filter _
  · exact List.pairwise_lt_range.filter _
  · rw [mem_badPayload, State.unsafePayload, List.mem_filter]
    simp only [List.mem_range, Bool.and_eq_true, decide_eq_true_eq]
    omega

/-! ### The members of the result -/

theorem toNat_ofNat_word {n : Nat} (h : n < 65536) : (BitVec.ofNat 16 n).toNat = n :=
  (BitVec.toNat_ofNat n 16).trans (Nat.mod_eq_of_lt h)

section Members

variable (paycap : Nat) (w : Memory) (wlen : Word)

theorem validate_elenact :
    (validate paycap w wlen).elenact = if wlen.toNat = msgLen then 0 else wlen := by
  by_cases h : wlen.toNat = msgLen <;> simp [validate, h]

theorem toNat_epaycnt :
    (validate paycap w wlen).epaycnt.toNat = (badPayload w wlen.toNat).length := by
  have := length_badPayload w wlen.toNat
  exact toNat_ofNat_word (by omega)

theorem toNat_eln :
    (validate paycap w wlen).eln.toNat = min (badPayload w wlen.toNat).length paycap := by
  have := length_badPayload w wlen.toNat
  exact toNat_ofNat_word (by omega)

theorem epaycnt_ne_zero_iff :
    (validate paycap w wlen).epaycnt ≠ 0 ↔ badPayload w wlen.toNat ≠ [] := by
  rw [ne_eq, ← BitVec.toNat_inj, toNat_epaycnt]
  exact not_congr List.length_eq_zero_iff

/-- The bits of `ERR`, each with the member or the check it stands for (spec/10_state.md R38). -/
theorem validate_err_bits :
    (validate paycap w wlen).err.getLsbD 0 = decide (wlen.toNat ≠ msgLen) ∧
      (validate paycap w wlen).err.getLsbD 1 = decide ((validate paycap w wlen).ehdrmask ≠ 0) ∧
      (validate paycap w wlen).err.getLsbD 2 = badFooter w wlen.toNat ∧
      (validate paycap w wlen).err.getLsbD 3 = decide ((validate paycap w wlen).epaycnt ≠ 0) ∧
      (validate paycap w wlen).err.toNat ≤ 15 := by
  obtain ⟨h0, h1, h2, h3, hmax, -⟩ := structural_err_bits (decide (wlen.toNat ≠ msgLen))
    (decide (maskOf (badHeader w wlen.toNat) hdrLen ≠ 0)) (badFooter w wlen.toNat)
    (decide (badPayload w wlen.toNat ≠ []))
  rw [decide_eq_decide.mpr (epaycnt_ne_zero_iff paycap w wlen)]
  exact ⟨h0, h1, h2, h3, hmax⟩

/-- The listed elements of `E` are two words for each recorded byte, up to `PAYCAP` of them (spec/10_state.md R28). -/
theorem validate_e_read (a : Nat) :
    (validate paycap w wlen).e.read a = (payloadRecords w ((badPayload w wlen.toNat).take paycap)).getD a 0 :=
  Sparse.read_ofList _ a

variable {paycap w wlen} in
theorem validate_e_beyond {a : Nat}
    (h : 2 * (validate paycap w wlen).eln.toNat ≤ a) : (validate paycap w wlen).e.read a = 0 := by
  rw [validate_e_read, List.getD_eq_default]
  rwa [length_payloadRecords, List.length_take, Nat.min_comm, ← toNat_eln]

variable {paycap w wlen} in
/-- Record `j` of the error list names the `j`-th unsafe byte. -/
theorem validate_e_record {j a : Nat}
    (hj : j < (validate paycap w wlen).eln.toNat) (h : (badPayload w wlen.toNat)[j]? = some a) :
    ((validate paycap w wlen).e.read (2 * j)).toNat = a ∧
      (validate paycap w wlen).e.read (2 * j + 1) = (w.read a).setWidth 16 := by
  rw [toNat_eln] at hj
  have htake : ((badPayload w wlen.toNat).take paycap)[j]? = some a := by
    rw [List.getElem?_take_of_lt (by omega), h]
  obtain ⟨hindex, hbyte⟩ := getD_payloadRecords w htake
  obtain ⟨-, hle, -⟩ := mem_badPayload.mp (List.mem_of_getElem? h)
  rw [validate_e_read, validate_e_read, hindex, hbyte]
  exact ⟨toNat_ofNat_word (by omega), rfl⟩

/-! ### Success -/

theorem validate_valid :
    (validate paycap w wlen).valid = decide ((validate paycap w wlen).err = 0) := rfl

/-- No check fails: the four bits of `ERR` are clear (R145). -/
theorem validate_valid_iff_checks :
    (validate paycap w wlen).valid = true ↔
      wlen.toNat = msgLen ∧ (∀ i < hdrLen, badHeader w wlen.toNat i = false) ∧ badFooter w wlen.toNat = false ∧
        badPayload w wlen.toNat = [] := by
  obtain ⟨-, -, -, -, -, hzero⟩ := structural_err_bits (decide (wlen.toNat ≠ msgLen))
    (decide (maskOf (badHeader w wlen.toNat) hdrLen ≠ 0)) (badFooter w wlen.toNat)
    (decide (badPayload w wlen.toNat ≠ []))
  rw [validate_valid, decide_eq_true_iff, validate_err, hzero]
  simp only [decide_eq_false_iff_not, not_not, maskOf_eq_zero (show hdrLen ≤ 16 by decide)]

end Members

/-- The checks of a whole message look at no absent byte, and together say that it is well formed (R144, R145). -/
theorem validate_valid_iff (s : State) (paycap : Nat) :
    (validate paycap s.w s.wlen).valid = true ↔ s.wellFormedMessage := by
  have hlen : s.wlen.toNat = msgLen ↔ s.wlen = 520 := by rw [← BitVec.toNat_inj]; rfl
  rw [validate_valid_iff_checks, hlen, State.wellFormedMessage]
  refine and_congr_right fun h => ?_
  rw [show s.wlen.toNat = 520 from hlen.mpr h]
  refine and_congr (forall₂_congr fun i hi => ?header) (and_congr ?footer ?payload)
  case header =>
    have hpresent : ¬520 ≤ i := by simp only [hdrLen] at hi; omega
    simp [badHeader, hpresent, hdr, headerBytes]
  case footer =>
    rw [badFooter, Bool.or_eq_false_iff, decide_eq_false_iff_not, decide_eq_false_iff_not, not_not]
    exact and_iff_right (by decide)
  case payload =>
    rw [List.eq_nil_iff_forall_not_mem]
    refine forall_congr' fun a => ?_
    rw [mem_badPayload]
    omega

/-! ### What `commitResult` writes -/

theorem withValid_decide (st : Word) (p : Prop) [Decidable p] :
    withValid st (decide p) = (st &&& 0xFFFE) ||| (if p then 1 else 0) := by
  by_cases h : p <;> simp [withValid, h]

theorem withValid_true (st : Word) : withValid st true = st ||| 1 := by
  refine BitVec.eq_of_getLsbD_eq fun i hi => ?_
  interval_cases i <;> simp [withValid]

theorem withValid_false (st : Word) : withValid st false = st &&& 0xFFFE := BitVec.or_zero

/-- A success and its count in `CIX` (spec/60_exceptions.md R249, spec/10_state.md R46). -/
theorem advance_commitResult_success (s : State) :
    (s.commitResult Result.success).advance = { s.reportedSuccess with cix := s.cix + 1 } := by
  simp [State.commitResult, State.advance, State.reportedSuccess, Result.success, withValid_true]

/-- The marker error and its count in `CIX` (spec/42_frame.md R149, spec/10_state.md R46). -/
theorem advance_commitResult_badMarker (s : State) :
    (s.commitResult Result.badMarker).advance = { s.reportedFailure 0x10 0 0 0 with cix := s.cix + 1 } := by
  simp [State.commitResult, State.advance, State.reportedFailure, Result.badMarker, withValid_false, errFlag,
    ErrClass.bit]

/-! ### The body of a message -/

/-- The body of the message is the bytes its payload carries (R147, spec/41_sevenbit.md R126). -/
theorem toNat_getD_messageBody (c : Config) (w : Memory) {j : Nat} (hj : j < 448) :
    ((messageBody c w).getD j 0).toNat = carriedByte c.carrierOrder w 7 j :=
  toNat_unpackAll_readRange c.carrierOrder w hdrLen (n := payLen) hj

/-- The body begins with `MARKER` (R148). -/
theorem take_messageBody_eq_marker_iff (s : State) :
    (messageBody s.cfg s.w).take 4 = s.cfg.marker.toList ↔ s.markerPresent := by
  have hbyte : ∀ i < 4, ((messageBody s.cfg s.w).take 4).getD i 0 = (messageBody s.cfg s.w).getD i 0 := fun i hi => by
    rw [List.getD_eq_getElem?_getD, List.getElem?_take_of_lt hi, ← List.getD_eq_getElem?_getD]
  have hlen : ((messageBody s.cfg s.w).take 4).length = 4 := by
    rw [List.length_take, length_messageBody]
    rfl
  constructor
  · intro h i hi
    rw [← h, hbyte i hi, toNat_getD_messageBody _ _ (by omega)]
  · intro h
    refine eq_of_getD (hlen.trans Vector.length_toList.symm) fun i hi => ?_
    rw [hlen] at hi
    rw [hbyte i hi, ← BitVec.toNat_inj, toNat_getD_messageBody _ _ (by omega), h i hi]

end Sys2Proof.Machine
end

section
/-! PROOFS. The frame commands (spec/42_frame.md R146, R149). -/

namespace Sys2Proof.Machine

/-! ### VALIDATE -/

theorem exec_validate {s : State} (hf : s.faulted = false) :
    exec .validate s = .next (s.commitResult (validate s.cfg.paycap s.w s.wlen)).advance :=
  State.command_ok hf

/-- Settles O43: the next state is the committed result, and each clause is the lemma about its member of `validate`. -/
theorem validateReportsEveryError : Obligations.ValidateReportsEveryError := by
  intro s hf
  obtain ⟨helen, hehdr, heftr, hepay, hmax⟩ := validate_err_bits s.cfg.paycap s.w s.wlen
  rw [← badPayload_eq_unsafePayload]
  exact ⟨decode_encode (i := .validate) rfl, _, exec_validate hf, rfl, withValid_decide _ _, helen,
    validate_elenact s.cfg.paycap s.w s.wlen, hehdr, getLsbD_ehdrmask s.cfg.paycap s.w s.wlen, heftr, hepay, hmax,
    toNat_epaycnt s.cfg.paycap s.w s.wlen, toNat_eln s.cfg.paycap s.w s.wlen,
    fun _ _ hj ha => validate_e_record hj ha, fun _ ha => validate_e_beyond ha⟩

/-! ### PARSE -/

/-- `PARSE` of a message without a body writes the result that says why. -/
theorem exec_parse_error {s : State} {r : Result} (hf : s.faulted = false)
    (h : parseMessage s.cfg s.w s.wlen = .error r) : exec .parse s = .next (s.commitResult r).advance := by
  rw [show exec .parse s = execParse s from rfl, execParse, h, State.command_ok hf]

/-- `PARSE` of a message with a body writes it to `B` and reports success. -/
theorem exec_parse_ok {s : State} {body : List Byte} (hf : s.faulted = false)
    (h : parseMessage s.cfg s.w s.wlen = .ok body) :
    exec .parse s = .next ((s.setB (Sparse.ofList body)).commitResult Result.success).advance := by
  rw [show exec .parse s = execParse s from rfl, execParse, h, State.command_ok hf]

/-- Settles O45: the three cases of `parseMessage`. -/
theorem parseExtractsTheBody : Obligations.ParseExtractsTheBody := by
  intro s hf
  have hvalid := validate_valid_iff s s.cfg.paycap
  have hmarker := take_messageBody_eq_marker_iff s
  refine ⟨decode_encode (i := .parse) rfl, fun hw => ?structural, fun hw hm => ?marker, fun hw hm => ?body⟩
  case structural =>
    have hbad : (validate s.cfg.paycap s.w s.wlen).valid = false := Bool.eq_false_iff.mpr (mt hvalid.mp hw)
    rw [exec_parse_error hf (parseMessage_eq_error.mpr (.inl ⟨hbad, rfl⟩)), exec_validate hf]
  case marker =>
    rw [exec_parse_error hf (parseMessage_eq_error.mpr (.inr ⟨hvalid.mpr hw, mt hmarker.mp hm, rfl⟩)),
      advance_commitResult_badMarker]
  case body =>
    refine ⟨Sparse.ofList (messageBody s.cfg s.w), ?_, Sparse.below_ofList (length_messageBody _ _).le,
      fun j hj => ?_⟩
    · rw [exec_parse_ok hf (parseMessage_eq_ok.mpr ⟨hvalid.mpr hw, hmarker.mpr hm, rfl⟩),
        advance_commitResult_success]
      rfl
    · rw [Sparse.read_ofList, toNat_getD_messageBody _ _ hj]

end Sys2Proof.Machine
end

section
/-! PROOFS. The expansion of a layout by number (spec/43_layout.md R165). -/

namespace Sys2Proof.Machine

/-- An element of a `flatMap` by its place in the part of one member: the parts of the members before it come first. -/
theorem getElem?_flatMap_append_cons {α β : Type} (f : α → List β) (before : List α) (a : α) (after : List α) {k : Nat}
    (hk : k < (f a).length) :
    ((before ++ a :: after).flatMap f)[(before.map fun x => (f x).length).sum + k]? = (f a)[k]? := by
  rw [List.flatMap_append, List.flatMap_cons, ← List.length_flatMap, List.getElem?_append_right (Nat.le_add_right _ _),
    Nat.add_sub_cancel_left, List.getElem?_append_left hk]

theorem range_eq_append_cons {i n : Nat} (h : i < n) : ∃ after, List.range n = List.range i ++ i :: after := by
  refine ⟨(List.range n).drop (i + 1), ?_⟩
  conv_lhs => rw [← List.take_append_drop i (List.range n)]
  rw [List.take_range, Nat.min_eq_left h.le, List.drop_eq_getElem_cons (by simpa using h), List.getElem_range]

theorem length_leavesOf (e : Entry) : (leavesOf e).length = e.n1 * e.n2 := by
  simp [leavesOf, List.length_flatMap]

/-- The leaves of one entry, outer index first: `e.n2` of them for each outer index. -/
theorem getElem?_leavesOf {e : Entry} {i j : Nat} (hi : i < e.n1) (hj : j < e.n2) :
    (leavesOf e)[i * e.n2 + j]? = some (leafOf e i j) := by
  obtain ⟨after, hr⟩ := range_eq_append_cons hi
  have h := getElem?_flatMap_append_cons (fun i => (List.range e.n2).map fun j => leafOf e i j) (List.range i) i after
    (k := j) (by simpa using hj)
  rw [← hr] at h
  simpa [leavesOf, hj] using h

theorem nleaf_eq_sum (c : Config) : c.nleaf = (c.layout.map fun e => e.n1 * e.n2).sum := by
  simp [Config.nleaf, Config.leaves, expand, List.length_flatMap, length_leavesOf]

/-- Settles O46: the leaves of the entries before `e` come first (`getElem?_flatMap_append_cons`), then those of `e` in
the order of `getElem?_leavesOf`. -/
theorem expansionNumbersTheLeaves : Obligations.ExpansionNumbersTheLeaves := by
  refine fun c => ⟨nleaf_eq_sum c, fun before e after i j hc hi hj => ?_⟩
  have hlt : i * e.n2 + j < (leavesOf e).length := by
    have : (i + 1) * e.n2 ≤ e.n1 * e.n2 := Nat.mul_le_mul_right _ hi
    rw [Nat.add_one_mul] at this
    rw [length_leavesOf]
    omega
  have h := getElem?_flatMap_append_cons leavesOf before e after hlt
  rw [getElem?_leavesOf hi hj] at h
  simp only [length_leavesOf] at h
  rw [Nat.add_assoc, Config.leaves, hc]
  exact h

end Sys2Proof.Machine
end

section
/-! PROOFS. The fields of an admitted layout: values and declared ranges by kind, and the round trip of R174
(spec/43_layout.md R161 to R174). -/

namespace Sys2Proof.Machine

/-! ### Declared ranges -/

theorem inRange_byte {l : Entry} (hk : l.kind = .byte) (v : Word) : inRange l v = true ↔ v.toNat ≤ 255 := by
  simp only [inRange, hk, decide_eq_true_eq]

theorem inRange_bits {l : Entry} (hk : l.kind = .bits) (v : Word) :
    inRange l v = true ↔ v.toNat ≤ 2 ^ l.width - 1 := by
  simp only [inRange, hk, decide_eq_true_eq]

theorem inRange_barr {l : Entry} (hk : l.kind = .barr) (v : Word) :
    inRange l v = true ↔ v.toNat ≤ 2 ^ l.width - 1 := by
  simp only [inRange, hk, decide_eq_true_eq]

theorem inRange_s10_plain {l : Entry} (hk : l.kind = .s10) (hb : l.bip = false) (v : Word) :
    inRange l v = true ↔ v.toNat ≤ 1023 := by
  simp [inRange, hk, hb]

theorem inRange_s10_bipolar {l : Entry} (hk : l.kind = .s10) (hb : l.bip = true) (v : Word) :
    inRange l v = true ↔ v.toNat ≤ 0x01FF ∨ 0xFE00 ≤ v.toNat := by
  simp only [inRange, hk, hb, if_true, decide_eq_true_eq, validLogical_signed16]

/-! ### Values -/

theorem leafWf_of_mem {c : Config} {l : Entry} (h : wfLayout c.layout) (hl : l ∈ c.leaves) : leafWf l = true :=
  h.1 l hl

theorem toNat_read10_le (high low : Byte) (off : Nat) : (read10 high low off).toNat ≤ 1023 := by
  have := high.isLt
  rw [toNat_read10]
  omega

/-- The logical value of a stored raw value, as a signed number (spec/40_bitfield.md R109). -/
theorem toInt_tc16_bipDecode {v : Word} (h : v.toNat ≤ 1023) : (tc16 (bipDecode v)).toInt = (v.toNat : Int) - 512 := by
  rw [tc16, bipDecode, bias, BitVec.toInt_ofInt, Int.bmod_eq_of_le (by omega) (by omega)]

theorem readField_s10_plain {l : Entry} (hk : l.kind = .s10) (hb : l.bip = false) (t : Memory) :
    readField l t = read10 (t.read l.off) (t.read l.loff) l.start := by
  rw [readField_s10 hk, hb]; rfl

theorem readField_s10_bipolar {l : Entry} (hk : l.kind = .s10) (hb : l.bip = true) (t : Memory) :
    readField l t = tc16 (bipDecode (read10 (t.read l.off) (t.read l.loff) l.start)) := by
  rw [readField_s10 hk, hb]; rfl

/-- Settles O47: the value of each kind as its read function computes it, the range of each kind as its storage width
gives it. -/
theorem fieldValueAndRangeByKind : Obligations.FieldValueAndRangeByKind := by
  intro c l t v hc hl
  have hwf := leafWf_of_mem hc hl
  refine ⟨fun hk => ?byte, fun hk => ?bits, fun hk hb => ?plain, fun hk hb => ?bipolar,
    fun hk => getLsbD_readField_barr hk (leafWf_barr hwf hk).2 t, fun hk => inRange_byte hk v,
    fun hk => inRange_bits hk v, fun hk hb => inRange_s10_plain hk hb v, fun hk hb => inRange_s10_bipolar hk hb v,
    fun hk => inRange_barr hk v⟩
  case byte => rw [readField_byte hk, BitVec.toNat_setWidth_of_le (by decide)]
  case bits =>
    obtain ⟨-, hw, -⟩ := leafWf_bits hwf hk
    rw [readField_bits hk, BitVec.toNat_setWidth_of_le (by decide), toNat_readBits _ _ hw]
  case plain => rw [readField_s10_plain hk hb, toNat_read10]
  case bipolar =>
    rw [readField_s10_bipolar hk hb, toInt_tc16_bipDecode (toNat_read10_le _ _ _), toNat_read10]
    push_cast
    rfl

/-! ### A field reads its footprint alone -/

theorem bitAt_of_ge (t : Memory) {q : Nat × Nat} (h : 8 ≤ q.2) : bitAt t q = false := BitVec.getLsbD_of_ge _ _ h

theorem read_eq_of_bitAt {t t' : Memory} {a : Nat} (h : ∀ b < 8, bitAt t (a, b) = bitAt t' (a, b)) :
    t.read a = t'.read a :=
  BitVec.eq_of_getLsbD_eq h

theorem read10_congr {high low low' : Byte} {off : Nat}
    (h : ∀ i < 2, low.getLsbD (off + i) = low'.getLsbD (off + i)) : read10 high low off = read10 high low' off := by
  refine BitVec.eq_of_getLsbD_eq fun i _ => ?_
  rw [getLsbD_read10, getLsbD_read10]
  split
  · next hi => exact h i hi
  · rfl

/-- A field is a function of the bits of its footprint (R166, R167). -/
theorem readField_congr {l : Entry} (hl : leafWf l = true) {t t' : Memory}
    (h : ∀ q ∈ footprint l, bitAt t q = bitAt t' q) : readField l t = readField l t' := by
  cases hk : l.kind with
  | byte =>
    have hbyte : t.read l.off = t'.read l.off :=
      read_eq_of_bitAt fun b hb => h _ ((mem_footprint_byte hk _).mpr ⟨rfl, hb⟩)
    rw [readField_byte hk, readField_byte hk, hbyte]
  | bits =>
    have hfield : readBits (t.read l.off) l.start l.width = readBits (t'.read l.off) l.start l.width := by
      refine BitVec.eq_of_getLsbD_eq fun i _ => ?_
      rw [getLsbD_readBits, getLsbD_readBits]
      by_cases hi : i < l.width
      · exact congrArg (· && _) (h (l.off, l.start + i) ((mem_footprint_bits hk _).mpr ⟨rfl, by simp, by simpa⟩))
      · simp [hi]
    rw [readField_bits hk, readField_bits hk, hfield]
  | s10 =>
    have hhigh : t.read l.off = t'.read l.off :=
      read_eq_of_bitAt fun b hb => h _ ((mem_footprint_s10 hk _).mpr (.inl ⟨rfl, hb⟩))
    have hraw : read10 (t.read l.off) (t.read l.loff) l.start = read10 (t'.read l.off) (t'.read l.loff) l.start := by
      rw [hhigh]
      exact read10_congr fun i hi =>
        h (l.loff, l.start + i) ((mem_footprint_s10 hk _).mpr (.inr ⟨rfl, by simp, Nat.add_lt_add_left hi _⟩))
    rw [readField_s10 hk, readField_s10 hk, hraw]
  | barr =>
    obtain ⟨-, hw⟩ := leafWf_barr hl hk
    refine BitVec.eq_of_getLsbD_eq fun i _ => ?_
    rw [getLsbD_readField_barr hk hw, getLsbD_readField_barr hk hw]
    by_cases hi : i < l.width
    · exact congrArg (_ && ·) (h (l.off + i / 8, i % 8)
        ((mem_footprint_barr hk _).mpr ⟨by simp, by simp; omega, by simp; omega⟩))
    · simp [hi]

/-! ### Writing a field changes its footprint alone -/

theorem bitAt_write (t : Memory) (a : Nat) (v : Byte) (q : Nat × Nat) :
    bitAt (t.write a v) q = if q.1 = a then v.getLsbD q.2 else bitAt t q := by
  rw [bitAt, Sparse.read_write]
  split <;> rfl

/-- A value in the range of a sub-byte field fits the field as a byte (R161, R169). -/
theorem toNat_setWidth_of_inRange_bits {l : Entry} (hl : leafWf l = true) (hk : l.kind = .bits) {v : Word}
    (hv : inRange l v = true) : (v.setWidth 8).toNat = v.toNat ∧ (v.setWidth 8).toNat < 2 ^ l.width := by
  obtain ⟨-, hw, -⟩ := leafWf_bits hl hk
  have hfit := (Nat.le_sub_one_iff_lt (Nat.two_pow_pos _)).mp ((inRange_bits hk v).mp hv)
  have hbyte : 2 ^ l.width ≤ 2 ^ 8 := Nat.pow_le_pow_right (by decide) hw
  have hsame := toNat_setWidth_of_le (v := v) (by omega)
  exact ⟨hsame, hsame ▸ hfit⟩

/-- No bit outside the footprint changes (R166, R168). -/
theorem bitAt_writeField_of_notMem {l : Entry} (hl : leafWf l = true) {v : Word} (hv : inRange l v = true) (t : Memory)
    {q : Nat × Nat} (hq : q ∉ footprint l) : bitAt (writeField l t v) q = bitAt t q := by
  cases hk : l.kind with
  | byte =>
    rw [writeField_byte hk, bitAt_write]
    split
    · next ha =>
      have hb : 8 ≤ q.2 := by rw [mem_footprint_byte hk] at hq; omega
      rw [bitAt_of_ge t hb, BitVec.getLsbD_of_ge _ _ hb]
    · rfl
  | bits =>
    obtain ⟨-, -, hg⟩ := leafWf_bits hl hk
    rw [mem_footprint_bits hk] at hq
    rw [writeField_bits hk, bitAt_write]
    split
    · next ha =>
      rw [getLsbD_writeBits hg (toNat_setWidth_of_inRange_bits hl hk hv).2, if_neg (by omega), bitAt, ha]
    · rfl
  | s10 =>
    obtain ⟨ho, hne⟩ := leafWf_s10 hl hk
    rw [mem_footprint_s10 hk] at hq
    rw [writeField_s10 hk hne, bitAt_write]
    split
    · next ha => rw [getLsbD_mergeLow _ _ (validOffset_le ho), if_neg (by omega), bitAt, ha]
    · rw [bitAt_write]
      split
      · next ha =>
        have hb : 8 ≤ q.2 := by omega
        rw [bitAt_of_ge t hb, BitVec.getLsbD_of_ge _ _ hb]
      · rfl
  | barr =>
    rw [mem_footprint_barr hk] at hq
    rw [writeField_barr hk, bitAt, getLsbD_writeElements, if_neg hq, bitAt]

/-! ### The round trip -/

/-- Decoding undoes encoding for every register pattern: 512 added and subtracted modulo 65536
(spec/40_bitfield.md R109). -/
theorem tc16_bipDecode_bipEncode_signed16 (v : Word) : tc16 (bipDecode (bipEncode (signed16 v))) = v := by
  refine BitVec.eq_of_toNat_eq ?_
  have := v.isLt
  rw [tc16_bipDecode, bipEncode_signed16, BitVec.toNat_ofNat, BitVec.toNat_ofNat]
  omega

/-- A value in the range of a 10-bit field is stored as a 10-bit raw value (R162, R169). -/
theorem toNat_rawOf_le {l : Entry} (hk : l.kind = .s10) {v : Word} (hv : inRange l v = true) :
    (rawOf l v).toNat ≤ 1023 := by
  cases hb : l.bip with
  | false => simpa [rawOf, hb] using (inRange_s10_plain hk hb v).mp hv
  | true =>
    have := (inRange_s10_bipolar hk hb v).mp hv
    rw [rawOf, hb, if_pos rfl, bipEncode_signed16, BitVec.toNat_ofNat]
    omega

/-- A value in range reads back from the leaf it was written to (R174). -/
theorem readField_writeField {l : Entry} (hl : leafWf l = true) {v : Word} (hv : inRange l v = true) (t : Memory) :
    readField l (writeField l t v) = v := by
  cases hk : l.kind with
  | byte =>
    rw [readField_byte hk, writeField_byte hk, Sparse.read_write, if_pos rfl]
    refine BitVec.eq_of_toNat_eq ?_
    rw [BitVec.toNat_setWidth_of_le (by decide), toNat_setWidth_of_le ((inRange_byte hk v).mp hv)]
  | bits =>
    obtain ⟨-, -, hg⟩ := leafWf_bits hl hk
    obtain ⟨hsame, hfit⟩ := toNat_setWidth_of_inRange_bits hl hk hv
    rw [readField_bits hk, writeField_bits hk, Sparse.read_write, if_pos rfl, readBits_writeBits hg hfit]
    refine BitVec.eq_of_toNat_eq ?_
    rw [BitVec.toNat_setWidth_of_le (by decide), hsame]
  | s10 =>
    obtain ⟨ho, hne⟩ := leafWf_s10 hl hk
    have hraw : read10 ((writeField l t v).read l.off) ((writeField l t v).read l.loff) l.start = rawOf l v := by
      rw [writeField_s10 hk hne, Sparse.read_write, if_neg hne, Sparse.read_write, if_pos rfl, Sparse.read_write,
        if_pos rfl]
      exact read10_write10 (toNat_rawOf_le hk hv) _ (validOffset_le ho)
    rw [readField_s10 hk, hraw, rawOf]
    split
    · exact tc16_bipDecode_bipEncode_signed16 v
    · rfl
  | barr =>
    obtain ⟨-, hw⟩ := leafWf_barr hl hk
    have hfit := (Nat.le_sub_one_iff_lt (Nat.two_pow_pos _)).mp ((inRange_barr hk v).mp hv)
    refine BitVec.eq_of_getLsbD_eq fun i _ => ?_
    rw [getLsbD_readField_barr hk hw, writeField_barr hk, getLsbD_writeElements]
    by_cases hi : i < l.width
    · rw [decide_eq_true hi, Bool.true_and, if_pos (by omega)]
      congr 1
      omega
    · rw [decide_eq_false hi, Bool.false_and, toNat_lt_of_getLsbD hfit (by omega)]

/-- Settles O49: the written leaf by `readField_writeField`; another leaf shares no bit with it (`disjoint_leaves`), so
the bits it reads are unchanged. -/
theorem fieldRoundTrip : Obligations.FieldRoundTrip := by
  intro c k l t v hc hl hv
  have hwf := leafWf_of_mem hc (leaf_of_getElem? hl)
  refine ⟨readField_writeField hwf hv t, fun k' l' hne hl' => ?_⟩
  exact readField_congr (leafWf_of_mem hc (leaf_of_getElem? hl')) fun q hq =>
    bitAt_writeField_of_notMem hwf hv t (disjoint_leaves hc hl' hl hne q hq)

end Sys2Proof.Machine
end

section
/-! PROOFS. The field commands (spec/43_layout.md R178, R179). -/

namespace Sys2Proof.Machine

/-- The sub-code of a `RangeError` of a leaf stands above the leaf numbers of an admitted layout, so it adds
(spec/60_exceptions.md R243, R170). -/
theorem info_field {k : Nat} (h : k < 4096) : (RangeKind.field k).info = 0x5000 + k := by
  rw [RangeKind.info, show 0x5000 = 5 <<< 12 by decide, Nat.shiftLeft_add_eq_or_of_lt (i := 12) h]

theorem exec_fldrd_of_leaf {s : State} {rd rb : Reg} {imm : Word} {l : Entry} (hf : s.faulted = false)
    (hl : s.cfg.leaves[s.ea rb imm]? = some l) :
    exec (.fldrd rd rb imm) s = .next (s.wroteX rd (readField l s.b)) :=
  State.command_setX hf (by rw [hl])

theorem exec_fldrd_of_no_leaf {s : State} {rd rb : Reg} {imm : Word} (hf : s.faulted = false)
    (hl : s.cfg.leaves[s.ea rb imm]? = none) :
    exec (.fldrd rd rb imm) s = .next (s.afterFault 4 (s.ea rb imm)) :=
  State.command_addressError hf (by rw [hl])

theorem exec_fldwr_of_inRange {s : State} {rs rb : Reg} {imm : Word} {l : Entry} (hf : s.faulted = false)
    (hl : s.cfg.leaves[s.ea rb imm]? = some l) (hv : inRange l (s.readX rs) = true) :
    exec (.fldwr rs rb imm) s = .next { s with b := writeField l s.b (s.readX rs), cix := s.cix + 1 } :=
  State.command_setB hf (by rw [hl]; exact require_pos hv)

theorem exec_fldwr_of_not_inRange {s : State} {rs rb : Reg} {imm : Word} {l : Entry} (hf : s.faulted = false)
    (hl : s.cfg.leaves[s.ea rb imm]? = some l) (hv : inRange l (s.readX rs) = false) :
    exec (.fldwr rs rb imm) s = .next (s.afterFault 1 (RangeKind.field (s.ea rb imm)).info) :=
  State.command_rangeError _ hf (by rw [hl]; exact require_neg (Bool.eq_false_iff.mp hv))

theorem exec_fldwr_of_no_leaf {s : State} {rs rb : Reg} {imm : Word} (hf : s.faulted = false)
    (hl : s.cfg.leaves[s.ea rb imm]? = none) :
    exec (.fldwr rs rb imm) s = .next (s.afterFault 4 (s.ea rb imm)) :=
  State.command_addressError hf (by rw [hl])

/-- Settles O50: the outcomes of the two commands, with `readField_writeField` and `bitAt_writeField_of_notMem` for the
written leaf. -/
theorem fieldCommandsAccessOneLeaf : Obligations.FieldCommandsAccessOneLeaf := by
  intro s r rb imm hf hadm
  obtain ⟨hlay, -⟩ := hadm
  refine ⟨decode_encode (i := .fldrd r rb imm) rfl, decode_encode (i := .fldwr r rb imm) rfl,
    fun l hl => ⟨exec_fldrd_of_leaf hf hl, fun hv => ?written, fun hv => ?refused⟩, fun hk => ?no_leaf⟩
  case written =>
    have hwf := leafWf_of_mem hlay (leaf_of_getElem? hl)
    exact ⟨_, exec_fldwr_of_inRange hf hl hv, readField_writeField hwf hv s.b,
      fun _ hq => bitAt_writeField_of_notMem hwf hv s.b hq⟩
  case refused =>
    obtain ⟨-, -, -, hcount⟩ := hlay
    rw [← info_field (lt_of_lt_of_le (leaf_lt hl) hcount)]
    exact exec_fldwr_of_not_inRange hf hl hv
  case no_leaf =>
    have hnone : s.cfg.leaves[s.ea rb imm]? = none := List.getElem?_eq_none hk
    exact ⟨exec_fldrd_of_no_leaf hf hnone, exec_fldwr_of_no_leaf hf hnone⟩

end Sys2Proof.Machine
end

section
/-! PROOFS. The encoders: the outcomes of `encodeBody` by the parameters, and what `ENCODE` and `SAFEENC` do with each
(spec/44_marshal.md R204 to R208). -/

namespace Sys2Proof.Machine

/-! ### The outcomes of `encodeBody` -/

/-- The first leaf out of range and its value are what the walk stops with (R205). -/
theorem encodeBody_of_firstOutOfRange {s : State} {k : Nat} (h : s.firstOutOfRange k) :
    encodeBody s.cfg s.p s.name s.namelen.toNat s.psec = .error (k, s.p.read k) := by
  obtain ⟨⟨l, hl, hp, hr⟩, hbefore⟩ := h
  have hwalk := encodeLeaves_eq_error (p := s.p) (psec := s.psec) (k := 0) (Sparse.ofList s.cfg.marker.toList) hl hp
    (by rwa [Nat.zero_add]) (by simpa using hbefore)
  rw [encodeBody, hwalk, Nat.zero_add]

/-- Parameters in range have a body (R205). -/
theorem encodeBody_of_parametersInRange {s : State} (h : s.parametersInRange) :
    ∃ t, encodeBody s.cfg s.p s.name s.namelen.toNat s.psec = .ok t := by
  obtain ⟨t, ht⟩ := encodeLeaves_eq_ok (p := s.p) (psec := s.psec) (k := 0) (Sparse.ofList s.cfg.marker.toList)
    (by simpa [State.parametersInRange] using h)
  rw [encodeBody, ht]
  exact ⟨_, rfl⟩

/-! ### ENCODE and SAFEENC by outcome -/

/-- The missing sections of R204, as the statements write them. -/
theorem missingSections_eq (s : State) : missingSections s.cfg s.psec = s.missing := rfl

@[simp] theorem faulted_encoded (s : State) (t : Memory) : (s.encoded t).faulted = s.faulted := by
  simp [State.encoded]

/-- `ENCODE` of a parameter set with a body writes the message of R206. -/
theorem exec_encode_ok {s : State} {t : Memory} (hf : s.faulted = false) (hm : s.missing = 0)
    (h : encodeBody s.cfg s.p s.name s.namelen.toNat s.psec = .ok t) :
    exec .encode s = .next (s.encoded t).advance := by
  rw [show exec .encode s = execEncode s from rfl, execEncode, missingSections_eq, h, require_pos hm,
    State.command_ok hf]

/-- `SAFEENC` reports the missing sections before it looks at a parameter. -/
theorem exec_safeenc_missing {s : State} (hf : s.faulted = false) (hm : s.missing ≠ 0) :
    exec .safeenc s = .next (s.commitResult (Result.missingSections s.missing)).advance := by
  rw [show exec .safeenc s = execSafeenc s from rfl, execSafeenc, missingSections_eq, if_pos hm, State.command_ok hf]

/-- `SAFEENC` reports the leaf that `encodeBody` stops at. -/
theorem exec_safeenc_error {s : State} {k : Nat} {v : Word} (hf : s.faulted = false) (hm : s.missing = 0)
    (h : encodeBody s.cfg s.p s.name s.namelen.toNat s.psec = .error (k, v)) :
    exec .safeenc s = .next (s.commitResult (Result.outOfRange k v)).advance := by
  rw [show exec .safeenc s = execSafeenc s from rfl, execSafeenc, missingSections_eq, if_neg (not_not.mpr hm), h,
    State.command_ok hf]

/-- `SAFEENC` of a parameter set with a body writes the message of R206. -/
theorem exec_safeenc_ok {s : State} {t : Memory} (hf : s.faulted = false) (hm : s.missing = 0)
    (h : encodeBody s.cfg s.p s.name s.namelen.toNat s.psec = .ok t) :
    exec .safeenc s = .next (s.encoded t).advance := by
  rw [show exec .safeenc s = execSafeenc s from rfl, execSafeenc, missingSections_eq, if_neg (not_not.mpr hm), h,
    State.command_ok hf]

/-! ### The reports of SAFEENC -/

/-- The report of missing sections and its count in `CIX` (R208, spec/10_state.md R46). -/
theorem advance_commitResult_missingSections (s : State) (m : Word) :
    (s.commitResult (Result.missingSections m)).advance =
      { s.reportedFailure 0x20 m 0 0 with cix := s.cix + 1 } := by
  simp [State.commitResult, State.advance, State.reportedFailure, Result.missingSections, withValid_false, errFlag,
    ErrClass.bit]

/-- The report of a leaf out of range and its count in `CIX` (R208, spec/10_state.md R46). -/
theorem advance_commitResult_outOfRange (s : State) (k : Nat) (v : Word) :
    (s.commitResult (Result.outOfRange k v)).advance =
      { s.reportedFailure 0x40 0 (BitVec.ofNat 16 k) v with cix := s.cix + 1 } := by
  simp [State.commitResult, State.advance, State.reportedFailure, Result.outOfRange, withValid_false, errFlag,
    ErrClass.bit]

/-- Settles O58: the three outcomes of `SAFEENC`; in the last, `ENCODE` meets the same body. -/
theorem safeencReports : Obligations.SafeencReports := by
  intro s hf _
  refine ⟨decode_encode (i := .safeenc) rfl, fun hm => ?missing, fun k hm hk => ?out_of_range, fun hm hr => ?encoded⟩
  case missing => rw [exec_safeenc_missing hf hm, advance_commitResult_missingSections]
  case out_of_range =>
    rw [exec_safeenc_error hf hm (encodeBody_of_firstOutOfRange hk), advance_commitResult_outOfRange]
  case encoded =>
    obtain ⟨t, ht⟩ := encodeBody_of_parametersInRange hr
    have hkept : (s.encoded t).advance.faulted = false := by simpa using hf
    exact ⟨_, exec_encode_ok hf hm ht, hkept, exec_safeenc_ok hf hm ht⟩

end Sys2Proof.Machine
end

section
/-! PROOFS. The data-movement and system commands: their words, what each writes and the faults each raises
(spec/45_move_system.md R220 to R232). -/

namespace Sys2Proof.Machine

/-! ### Loads -/

/-- The effective index wraps modulo 65536 (spec/20_memory.md R61). -/
theorem State.ea_eq (s : State) (rb : Reg) (imm : Word) :
    s.ea rb imm = ((s.readX rb).toNat + imm.toNat) % 65536 :=
  BitVec.toNat_add _ _

/-- A load at an index inside its space writes the element there to its register. -/
theorem State.command_load_of_lt {s : State} {sp : Space} {rd rb : Reg} {imm : Word} (hf : s.faulted = false)
    (ha : s.ea rb imm < spaceSize s.cfg sp) :
    s.command (s.load sp rd rb imm) = .next (s.wroteX rd (s.element sp (s.ea rb imm))) :=
  State.command_setX hf (State.load_eq_ok.mpr ⟨ha, rfl⟩)

/-- A load at an index outside its space raises `AddressError` (spec/20_memory.md R62). -/
theorem State.command_load_of_le {s : State} {sp : Space} {rd rb : Reg} {imm : Word} (hf : s.faulted = false)
    (ha : spaceSize s.cfg sp ≤ s.ea rb imm) :
    s.command (s.load sp rd rb imm) = .next (s.afterFault 4 (s.ea rb imm)) :=
  State.command_addressError hf (State.load_eq_error.mpr ⟨Nat.not_lt_of_le ha, rfl⟩)

/-- Settles O26: each of the five commands is `State.load` in its space, so each pair of clauses is the two outcomes of
a load. -/
theorem loadsReadOneElement : Obligations.LoadsReadOneElement := by
  intro s rd rb imm hf
  exact ⟨decode_encode (i := .ldw rd rb imm) rfl, decode_encode (i := .ldb rd rb imm) rfl,
    decode_encode (i := .ldp rd rb imm) rfl, decode_encode (i := .ldn rd rb imm) rfl,
    decode_encode (i := .lde rd rb imm) rfl, State.ea_eq s rb imm,
    State.command_load_of_lt (sp := .w) hf, State.command_load_of_le (sp := .w) hf,
    State.command_load_of_lt (sp := .b) hf, State.command_load_of_le (sp := .b) hf,
    State.command_load_of_lt (sp := .p) hf, State.command_load_of_le (sp := .p) hf,
    State.command_load_of_lt (sp := .n) hf, State.command_load_of_le (sp := .n) hf,
    State.command_load_of_lt (sp := .e) hf, State.command_load_of_le (sp := .e) hf⟩

/-! ### Stores -/

theorem Sparse.read_write_same {w : Nat} (m : Sparse w) (a : Nat) (v : BitVec w) : (m.write a v).read a = v := by
  rw [Sparse.read_write, if_pos rfl]

theorem Sparse.read_write_of_ne {w : Nat} (m : Sparse w) {a c : Nat} (v : BitVec w) (h : c ≠ a) :
    (m.write a v).read c = m.read c := by
  rw [Sparse.read_write, if_neg h]

/-- A byte stored from a register is read back with the register's value (spec/40_bitfield.md R114). -/
theorem toNat_read_write_setWidth (m : Memory) (a : Nat) {v : Word} (h : v.toNat ≤ 255) :
    ((m.write a (v.setWidth 8)).read a).toNat = v.toNat := by
  rw [Sparse.read_write_same, toNat_setWidth_of_le h]

/-- A byte store at an index inside its space, from a register that holds a byte, replaces the element there. -/
theorem State.command_storeByte_of_lt {s : State} {sp : Space} {rs rb : Reg} {imm : Word} (hf : s.faulted = false)
    (ha : s.ea rb imm < spaceSize s.cfg sp) (hv : (s.readX rs).toNat ≤ 255) :
    s.command (s.storeByte sp rs rb imm) = .next (s.setElement sp (s.ea rb imm) (s.readX rs)).advance := by
  rw [State.storeByte_eq_ok.mpr ⟨ha, hv, rfl⟩, State.command_ok hf]

/-- A byte store at an index outside its space raises `AddressError`, whatever its register holds
(spec/60_exceptions.md R246). -/
theorem State.command_storeByte_of_le {s : State} {sp : Space} {rs rb : Reg} {imm : Word} (hf : s.faulted = false)
    (ha : spaceSize s.cfg sp ≤ s.ea rb imm) :
    s.command (s.storeByte sp rs rb imm) = .next (s.afterFault 4 (s.ea rb imm)) :=
  State.command_addressError hf (State.storeByte_eq_error.mpr (.inl ⟨Nat.not_lt_of_le ha, rfl⟩))

/-- A byte store at an index inside its space refuses a register above 255. -/
theorem State.command_storeByte_of_operand {s : State} {sp : Space} {rs rb : Reg} {imm : Word} (hf : s.faulted = false)
    (ha : s.ea rb imm < spaceSize s.cfg sp) (hv : 255 < (s.readX rs).toNat) :
    s.command (s.storeByte sp rs rb imm) = .next (s.afterFault 1 0x3000) :=
  State.command_rangeError .operand hf (State.storeByte_eq_error.mpr (.inr ⟨ha, Nat.not_le_of_lt hv, rfl⟩))

/-- `STP` at the number of a leaf replaces that register by any value (R227). -/
theorem exec_stp_of_lt {s : State} {rs rb : Reg} {imm : Word} (hf : s.faulted = false)
    (ha : s.ea rb imm < s.cfg.nleaf) :
    exec (.stp rs rb imm) s = .next { s with p := s.p.write (s.ea rb imm) (s.readX rs), cix := s.cix + 1 } := by
  rw [show exec (.stp rs rb imm) s = execStp rs rb imm s from rfl, execStp, requireIndex_eq_ok.mpr ⟨ha, rfl⟩,
    State.command_ok hf]
  rfl

theorem exec_stp_of_le {s : State} {rs rb : Reg} {imm : Word} (hf : s.faulted = false)
    (ha : s.cfg.nleaf ≤ s.ea rb imm) : exec (.stp rs rb imm) s = .next (s.afterFault 4 (s.ea rb imm)) :=
  State.command_addressError hf (requireIndex_eq_error.mpr (.inl ⟨Nat.not_lt_of_le ha, rfl⟩))

/-- Settles O27: `STW`, `STB` and `STN` are `State.storeByte` in their spaces, with its three outcomes; `STP` checks the
index alone. -/
theorem storesReplaceOneElement : Obligations.StoresReplaceOneElement := by
  intro s rs rb imm hf
  exact ⟨decode_encode (i := .stw rs rb imm) rfl, decode_encode (i := .stb rs rb imm) rfl,
    decode_encode (i := .stp rs rb imm) rfl, decode_encode (i := .stn rs rb imm) rfl, State.ea_eq s rb imm,
    fun ha hv => ⟨_, State.command_storeByte_of_lt (sp := .w) hf ha hv, toNat_read_write_setWidth _ _ hv,
      fun _ => Sparse.read_write_of_ne _ _⟩,
    State.command_storeByte_of_le (sp := .w) hf, State.command_storeByte_of_operand (sp := .w) hf,
    fun ha hv => ⟨_, State.command_storeByte_of_lt (sp := .b) hf ha hv, toNat_read_write_setWidth _ _ hv,
      fun _ => Sparse.read_write_of_ne _ _⟩,
    State.command_storeByte_of_le (sp := .b) hf, State.command_storeByte_of_operand (sp := .b) hf,
    fun ha hv => ⟨_, State.command_storeByte_of_lt (sp := .n) hf ha hv, toNat_read_write_setWidth _ _ hv,
      fun _ => Sparse.read_write_of_ne _ _⟩,
    State.command_storeByte_of_le (sp := .n) hf, State.command_storeByte_of_operand (sp := .n) hf,
    fun ha => ⟨_, exec_stp_of_lt hf ha, Sparse.read_write_same _ _ _, fun _ => Sparse.read_write_of_ne _ _⟩,
    exec_stp_of_le hf⟩

/-! ### Control registers -/

/-- The immediate field of `CSRR` and `CSRW` is the register number alone (spec/30_encoding.md R82). -/
theorem csrImm_eq_setWidth (csr : Csr) : csrImm csr = csr.number.setWidth 16 := by
  cases csr <;> rfl

/-- The sixteen control registers in the order of their numbers (spec/10_state.md R30). -/
theorem State.readCsr_eq_getD (s : State) (csr : Csr) :
    s.readCsr csr = [s.st, s.fcause, s.finfo, s.fcix, s.wlen, s.namelen, s.psec, s.err, s.elenact, s.ehdrmask,
      s.epaycnt, s.eln, s.emiss, s.erngidx, s.erngval, s.cix].getD csr.number.toNat 0 := by
  cases csr <;> rfl

/-- The read-only control registers are those with a number other than 4, 5 and 6 (R232). -/
theorem csrLimit_eq_none_iff (c : Config) (csr : Csr) : csrLimit c csr = none ↔ csr.number.toNat ∉ [4, 5, 6] := by
  cases csr <;> simp [csrLimit, Csr.number]

/-- The upper half of a command word holds every field but the immediate (spec/30_encoding.md R81). -/
theorem upperHalf_toWord (f : Fields) : upperHalf f.toWord = f.op ++ f.ra ++ f.rb ++ f.rc ++ f.z :=
  BitVec.extractLsb'_append_eq_left

/-- The information word of an illegal `CSRW`: its opcode and its register (spec/60_exceptions.md R243). -/
theorem upperHalf_encode_csrw (csr : Csr) (rs : Reg) :
    upperHalf (encode (.csrw csr rs)) = BitVec.ofNat 16 (0x0C00 + 128 * rs.number.toNat) := by
  rw [encode, upperHalf_toWord]
  simp only [Instr.fields]
  cases rs <;> rfl

/-- `CSRW` of a value within the limit of a writable register replaces the register. -/
theorem exec_csrw_of_le {s : State} {csr : Csr} {rs : Reg} {n : Nat} (hf : s.faulted = false)
    (hl : csrLimit s.cfg csr = some n) (hv : (s.readX rs).toNat ≤ n) :
    exec (.csrw csr rs) s = .next (s.writeCsr csr (s.readX rs)).advance := by
  rw [show exec (.csrw csr rs) s = execCsrw csr rs s from rfl, execCsrw, hl]
  exact (congrArg s.command (requireValue_eq_ok.mpr ⟨hv, rfl⟩)).trans (State.command_ok hf)

/-- `CSRW` of a value above the limit of a writable register raises `RangeError`. -/
theorem exec_csrw_of_lt {s : State} {csr : Csr} {rs : Reg} {n : Nat} (hf : s.faulted = false)
    (hl : csrLimit s.cfg csr = some n) (hv : n < (s.readX rs).toNat) :
    exec (.csrw csr rs) s = .next (s.afterFault 1 0x4000) :=
  State.command_rangeError .value hf (by
    rw [hl]
    exact requireValue_eq_error.mpr (.inl ⟨Nat.not_le_of_lt hv, rfl⟩))

/-- `CSRW` of a read-only register is an illegal command, whatever the value (R232, R246). -/
theorem exec_csrw_of_readOnly {s : State} {csr : Csr} {rs : Reg} (hf : s.faulted = false)
    (hl : csrLimit s.cfg csr = none) :
    exec (.csrw csr rs) s = .next (s.afterFault 5 (0x0C00 + 128 * rs.number.toNat)) := by
  rw [show exec (.csrw csr rs) s = execCsrw csr rs s from rfl, execCsrw, hl, upperHalf_encode_csrw]
  exact State.command_error hf _

/-- Settles O29: the three writable registers by their limits, and every other number by `csrLimit_eq_none_iff`. -/
theorem csrwWritesThreeRegisters : Obligations.CsrwWritesThreeRegisters := by
  intro s rs hf
  refine ⟨fun csr => ?word, exec_csrw_of_le hf (csr := .wlen) rfl, exec_csrw_of_lt hf (csr := .wlen) rfl,
    exec_csrw_of_le hf (csr := .namelen) rfl, exec_csrw_of_lt hf (csr := .namelen) rfl,
    exec_csrw_of_le hf (csr := .psec) rfl, exec_csrw_of_lt hf (csr := .psec) rfl,
    fun csr hcsr => exec_csrw_of_readOnly hf ((csrLimit_eq_none_iff s.cfg csr).mpr hcsr)⟩
  case word =>
    rw [← csrImm_eq_setWidth]
    exact decode_encode (i := .csrw csr rs) rfl

/-- Settles O28: the register is read in the state before the command, and `State.readCsr_eq_getD` numbers it. -/
theorem csrrReadsTheRegister : Obligations.CsrrReadsTheRegister := by
  intro s rd csr hf
  rw [← csrImm_eq_setWidth, ← State.readCsr_eq_getD]
  exact ⟨decode_encode (i := .csrr rd csr) rfl, State.command_setX hf rfl⟩

/-! ### NOP and LI -/

/-- Settles O25: neither command checks anything, so each completes with its write. -/
theorem nopAndLiComplete : Obligations.NopAndLiComplete := by
  intro s hf
  exact ⟨decode_encode (i := .nop) rfl, State.command_ok hf,
    fun rd imm => ⟨decode_encode (i := .li rd imm) rfl, State.command_setX hf rfl⟩⟩

end Sys2Proof.Machine
end

section
/-! PROOFS. Under a fault every command is refused with no change, and only a reset leaves the fault
(spec/60_exceptions.md R244, R252). -/

namespace Sys2Proof.Machine

/-- Every command runs inside `State.command`, which refuses it under a fault before it looks at the body. -/
theorem exec_of_faulted {s : State} (h : s.faulted = true) (i : Instr) : exec i s = .next s := by
  obtain ⟨body, hbody, -⟩ := exec_eq_command i s
  rw [hbody, State.command_faulted h]

theorem execIllegal_of_faulted {s : State} (h : s.faulted = true) (c : Command) : execIllegal c s = .next s :=
  State.command_faulted h _

/-- With a word to come that spells a command, the step is that command. -/
theorem step_command_ok {s : State} {c : Command} {rest : List HostTxn} {i : Instr} (h : s.host = .command c :: rest)
    (hd : Sys2Proof.decode c = .ok i) : step s = exec i (s.setHost rest) := by
  simp only [step, nextTransaction, h, hd]

/-- With a word to come that spells no command, the step is that of an illegal word (spec/30_encoding.md R85). -/
theorem step_command_error {s : State} {c : Command} {rest : List HostTxn} {r : Reject}
    (h : s.host = .command c :: rest) (hd : Sys2Proof.decode c = .error r) :
    step s = execIllegal c (s.setHost rest) := by
  simp only [step, nextTransaction, h, hd]

/-- Under a fault a step takes a command word, legal or not, off the host's list and does nothing else. -/
theorem step_command_of_faulted {s : State} {c : Command} {rest : List HostTxn} (hf : s.faulted = true)
    (h : s.host = .command c :: rest) : step s = .next (s.setHost rest) := by
  have hf' : (s.setHost rest).faulted = true := hf
  cases hd : Sys2Proof.decode c with
  | ok i => rw [step_command_ok h hd, exec_of_faulted hf']
  | error r => rw [step_command_error h hd, execIllegal_of_faulted hf']

/-- A transaction that clears the flag is a reset: a read changes nothing, a write is not allowed under a fault, and a
command is refused. -/
theorem Takes.eq_reset {a : HostTxn} {s t : State} (h : Takes a s t) (hs : s.faulted = true)
    (ht : t.faulted = false) : a = .reset := by
  have hne : t ≠ s := by
    rintro rfl
    exact absurd (hs.symm.trans ht) Bool.noConfusion
  cases a with
  | read sp i => exact absurd h.2 hne
  | write sp i v => exact absurd (hs.symm.trans h.1) Bool.noConfusion
  | command c =>
    rcases h with ⟨i, -, hi⟩ | ⟨r, -, hr⟩
    · exact absurd (Host.Outcome.next.inj (hi.symm.trans (exec_of_faulted hs i))) hne
    · exact absurd (Host.Outcome.next.inj (hr.symm.trans (execIllegal_of_faulted hs c))) hne
  | reset => rfl

/-- Settles O7: `exec_of_faulted` and `step_command_of_faulted` for the refusals; a step that clears the flag took a
transaction (`step_cases`), which `Takes.eq_reset` says is a reset and which keeps the rest of the list. -/
theorem faultRefusesCommandsUntilReset : Obligations.FaultRefusesCommandsUntilReset := by
  intro s hf
  refine ⟨exec_of_faulted hf, fun c rest h => step_command_of_faulted hf h, fun t hstep ht => ?reset⟩
  case reset =>
    rcases step_cases hstep with ⟨-, rfl⟩ | ⟨a, rest, hhost, htakes⟩
    · exact absurd (hf.symm.trans ht) Bool.noConfusion
    · obtain rfl := htakes.eq_reset hf ht
      have hreset : t = (s.setHost rest).hostReset := htakes
      rw [hhost, hreset, hostReset_host, setHost_host]

end Sys2Proof.Machine
end

section
/-! PROOFS. The decoder and the encoder are inverse to each other, and the words that spell a command are those of the
opcode table (spec/30_encoding.md R81 to R88). -/

namespace Sys2Proof

/-! ### A word that decodes is the word of its command -/

theorem eq_ofNat_of_toNat_eq {n k : Nat} {v : BitVec n} (h : v.toNat = k) : v = BitVec.ofNat n k := by
  rw [← h, BitVec.ofNat_toNat, BitVec.setWidth_eq]

theorem inFormat_bind_withRoom_eq_ok {fmt : Format} {f : Fields} {i j : Instr} :
    (inFormat fmt f i >>= withRoom) = .ok j ↔ fmt.fits f = true ∧ i.wf = true ∧ i = j := by
  unfold inFormat
  split
  · next h => simpa [h, bind, Except.bind] using withRoom_eq_ok
  · next h => simp [h, bind, Except.bind]

/-- The fields that decode to a command are the fields of its word: every field its format has no operand in is 0, and
the immediate holds nothing beside the operands. -/
theorem fields_of_decodeFields {f : Fields} {i : Instr} (h : decodeFields f = .ok i) : i.fields = f ∧ i.wf = true := by
  obtain ⟨op, ra, rb, rc, z, imm⟩ := f
  unfold decodeFields at h
  dsimp only at h
  split at h
  case h_32 => cases h
  all_goals
    rename_i hop
    obtain rfl := eq_ofNat_of_toNat_eq hop
    simp only [inFormat_bind_withRoom_eq_ok, inFormat_eq_ok] at h
  case h_17 =>
    obtain ⟨hfit, hwf, rfl⟩ := h
    simp_all [Format.fits, Instr.fields, offsetImm_of_extract]
  all_goals
    obtain ⟨hfit, rfl⟩ := h
    simp_all [Format.fits, Instr.fields, Instr.wf, geometryImm_of_extract, offsetImm_of_extract, csrImm_of_extract]

/-- Settles O1: the decoder undoes the encoder (`decode_encode`). -/
theorem decodeOfEncode : Obligations.DecodeOfEncode := fun _ h => decode_encode h

/-- The word of a decoded command is the word it was decoded from (R85, R88). -/
theorem encode_of_decode {c : Command} {i : Instr} (h : decode c = .ok i) : encode i = c ∧ i.wf = true := by
  obtain ⟨hfields, hwf⟩ := fields_of_decodeFields h
  exact ⟨by rw [encode, hfields, Fields.toWord_ofWord], hwf⟩

/-- Settles O2: the fields of the command are those of the word (`fields_of_decodeFields`). -/
theorem encodeOfDecode : Obligations.EncodeOfDecode := fun _ _ => encode_of_decode

/-! ### The opcode table by opcode and format -/

/-- The format of a command (R82, R84). -/
def Instr.format : Instr → Format
  | .nop | .validate | .parse | .decode | .encode | .safeenc => .n
  | .li _ _ => .i
  | .csrr _ _ => .cr
  | .csrw _ _ => .cw
  | .lde _ _ _ | .ldw _ _ _ | .ldb _ _ _ | .ldp _ _ _ | .ldn _ _ _ | .fldrd _ _ _ => .ml
  | .stw _ _ _ | .stb _ _ _ | .stp _ _ _ | .stn _ _ _ | .fldwr _ _ _ => .ms
  | .rdbits _ _ _ _ => .b1
  | .wrbits _ _ _ _ _ => .b2
  | .rd10 _ _ _ _ | .mrg10 _ _ _ _ => .t2
  | .wr10 _ _ _ => .t1
  | .bipdec _ _ | .bipenc _ _ => .u
  | .unpkg _ _ | .pkg _ _ => .g2
  | .unpkall _ _ _ | .pkall _ _ _ => .g3

/-- The opcode and the format of each row of the opcode table (R84). -/
def opcodeFormats : List (BitVec 6 × Format) := [
  (0x00, .n), (0x01, .i), (0x02, .cr), (0x03, .cw), (0x07, .ml), (0x08, .ml), (0x09, .ms), (0x0A, .ml), (0x0B, .ms),
  (0x0C, .ml), (0x0D, .ms), (0x0E, .ml), (0x0F, .ms), (0x10, .b1), (0x11, .b2), (0x12, .t2), (0x13, .t1), (0x14, .t2),
  (0x15, .u), (0x16, .u), (0x18, .g2), (0x19, .g2), (0x1A, .g3), (0x1B, .g3), (0x20, .n), (0x21, .n), (0x28, .ml),
  (0x29, .ms), (0x30, .n), (0x31, .n), (0x32, .n)]

/-- The mask of a format: the opcode and every bit that must be zero (R82). -/
def Format.mask : Format → Fields
  | .n => ⟨0x3F, 7, 7, 7, 1, 0xFFFF⟩
  | .i => ⟨0x3F, 0, 7, 7, 1, 0⟩
  | .cr | .cw => ⟨0x3F, 0, 7, 7, 1, 0xFFF0⟩
  | .ml | .ms => ⟨0x3F, 0, 0, 7, 1, 0⟩
  | .b1 => ⟨0x3F, 0, 0, 7, 1, 0xFF08⟩
  | .b2 => ⟨0x3F, 0, 0, 0, 1, 0xFF08⟩
  | .t2 => ⟨0x3F, 0, 0, 0, 1, 0xFFF8⟩
  | .t1 => ⟨0x3F, 0, 0, 7, 1, 0xFFF8⟩
  | .u | .g2 => ⟨0x3F, 0, 0, 7, 1, 0xFFFF⟩
  | .g3 => ⟨0x3F, 0, 0, 0, 1, 0xFFFF⟩

theorem commandRows_eq :
    commandRows = opcodeFormats.map fun r => (r.2.mask.toWord, Fields.toWord ⟨r.1, 0, 0, 0, 0, 0⟩) := by decide

/-! ### Must-be-zero bits -/

/-- A mask of the `n` bits from bit `a` on clears an immediate exactly when that field of it is 0. -/
theorem and_mask_eq_zero_iff {imm m : Word} (a n : Nat)
    (hm : ∀ i < 16, m.getLsbD i = (decide (a ≤ i) && decide (i < a + n))) (han : a + n ≤ 16) :
    imm &&& m = 0 ↔ imm.extractLsb' a n = 0 := by
  constructor
  · intro h
    refine BitVec.eq_of_getLsbD_eq fun i hi => ?_
    have hbit := congrArg (BitVec.getLsbD · (a + i)) h
    simpa [hm (a + i) (by omega), hi] using hbit
  · intro h
    refine BitVec.eq_of_getLsbD_eq fun i hi => ?_
    by_cases hin : a ≤ i ∧ i < a + n
    · simp [getLsbD_of_extract_eq_zero h hin.1 hin.2]
    · rw [BitVec.getLsbD_and, hm i hi, ← Bool.decide_and, decide_eq_false hin, Bool.and_false,
        getLsbD_zero_field]

theorem and_geometryMask_eq_zero_iff (imm : Word) :
    imm &&& 0xFF08 = 0 ↔ imm.extractLsb' 8 8 = 0 ∧ imm.extractLsb' 3 1 = 0 := by
  rw [← and_mask_eq_zero_iff (m := 0xFF00) 8 8 (by decide) (by decide),
    ← and_mask_eq_zero_iff (m := 0x0008) 3 1 (by decide) (by decide),
    show (0xFF08 : Word) = 0xFF00 ||| 0x0008 by decide, BitVec.and_or_distrib_left]
  exact BitVec.or_eq_zero_iff

theorem and_offsetMask_eq_zero_iff (imm : Word) : imm &&& 0xFFF8 = 0 ↔ imm.extractLsb' 3 13 = 0 :=
  and_mask_eq_zero_iff 3 13 (by decide) (by decide)

theorem and_csrMask_eq_zero_iff (imm : Word) : imm &&& 0xFFF0 = 0 ↔ imm.extractLsb' 4 12 = 0 :=
  and_mask_eq_zero_iff 4 12 (by decide) (by decide)

/-- A word matches a row of the table exactly when it has the row's opcode and fits its format (R82, R84). -/
theorem toWord_and_mask_iff {f : Fields} {fmt : Format} {op : BitVec 6} :
    f.toWord &&& fmt.mask.toWord = Fields.toWord ⟨op, 0, 0, 0, 0, 0⟩ ↔ f.op = op ∧ fmt.fits f = true := by
  have hop : f.op &&& 0x3F = f.op := BitVec.and_allOnes
  have hreg (v : BitVec 3) : v &&& 7 = v := BitVec.and_allOnes
  have hz : f.z &&& 1 = f.z := BitVec.and_allOnes
  have himm : f.imm &&& 0xFFFF = f.imm := BitVec.and_allOnes
  have hfree {n : Nat} (v : BitVec n) : v &&& 0 = 0 := BitVec.and_zero
  have hinj : Function.Injective Fields.toWord := fun _ _ => Fields.toWord_injective
  rw [Fields.toWord_and, hinj.eq_iff]
  cases fmt <;>
    simp only [Format.mask, Format.fits, Fields.mk.injEq, hop, hreg, hz, himm, hfree, and_geometryMask_eq_zero_iff,
      and_offsetMask_eq_zero_iff, and_csrMask_eq_zero_iff, Bool.and_eq_true, decide_eq_true_eq, true_and, and_true,
      and_assoc]

/-! ### The words that decode -/

theorem format_fits_fields (i : Instr) : i.format.fits i.fields = true := by
  cases i <;> simp [Instr.format, Instr.fields, Format.fits, extract_geometryImm, extract_offsetImm, extract_csrImm]

theorem fields_op (i : Instr) : i.fields.op = i.opcode := by cases i <;> rfl

theorem opcode_mem_opcodeFormats (i : Instr) : (i.opcode, i.format) ∈ opcodeFormats := by
  cases i <;> simp [Instr.opcode, Instr.format, opcodeFormats]

/-- A row of the table decodes the fields that fit it, if `WR10` has room for its destinations (R85): row by
row, the opcode selects the arm of the decoder and the format lets it answer. -/
theorem exists_decodeFields {r : BitVec 6 × Format} (hr : r ∈ opcodeFormats) {f : Fields} (hop : f.op = r.1)
    (hfit : r.2.fits f = true) (hroom : r.1 = 0x13 → f.ra.toNat ≤ 5) : ∃ i, decodeFields f = .ok i := by
  revert r
  simp only [opcodeFormats, List.forall_mem_cons]
  and_intros
  all_goals simp_all [decodeFields, inFormat, withRoom, Instr.wf, Reg.roomForThree_eq, bind, Except.bind]

/-- The words that decode, by opcode and format. -/
theorem decodes_iff (c : Command) :
    (∃ i, decode c = .ok i) ↔ ∃ r ∈ opcodeFormats, (Fields.ofWord c).op = r.1 ∧ r.2.fits (Fields.ofWord c) = true ∧
      (r.1 = 0x13 → (Fields.ofWord c).ra.toNat ≤ 5) := by
  constructor
  · rintro ⟨i, h⟩
    obtain ⟨hfields, hwf⟩ := fields_of_decodeFields h
    rw [← hfields]
    refine ⟨_, opcode_mem_opcodeFormats i, fields_op i, format_fits_fields i, fun hop => ?_⟩
    cases i with
    | wr10 rd rs1 off => exact of_decide_eq_true ((Reg.roomForThree_eq rd).symm.trans hwf)
    | _ => cases hop
  · rintro ⟨r, hr, hop, hfit, hroom⟩
    exact exists_decodeFields hr hop hfit hroom

/-- Settles O3: a row matches by its opcode and its format (`toWord_and_mask_iff`), and those are what the decoder looks
at (`decodes_iff`); the opcode is a field of the word. -/
theorem decodeAcceptsTheTable : Obligations.DecodeAcceptsTheTable := by
  refine ⟨fun c => ?accepts, fun c i h => ?opcode⟩
  case accepts =>
    have hinj : Function.Injective Fields.toWord := fun _ _ => Fields.toWord_injective
    have hrow (op : BitVec 6) : Fields.toWord ⟨op, 0, 0, 0, 0, 0⟩ = 0x4C000000 ↔ op = 0x13 := by
      rw [show (0x4C000000 : Command) = Fields.toWord ⟨0x13, 0, 0, 0, 0, 0⟩ by decide, hinj.eq_iff]
      simp
    have hmask (r : BitVec 6 × Format) : c &&& r.2.mask.toWord = Fields.toWord ⟨r.1, 0, 0, 0, 0, 0⟩ ↔
        (Fields.ofWord c).op = r.1 ∧ r.2.fits (Fields.ofWord c) = true := by
      rw [← toWord_and_mask_iff, Fields.toWord_ofWord]
    rw [decodes_iff, commandRows_eq]
    simp only [List.mem_map, exists_exists_and_eq_and, hmask, hrow, and_assoc]
    rfl
  case opcode =>
    obtain ⟨hfields, -⟩ := fields_of_decodeFields h
    rw [← fields_op, hfields]
    rfl

/-- Settles O4: the decoder evaluated at each word. -/
theorem sampleWordsDecode : Obligations.SampleWordsDecode := by
  unfold Obligations.SampleWordsDecode
  decide

end Sys2Proof
end

section
/-! PROOFS. What a step takes from the host, what a fault writes and what counts the commands
(spec/60_exceptions.md R241 to R258, spec/10_state.md R29, R46). -/

namespace Sys2Proof.Machine

/-! ### Commands the host hands over -/

/-- Settles O5: the step of a word that decodes (`step_command_ok`). -/
theorem stepRunsTheDecodedCommand : Obligations.StepRunsTheDecodedCommand :=
  fun _ _ _ _ h hd => step_command_ok h hd

/-- The upper half of a word as a number (spec/60_exceptions.md R243). -/
theorem upperHalf_eq_ofNat (c : Command) : upperHalf c = BitVec.ofNat 16 (c.toNat / 65536) := by
  rw [upperHalf, BitVec.extractLsb', Nat.shiftRight_eq_div_pow]

/-- The four writes of a fault, the cause and the information word as numbers (R241). -/
theorem takeFault_eq_afterFault (s : State) (r : Raised) : s.takeFault r = s.afterFault r.code.toNat r.info.toNat := by
  simp only [State.takeFault, State.afterFault, BitVec.ofNat_toNat, BitVec.setWidth_eq]

/-- Settles O6: the step of a word that does not decode (`step_command_error`) raises, for want of a fault. -/
theorem illegalWordsRaise : Obligations.IllegalWordsRaise := by
  intro s c rest r h hd hf
  have hf' : (s.setHost rest).faulted = false := hf
  rw [step_command_error h hd, execIllegal, State.command_error hf', upperHalf_eq_ofNat]
  rfl

/-! ### Faults and the count of commands -/

theorem code_bounds (r : Raised) : 1 ≤ r.code.toNat ∧ r.code.toNat ≤ 5 := by
  cases r <;> simp [Raised.code]

/-- A command taken without a fault completes and stays without one, or leaves the four writes of a fault. -/
theorem exec_cases_of_not_faulted {i : Instr} {s t : State} (hs : s.faulted = false) (h : exec i s = .next t) :
    (t.faulted = false ∧ ∃ u, Completes i s u ∧ t = u.advance) ∨ (t.faulted = true ∧ ∃ r, t = s.takeFault r) := by
  rcases exec_cases h with ⟨hs', -⟩ | ⟨-, u, hu, rfl⟩ | ⟨-, r, rfl⟩
  · exact absurd (hs.symm.trans hs') Bool.noConfusion
  · obtain ⟨hkeep, -⟩ := hu.keeps
    exact .inl ⟨hkeep.trans hs, u, hu, rfl⟩
  · exact .inr ⟨faulted_takeFault s r, r, rfl⟩

/-- Settles O8: without a fault before, one after it comes from `State.takeFault`. -/
theorem raisingWritesOnlyTheFaultRegisters : Obligations.RaisingWritesOnlyTheFaultRegisters := by
  intro i s t hs h ht
  rcases exec_cases_of_not_faulted hs h with ⟨ht', -⟩ | ⟨-, r, rfl⟩
  · exact absurd (ht.symm.trans ht') Bool.noConfusion
  · obtain ⟨hlow, hhigh⟩ := code_bounds r
    exact ⟨_, _, hlow, hhigh, r.info.isLt, takeFault_eq_afterFault s r⟩

/-- Settles O9: a refused command leaves the state, a completing one advances `CIX`, a fault copies it. -/
theorem cixCountsCompletedCommands : Obligations.CixCountsCompletedCommands := by
  intro i s t h
  cases hs : s.faulted with
  | true =>
    obtain rfl : s = t := Host.Outcome.next.inj ((exec_of_faulted hs i).symm.trans h)
    simp [hs]
  | false =>
    rcases exec_cases_of_not_faulted hs h with ⟨ht, u, hu, rfl⟩ | ⟨ht, r, rfl⟩
    · obtain ⟨-, -, hcix, -⟩ := hu.keeps
      simp [ht, hcix]
    · simp [ht]

/-! ### Invariants -/

/-- One induction for every invariant: a step keeps a property of states that the host's writes and reset, a completing
command and a fault keep. -/
theorem step_keeps {P : State → Prop} {s t : State} (h : step s = .next t) (hs : P s)
    (take : ∀ u rest, P u → P (u.setHost rest))
    (write : ∀ u sp a v, u.faulted = false → a < spaceSize u.cfg sp → hostWritable u sp a v = true → P u →
      P (u.setElement sp a v))
    (reset : ∀ u, P u → P u.hostReset)
    (complete : ∀ i u v, u.faulted = false → Completes i u v → P u → P v.advance)
    (fault : ∀ u r, u.faulted = false → P u → P (u.takeFault r)) : P t := by
  rcases step_cases h with ⟨-, rfl⟩ | ⟨a, rest, -, htakes⟩
  · exact hs
  have hu := take s rest hs
  cases a with
  | read sp i => obtain ⟨-, rfl⟩ := htakes; exact hu
  | write sp i v => obtain ⟨hf, hi, hv, rfl⟩ := htakes; exact write _ sp i v hf hi hv hu
  | reset => obtain rfl : t = (s.setHost rest).hostReset := htakes; exact reset _ hu
  | command c =>
    rcases htakes with ⟨i, -, hi⟩ | ⟨r, -, hr⟩
    · rcases exec_cases hi with ⟨-, rfl⟩ | ⟨hf, v, hv, rfl⟩ | ⟨hf, r, rfl⟩
      · exact hu
      · exact complete i _ v hf hv hu
      · exact fault _ r hf hu
    · rcases execIllegal_cases hr with ⟨-, rfl⟩ | ⟨hf, rfl⟩
      · exact hu
      · exact fault _ _ hf hu

/-! ### Parameters -/

/-- Settles O14: no transaction of `step_keeps` writes the parameters. -/
theorem parametersAreNeverWritten : Obligations.ParametersAreNeverWritten := by
  intro s t h
  refine step_keeps (P := fun u => u.cfg = s.cfg) h rfl (fun _ _ hu => hu)
    (fun u sp a v _ _ _ hu => (setElement_cfg u sp a v).trans hu) (fun _ hu => hu) (fun i u v _ hv hu => ?_)
    (fun _ _ _ hu => hu)
  obtain ⟨-, hcfg, -⟩ := hv.keeps
  exact hcfg.trans hu

/-! ### Host reads -/

theorem step_hostRead {s : State} {sp : Space} {a : Nat} {rest : List HostTxn} (h : s.host = .read sp a :: rest) :
    step s = stepRead (s.setHost rest) sp a := by
  simp only [step, nextTransaction, h]

theorem hostRead_of_lt {s : State} {sp : Space} {a : Nat} (h : a < spaceSize s.cfg sp) :
    hostRead s sp a = some (s.element sp a) := if_pos h

/-- Settles O17: a read inside the space answers the element (`hostRead_of_lt`), and its step is the state without the
transaction. -/
theorem hostReadReturnsTheElement : Obligations.HostReadReturnsTheElement := by
  intro s a
  refine ⟨fun sp v rest h hv => ?step, hostRead_of_lt (sp := .w), hostRead_of_lt (sp := .b), hostRead_of_lt (sp := .p),
    hostRead_of_lt (sp := .n), hostRead_of_lt (sp := .e), fun c => ?csr⟩
  case step =>
    have hv' : hostRead (s.setHost rest) sp a = some v := hv
    rw [step_hostRead h, stepRead, hv']
    rfl
  case csr =>
    rw [hostRead_of_lt (sp := .csr) c.number.isLt, State.element, BitVec.ofNat_toNat, BitVec.setWidth_eq,
      Csr.ofNumber_number]

/-! ### Host writes -/

theorem step_hostWrite {s : State} {sp : Space} {a : Nat} {v : Word} {rest : List HostTxn}
    (h : s.host = .write sp a v :: rest) : step s = stepWrite (s.setHost rest) sp a v := by
  simp only [step, nextTransaction, h]

/-- A write of a legal value inside a space replaces the element. -/
theorem step_hostWrite_of_legal {s : State} {sp : Space} {a : Nat} {v : Word} {rest : List HostTxn}
    (h : s.host = .write sp a v :: rest) (hf : s.faulted = false) (ha : a < spaceSize s.cfg sp)
    (hv : hostWritable s sp a v = true) : step s = .next ((s.setHost rest).setElement sp a v) := by
  rw [step_hostWrite h]
  exact if_pos ⟨hf, ha, hv⟩

/-- Settles O18: the step is `State.setElement` (`step_hostWrite_of_legal`), read back by the laws of a space. -/
theorem hostWriteReplacesOneElement : Obligations.HostWriteReplacesOneElement := by
  intro s a v rest hf
  refine ⟨fun h ha hv => ?w, fun h ha hv => ?b, fun h ha => ?p, fun h ha hv => ?n, fun h hv => ?wlen,
    fun h hv => ?namelen, fun h hv => ?psec⟩
  case w =>
    exact ⟨_, step_hostWrite_of_legal h hf ha (decide_eq_true hv), toNat_read_write_setWidth _ _ hv,
      fun _ => Sparse.read_write_of_ne _ _⟩
  case b =>
    exact ⟨_, step_hostWrite_of_legal h hf ha (decide_eq_true hv), toNat_read_write_setWidth _ _ hv,
      fun _ => Sparse.read_write_of_ne _ _⟩
  case p =>
    exact ⟨_, step_hostWrite_of_legal h hf ha rfl, Sparse.read_write_same _ _ _, fun _ => Sparse.read_write_of_ne _ _⟩
  case n =>
    exact ⟨_, step_hostWrite_of_legal h hf ha (decide_eq_true hv), toNat_read_write_setWidth _ _ hv,
      fun _ => Sparse.read_write_of_ne _ _⟩
  case wlen => exact step_hostWrite_of_legal h hf (by decide : 4 < 16) (decide_eq_true hv)
  case namelen => exact step_hostWrite_of_legal h hf (by decide : 5 < 16) (decide_eq_true hv)
  case psec => exact step_hostWrite_of_legal h hf (by decide : 6 < 16) (decide_eq_true hv)

/-- Inside the control registers the host may write numbers 4, 5 and 6 alone (R258). -/
theorem hostWritable_csr_of_readOnly {s : State} {a : Nat} (ha : a < 16) (hn : a ∉ [4, 5, 6]) (v : Word) :
    hostWritable s .csr a v = false := by
  have hnone : csrLimit s.cfg (Csr.ofNumber (BitVec.ofNat 4 a)) = none := by
    rwa [csrLimit_eq_none_iff, Csr.number_ofNumber, BitVec.toNat_ofNat, Nat.mod_eq_of_lt ha]
  rw [hostWritable, hnone]

/-- Settles O19: each listed case fails one of the three conditions of `stepWrite`; a read outside its space has no
element. -/
theorem hostActionsOutsideTheTableAreRefused : Obligations.HostActionsOutsideTheTableAreRefused := by
  intro s sp a v rest
  refine ⟨fun h hcase => ?write, fun h ha => ?read⟩
  case write =>
    rw [step_hostWrite h]
    refine if_neg ?_
    rintro ⟨hf, ha, hv⟩
    have hf' : s.faulted = false := hf
    have ha' : a < spaceSize s.cfg sp := ha
    rcases hcase with hf'' | hsize | rfl | ⟨hsp, hbyte⟩ | ⟨rfl, hn⟩ | ⟨rfl, rfl, hlimit⟩ | ⟨rfl, rfl, hlimit⟩ |
      ⟨rfl, rfl, hlimit⟩
    · exact absurd (hf'.symm.trans hf'') Bool.noConfusion
    · omega
    · cases hv
    · have hle : v.toNat ≤ 255 := by
        simp only [List.mem_cons, List.not_mem_nil, or_false] at hsp
        rcases hsp with rfl | rfl | rfl <;> exact of_decide_eq_true hv
      omega
    · exact absurd (hv.symm.trans (hostWritable_csr_of_readOnly ha' hn v)) Bool.noConfusion
    all_goals exact absurd (of_decide_eq_true hv) (Nat.not_le_of_lt hlimit)
  case read =>
    have hnone : hostRead (s.setHost rest) sp a = none := if_neg (Nat.not_lt_of_le ha)
    rw [step_hostRead h, stepRead, hnone]

end Sys2Proof.Machine
end

section
/-! PROOFS. What a completing command writes, by the part of the state: one inversion lemma for every command, and from
it the frames (spec/10_state.md R21, R30, spec/20_memory.md R60, spec/60_exceptions.md R247 to R250). -/

namespace Sys2Proof.Machine

/-! ### The parts of the state a command writes -/

/-- The results the result commands report in state `s` (spec/42_frame.md R145, R149, spec/44_marshal.md R206, R208). -/
inductive Report (s : State) : Result → Prop
  | checks : Report s (validate s.cfg.paycap s.w s.wlen)
  | success : Report s Result.success
  | badMarker : Report s Result.badMarker
  | missing (h : missingSections s.cfg s.psec ≠ 0) :
      Report s (Result.missingSections (missingSections s.cfg s.psec))
  | outOfRange (k : Nat) (v : Word) (hk : k < s.cfg.nleaf) : Report s (Result.outOfRange k v)

/-- What command `i` writes when it completes (`CIX` apart): the part of the state, with the bounds its checks leave. -/
inductive Effect (i : Instr) (s : State) : State → Prop
  | regs (x : Regs) (hx : ∀ r ∉ i.destinations, x.read r = s.x.read r) : Effect i s { s with x := x }
  | wire (hi : .w ∈ i.writes) (a : Nat) (vs : List Byte) (ha : a + vs.length ≤ s.cfg.wcap) :
      Effect i s (s.setW (s.w.writeRange a vs))
  | body (hi : .b ∈ i.writes) (m : Memory) (hwf : Sparse.wf s.b = true → Sparse.wf m = true)
      (hm : wfLayout s.cfg.layout → s.b.below bodyLen = true → m.below bodyLen = true) : Effect i s (s.setB m)
  | param (hi : .p ∈ i.writes) (a : Nat) (v : Word) (ha : a < s.cfg.nleaf) : Effect i s (s.setP (s.p.write a v))
  | name (hi : .n ∈ i.writes) (a : Nat) (v : Byte) (ha : a < nameCap) : Effect i s (s.setName (s.name.write a v))
  | control (csr : Csr) (hi : csr ∈ i.writesControl) (n : Nat) (hn : csrLimit s.cfg csr = some n) (v : Word)
      (hv : v.toNat ≤ n) : Effect i s (s.writeCsr csr v)
  | report (hi : i ∈ [Instr.validate, .parse, .safeenc]) (r : Result) (hr : Report s r) : Effect i s (s.commitResult r)
  | parsed (hi : i = .parse) (body : List Byte) (hb : body.length = bodyLen) :
      Effect i s ((s.setB (Sparse.ofList body)).commitResult Result.success)
  | decoded (hi : i = .decode) (body : List Byte) (hb : body.length = bodyLen) :
      Effect i s (s.decoded (Sparse.ofList body))
  | notDecoded (hi : i = .decode) (r : Result) (hr : Report s r) : Effect i s (s.notDecoded r)
  | encoded (hi : i = .encode ∨ i = .safeenc) (t : Memory)
      (ht : encodeBody s.cfg s.p s.name s.namelen.toNat s.psec = .ok t) : Effect i s (s.encoded t)

/-- A command that writes its one destination. -/
theorem Effect.setX {i : Instr} {rd : Reg} (hi : i.destinations = [rd]) (s : State) (v : Word) :
    Effect i s (s.setX rd v) :=
  .regs _ fun r hr => Regs.read_write_of_ne s.x v (by simpa [hi] using hr)

/-- A single element of `W` is a range of one. -/
theorem Effect.wireByte {i : Instr} {s : State} (hi : .w ∈ i.writes) {a : Nat} (ha : a < s.cfg.wcap) (v : Byte) :
    Effect i s (s.setW (s.w.write a v)) :=
  .wire hi a [v] ha

/-- A range of `B` replaced. -/
theorem Effect.bodyRange {i : Instr} {s : State} (hi : .b ∈ i.writes) {a : Nat} {vs : List Byte}
    (ha : a + vs.length ≤ bodyLen) : Effect i s (s.setB (s.b.writeRange a vs)) :=
  .body hi _ (fun h => Sparse.wf_writeRange h a vs) fun _ h => Sparse.below_writeRange h ha

/-- The walk of the layout stops at one of its leaves (spec/44_marshal.md R205). -/
theorem lt_of_encodeLeaves_eq_error {p : Sparse 16} {psec : Word} {k j : Nat} {ls : List Entry} {t : Memory} {v : Word}
    (h : encodeLeaves p psec k ls t = .error (j, v)) : j < k + ls.length := by
  induction ls generalizing k t with
  | nil => cases h
  | cons l rest ih =>
    rw [List.length_cons]
    unfold encodeLeaves at h
    split at h
    · split at h
      · have := ih h; omega
      · cases h; omega
    · have := ih h; omega

theorem lt_of_encodeBody_eq_error {c : Config} {p : Sparse 16} {name : Memory} {len : Nat} {psec : Word} {k : Nat}
    {v : Word} (h : encodeBody c p name len psec = .error (k, v)) : k < c.nleaf := by
  unfold encodeBody at h
  split at h
  · next kv hkv =>
    cases h
    have := lt_of_encodeLeaves_eq_error hkv
    rwa [Nat.zero_add] at this
  · cases h

theorem report_of_parseMessage {s : State} {r : Result} (h : parseMessage s.cfg s.w s.wlen = .error r) :
    Report s r := by
  rcases parseMessage_eq_error.mp h with ⟨-, rfl⟩ | ⟨-, -, rfl⟩
  · exact .checks
  · exact .badMarker

theorem length_of_parseMessage {c : Config} {w : Memory} {wlen : Word} {body : List Byte}
    (h : parseMessage c w wlen = .ok body) : body.length = bodyLen := by
  obtain ⟨-, -, rfl⟩ := parseMessage_eq_ok.mp h
  exact length_messageBody c w

/-- Everything a completing command writes. -/
theorem Completes.effect {i : Instr} {s u : State} (h : Completes i s u) : Effect i s u := by
  cases i <;> simp only [Completes] at h
  case nop => subst h; exact .regs _ fun _ _ => rfl
  case li => subst h; exact .setX rfl _ _
  case csrr => subst h; exact .setX rfl _ _
  case csrw csr rs => obtain ⟨n, hn, hv, rfl⟩ := h; exact .control csr (by simp [Instr.writesControl]) n hn _ hv
  case lde => obtain ⟨-, rfl⟩ := h; exact .setX rfl _ _
  case ldw => obtain ⟨-, rfl⟩ := h; exact .setX rfl _ _
  case ldb => obtain ⟨-, rfl⟩ := h; exact .setX rfl _ _
  case ldp => obtain ⟨-, rfl⟩ := h; exact .setX rfl _ _
  case ldn => obtain ⟨-, rfl⟩ := h; exact .setX rfl _ _
  case stw => obtain ⟨ha, -, rfl⟩ := h; exact .wireByte (by simp [Instr.writes]) ha _
  case stb => obtain ⟨ha, -, rfl⟩ := h; exact .bodyRange (vs := [_]) (by simp [Instr.writes]) ha
  case stp => obtain ⟨ha, rfl⟩ := h; exact .param (by simp [Instr.writes]) _ _ ha
  case stn => obtain ⟨ha, -, rfl⟩ := h; exact .name (by simp [Instr.writes]) _ _ ha
  case rdbits => obtain ⟨-, -, rfl⟩ := h; exact .setX rfl _ _
  case wrbits => obtain ⟨-, -, -, rfl⟩ := h; exact .setX rfl _ _
  case rd10 => obtain ⟨-, -, -, rfl⟩ := h; exact .setX rfl _ _
  case wr10 rd rs1 off =>
    obtain ⟨rd1, rd2, hnext, -, -, rfl⟩ := h
    have hdest : (Instr.wr10 rd rs1 off).destinations = [rd, rd1, rd2] := by
      cases rd <;> cases hnext <;> rfl
    refine .regs _ fun r hr => ?_
    simp only [hdest, List.mem_cons, List.not_mem_nil, or_false, not_or] at hr
    obtain ⟨h0, h1, h2⟩ := hr
    exact (Regs.read_write_of_ne _ _ h2).trans ((Regs.read_write_of_ne _ _ h1).trans (Regs.read_write_of_ne _ _ h0))
  case mrg10 => obtain ⟨-, -, -, rfl⟩ := h; exact .setX rfl _ _
  case bipdec => obtain ⟨-, rfl⟩ := h; exact .setX rfl _ _
  case bipenc => obtain ⟨-, rfl⟩ := h; exact .setX rfl _ _
  case unpkg => obtain ⟨-, hb, rfl⟩ := h; exact .bodyRange (by simp [Instr.writes]) (by simpa using hb)
  case pkg => obtain ⟨-, ha, rfl⟩ := h; exact .wire (by simp [Instr.writes]) _ _ (by simpa using ha)
  case unpkall => obtain ⟨-, -, hb, rfl⟩ := h; exact .bodyRange (by simp [Instr.writes]) (by simpa using hb)
  case pkall => obtain ⟨-, -, ha, rfl⟩ := h; exact .wire (by simp [Instr.writes]) _ _ (by simpa using ha)
  case validate => subst h; exact .report (by simp) _ .checks
  case parse =>
    rcases h with ⟨r, hr, rfl⟩ | ⟨body, hb, rfl⟩
    · exact .report (by simp) r (report_of_parseMessage hr)
    · exact .parsed rfl body (length_of_parseMessage hb)
  case fldrd => obtain ⟨l, -, rfl⟩ := h; exact .setX rfl _ _
  case fldwr =>
    obtain ⟨l, hl, -, rfl⟩ := h
    exact .body (by simp [Instr.writes]) _ (wf_writeField l _)
      fun hlay => below_writeField (leafWf_of_mem hlay (leaf_of_getElem? hl)) _
  case decode =>
    rcases h with ⟨r, hr, rfl⟩ | ⟨body, hb, rfl⟩
    · exact .notDecoded rfl r (report_of_parseMessage hr)
    · exact .decoded rfl body (length_of_parseMessage hb)
  case encode => obtain ⟨-, t, ht, rfl⟩ := h; exact .encoded (.inl rfl) t ht
  case safeenc =>
    rcases h with ⟨hm, rfl⟩ | ⟨-, ⟨k, v, hkv, rfl⟩ | ⟨t, ht, rfl⟩⟩
    · exact .report (by simp) _ (.missing hm)
    · exact .report (by simp) _ (.outOfRange k v (lt_of_encodeBody_eq_error hkv))
    · exact .encoded (.inr rfl) t ht

/-- Everything a command can do, a completing one by its effect. -/
theorem exec_effect {i : Instr} {s t : State} (h : exec i s = .next t) :
    t = s ∨ (∃ u, Effect i s u ∧ t = u.advance) ∨ ∃ r, t = s.takeFault r := by
  rcases exec_cases h with ⟨-, rfl⟩ | ⟨-, u, hu, rfl⟩ | ⟨-, r, rfl⟩
  · exact .inl rfl
  · exact .inr (.inl ⟨u, hu.effect, rfl⟩)
  · exact .inr (.inr ⟨r, rfl⟩)

/-! ### Frames -/

/-- No general register but a destination is written (spec/10_state.md R21). -/
theorem Effect.readX {i : Instr} {s u : State} (h : Effect i s u) {r : Reg} (hr : r ∉ i.destinations) :
    u.readX r = s.readX r := by
  cases h with
  | regs x hx => exact hx r hr
  | control csr _ _ _ v => exact congrArg (Regs.read · r) (writeCsr_x s csr v)
  | _ => rfl

/-- Settles O10: a completing command by `Effect.readX`; a refusal and a fault write no general register. -/
theorem onlyDestinationsAreWritten : Obligations.OnlyDestinationsAreWritten := by
  intro i s t h r hr
  rcases exec_effect h with rfl | ⟨u, hu, rfl⟩ | ⟨q, rfl⟩
  · rfl
  · exact hu.readX hr
  · rfl

/-- No space and no writable control register is written that the tables do not list (spec/20_memory.md R60,
spec/10_state.md R30). -/
theorem Effect.spaces {i : Instr} {s u : State} (h : Effect i s u) :
    (.w ∉ i.writes → u.w = s.w) ∧ (.b ∉ i.writes → u.b = s.b) ∧ (.p ∉ i.writes → u.p = s.p) ∧
      (.n ∉ i.writes → u.name = s.name) ∧ (.e ∉ i.writes → u.e = s.e) ∧
      (.wlen ∉ i.writesControl → u.wlen = s.wlen) ∧ (.namelen ∉ i.writesControl → u.namelen = s.namelen) ∧
      (.psec ∉ i.writesControl → u.psec = s.psec) := by
  cases h with
  | regs x hx => simp
  | wire hi => simp [hi]
  | body hi => simp [hi]
  | param hi => simp [hi]
  | name hi => simp [hi]
  | control csr hi =>
    have hne {c : Csr} (hc : c ∉ i.writesControl) : csr ≠ c := fun h => hc (h ▸ hi)
    exact ⟨fun _ => by simp, fun _ => by simp, fun _ => by simp, fun _ => by simp, fun _ => by simp,
      fun h => by simp [hne h], fun h => by simp [hne h], fun h => by simp [hne h]⟩
  | report hi r hr =>
    simp only [List.mem_cons, List.not_mem_nil, or_false] at hi
    rcases hi with rfl | rfl | rfl <;> simp [Instr.writes]
  | parsed hi => subst hi; simp [Instr.writes]
  | decoded hi => subst hi; simp [Instr.writes, Instr.writesControl, State.decoded]
  | notDecoded hi => subst hi; simp [Instr.writes, Instr.writesControl, State.notDecoded]
  | encoded hi => rcases hi with rfl | rfl <;> simp [Instr.writes, Instr.writesControl, State.encoded]

/-- Settles O11: a completing command by `Effect.spaces`; a refusal and a fault write none of these. -/
theorem onlyListedSpacesAreWritten : Obligations.OnlyListedSpacesAreWritten := by
  intro i s t h
  rcases exec_effect h with rfl | ⟨u, hu, rfl⟩ | ⟨q, rfl⟩
  · simp
  · exact hu.spaces
  · simp

/-- The result group of `t` is that of `s` (spec/10_state.md R30, spec/60_exceptions.md R249). -/
def SameResults (s t : State) : Prop :=
  t.valid = s.valid ∧ t.err = s.err ∧ t.elenact = s.elenact ∧ t.ehdrmask = s.ehdrmask ∧ t.epaycnt = s.epaycnt ∧
    t.eln = s.eln ∧ t.e = s.e ∧ t.emiss = s.emiss ∧ t.erngidx = s.erngidx ∧ t.erngval = s.erngval

/-- A completing command leaves the result group, or is a result command. -/
theorem Effect.sameResults {i : Instr} {s u : State} (h : Effect i s u)
    (hi : i ∉ [Instr.validate, .parse, .decode, .encode, .safeenc]) : SameResults s u := by
  cases h with
  | regs | wire | body | param | name => exact ⟨rfl, rfl, rfl, rfl, rfl, rfl, rfl, rfl, rfl, rfl⟩
  | control => simp [SameResults]
  | report hr | parsed hr | decoded hr | notDecoded hr | encoded hr => simp_all

/-- Settles O12: a completing command by `Effect.sameResults`; a fault leaves `ST.VALID` and the rest of the group. -/
theorem onlyResultCommandsWriteResults : Obligations.OnlyResultCommandsWriteResults := by
  intro i s t hi h
  rcases exec_effect h with rfl | ⟨u, hu, rfl⟩ | ⟨q, rfl⟩
  · simp
  · exact hu.sameResults hi
  · simp

end Sys2Proof.Machine
end

section
/-! PROOFS. The result commands: `DECODE` and `ENCODE` by outcome, and what every completed result command reports
(spec/60_exceptions.md R247 to R250, spec/44_marshal.md R203 to R206). -/

namespace Sys2Proof.Machine

/-! ### DECODE and ENCODE by outcome -/

/-- `DECODE` of a message without a body zeroes the parameters and reports why. -/
theorem exec_decode_error {s : State} {r : Result} (hf : s.faulted = false)
    (h : parseMessage s.cfg s.w s.wlen = .error r) : exec .decode s = .next (s.notDecoded r).advance := by
  rw [show exec .decode s = execDecode s from rfl, execDecode, h, State.command_ok hf]

/-- `DECODE` of a message with a body delivers what the body holds. -/
theorem exec_decode_ok {s : State} {body : List Byte} (hf : s.faulted = false)
    (h : parseMessage s.cfg s.w s.wlen = .ok body) :
    exec .decode s = .next (s.decoded (Sparse.ofList body)).advance := by
  rw [show exec .decode s = execDecode s from rfl, execDecode, h, State.command_ok hf]

/-- `ENCODE` raises for missing sections before it looks at a parameter. -/
theorem exec_encode_missing {s : State} (hf : s.faulted = false) (hm : s.missing ≠ 0) :
    exec .encode s = .next (s.takeFault (.encodeValidation s.missing)) := by
  rw [show exec .encode s = execEncode s from rfl, execEncode, missingSections_eq, require_neg hm,
    State.command_error hf]

/-- `ENCODE` raises for the leaf that `encodeBody` stops at. -/
theorem exec_encode_error {s : State} {k : Nat} {v : Word} (hf : s.faulted = false) (hm : s.missing = 0)
    (h : encodeBody s.cfg s.p s.name s.namelen.toNat s.psec = .error (k, v)) :
    exec .encode s = .next (s.takeFault (.range (.field k))) := by
  rw [show exec .encode s = execEncode s from rfl, execEncode, missingSections_eq, require_pos hm, h,
    State.command_error hf]

/-- Settles O56: the two ways `ENCODE` raises; the leaf number is below 4096, so the sub-code adds (`info_field`). -/
theorem encodeRaises : Obligations.EncodeRaises := by
  intro s hf hadm
  obtain ⟨⟨-, -, -, hcount⟩, -⟩ := hadm
  refine ⟨fun hm => ?missing, fun k hm hk => ?field⟩
  case missing =>
    rw [exec_encode_missing hf hm, takeFault_eq_afterFault]
    rfl
  case field =>
    obtain ⟨⟨l, hl, -⟩, -⟩ := id hk
    rw [exec_encode_error hf hm (encodeBody_of_firstOutOfRange hk), ← info_field (lt_of_lt_of_le (leaf_lt hl) hcount)]
    rfl

/-! ### What a result command reports -/

/-- Every result reports success exactly by `ERR = 0` (spec/60_exceptions.md R247). -/
theorem Report.valid_iff {s : State} {r : Result} (h : Report s r) : r.valid = true ↔ r.err = 0 := by
  cases h with
  | checks => rw [validate_valid, decide_eq_true_iff]
  | success => simp [Result.success]
  | badMarker => simp [Result.badMarker, errFlag, ErrClass.bit]
  | missing => simp [Result.missingSections, errFlag, ErrClass.bit]
  | outOfRange => simp [Result.outOfRange, errFlag, ErrClass.bit]

/-- A completing result command commits one of the results, after its other writes. -/
theorem Completes.reports {i : Instr} {s u : State} (h : Completes i s u)
    (hi : i ∈ [Instr.validate, .parse, .decode, .encode, .safeenc]) :
    ∃ (t : State) (r : Result), Report s r ∧ u = t.commitResult r := by
  simp only [List.mem_cons, List.not_mem_nil, or_false] at hi
  rcases hi with rfl | rfl | rfl | rfl | rfl
  · exact ⟨s, _, .checks, h⟩
  · rcases h with ⟨r, hr, rfl⟩ | ⟨body, -, rfl⟩
    · exact ⟨s, r, report_of_parseMessage hr, rfl⟩
    · exact ⟨_, _, .success, rfl⟩
  · rcases h with ⟨r, hr, rfl⟩ | ⟨body, -, rfl⟩
    · exact ⟨_, r, report_of_parseMessage hr, rfl⟩
    · exact ⟨_, _, .success, rfl⟩
  · obtain ⟨-, t, -, rfl⟩ := h
    exact ⟨_, _, .success, rfl⟩
  · rcases h with ⟨hm, rfl⟩ | ⟨-, ⟨k, v, hkv, rfl⟩ | ⟨t, -, rfl⟩⟩
    · exact ⟨s, _, .missing hm, rfl⟩
    · exact ⟨s, _, .outOfRange k v (lt_of_encodeBody_eq_error hkv), rfl⟩
    · exact ⟨_, _, .success, rfl⟩

/-- A result command other than `ENCODE` has no failure that raises (spec/60_exceptions.md R250). -/
theorem exec_result_completes {i : Instr} (hi : i ∈ [Instr.validate, .parse, .decode, .safeenc]) {s : State}
    (hf : s.faulted = false) : ∃ u, exec i s = .next u ∧ u.faulted = false := by
  simp only [List.mem_cons, List.not_mem_nil, or_false] at hi
  rcases hi with rfl | rfl | rfl | rfl
  · exact ⟨_, exec_validate hf, by simpa using hf⟩
  · cases h : parseMessage s.cfg s.w s.wlen with
    | error r => exact ⟨_, exec_parse_error hf h, by simpa using hf⟩
    | ok body => exact ⟨_, exec_parse_ok hf h, by simpa using hf⟩
  · cases h : parseMessage s.cfg s.w s.wlen with
    | error r => exact ⟨_, exec_decode_error hf h, by simpa [State.notDecoded] using hf⟩
    | ok body => exact ⟨_, exec_decode_ok hf h, by simpa [State.decoded] using hf⟩
  · by_cases hm : s.missing = 0
    · cases h : encodeBody s.cfg s.p s.name s.namelen.toNat s.psec with
      | error kv => exact ⟨_, exec_safeenc_error hf hm h, by simpa using hf⟩
      | ok t => exact ⟨_, exec_safeenc_ok hf hm h, by simpa using hf⟩
    · exact ⟨_, exec_safeenc_missing hf hm, by simpa using hf⟩

/-- Settles O13: a completed result command committed a result (`Completes.reports`), and none but `ENCODE` raises
(`exec_result_completes`). -/
theorem resultCommandsReport : Obligations.ResultCommandsReport := by
  intro i s t hi hs h
  refine ⟨fun ht => ?reports, fun hne => ?completes⟩
  case reports =>
    rcases exec_cases_of_not_faulted hs h with ⟨-, u, hu, rfl⟩ | ⟨ht', -⟩
    · obtain ⟨-, -, hcix, -⟩ := hu.keeps
      obtain ⟨v, r, hr, rfl⟩ := hu.reports hi
      refine ⟨congrArg (· + 1) hcix, ?_⟩
      simpa using hr.valid_iff
    · exact absurd (ht.symm.trans ht') Bool.noConfusion
  case completes =>
    obtain ⟨u, hu, huf⟩ := exec_result_completes (i := i) (by simp_all) hs
    obtain rfl : u = t := Host.Outcome.next.inj (hu.symm.trans h)
    exact huf

end Sys2Proof.Machine
end

section
/-! PROOFS. The invariants every step keeps: the fault record, the control registers, the result group and the index
spaces (spec/20_memory.md R60, spec/10_state.md R23 to R46). Reset meets them, and the default parameters are
admitted. -/

namespace Sys2Proof.Machine

/-! ### The fault record -/

@[simp] theorem faulted_hostReset (s : State) : s.hostReset.faulted = false :=
  show (0 : Word).getLsbD 1 = false from BitVec.getLsbD_zero

/-- Settles O22: a fault names its cause and copies `CIX`; what does not raise leaves the record, and nothing runs
under one. -/
theorem stepKeepsTheFaultRecord : Obligations.StepKeepsTheFaultRecord := by
  intro s t hs h
  refine step_keeps h hs (fun u rest hu => ⟨hu.clear, hu.taken⟩) (fun u sp a v hf _ _ hu => ?write) (fun u _ => ?reset)
    (fun i u v hf hv hu => ?complete) (fun u r _ _ => ?fault)
  case write =>
    refine ⟨fun _ => ?_, fun hf' => absurd hf' (by simp [hf])⟩
    simpa using hu.clear hf
  case reset => exact ⟨fun _ => ⟨rfl, rfl, rfl⟩, fun hf => absurd hf (by simp)⟩
  case complete =>
    obtain ⟨hfault, -, -, -, hcause, hinfo, hfcix⟩ := hv.keeps
    refine ⟨fun _ => ?_, fun hf' => absurd hf' (by simp [hfault, hf])⟩
    simpa [hcause, hinfo, hfcix] using hu.clear hf
  case fault =>
    obtain ⟨hlow, hhigh⟩ := code_bounds r
    exact ⟨fun hf => absurd hf (by simp), fun _ => ⟨hlow, hhigh, rfl⟩⟩

/-! ### The bodies the encoders build -/

/-- The walk of an admitted layout stays inside the body (spec/43_layout.md R170, R175). -/
theorem below_encodeLeaves {p : Sparse 16} {psec : Word} {k : Nat} {ls : List Entry} {t t' : Memory}
    (hls : ∀ l ∈ ls, leafWf l = true) (ht : t.below bodyLen = true) (h : encodeLeaves p psec k ls t = .ok t') :
    t'.below bodyLen = true := by
  induction ls generalizing k t with
  | nil => cases h; exact ht
  | cons l rest ih =>
    have ih' {k : Nat} {t : Memory} := ih (k := k) (t := t) fun l' hl' => hls l' (List.mem_cons_of_mem l hl')
    unfold encodeLeaves at h
    split at h
    · split at h
      · exact ih' (below_writeField (hls l List.mem_cons_self) _ ht) h
      · cases h
    · exact ih' ht h

/-- The two steps of `encodeBody`: the walk over the marker, then the name where section 0 is present (R205). -/
theorem encodeBody_eq_ok {c : Config} {p : Sparse 16} {name : Memory} {len : Nat} {psec : Word} {t : Memory} :
    encodeBody c p name len psec = .ok t ↔
      ∃ t', encodeLeaves p psec 0 c.leaves (Sparse.ofList c.marker.toList) = .ok t' ∧
        t = if psec.getLsbD 0 then injectName name len t' else t' := by
  unfold encodeBody
  cases encodeLeaves p psec 0 c.leaves (Sparse.ofList c.marker.toList) with
  | error kv => simp
  | ok t' =>
    simp only [Except.ok.injEq, exists_eq_left']
    exact eq_comm

theorem wf_injectName (name : Memory) (len : Nat) {t : Memory} (h : Sparse.wf t = true) :
    Sparse.wf (injectName name len t) = true :=
  Sparse.wf_writeRange h _ _

theorem below_injectName (name : Memory) (len : Nat) {t : Memory} (h : t.below bodyLen = true) :
    (injectName name len t).below bodyLen = true := by
  refine Sparse.below_writeRange h ?_
  rw [Sparse.length_readRange]
  simp only [nameOff, nameLen, bodyLen]
  omega

/-- The body the encoders build is in the canonical form and inside the body. -/
theorem contained_encodeBody {c : Config} (hlay : wfLayout c.layout) {p : Sparse 16} {name : Memory} {len : Nat}
    {psec : Word} {t : Memory} (h : encodeBody c p name len psec = .ok t) :
    Sparse.wf t = true ∧ t.below bodyLen = true := by
  obtain ⟨t', ht', rfl⟩ := encodeBody_eq_ok.mp h
  have hwf := wf_encodeLeaves (Sparse.wf_ofList c.marker.toList) ht'
  have hbelow := below_encodeLeaves hlay.1 (Sparse.below_ofList (by simp [bodyLen])) ht'
  split
  · exact ⟨wf_injectName name len hwf, below_injectName name len hbelow⟩
  · exact ⟨hwf, hbelow⟩

/-! ### The index spaces -/

theorem nameLenOf_le (t : Memory) : nameLenOf t ≤ 12 := (trimmedLen_spec t nameLen).1

/-- The error list a result commits holds at most `PAYCAP` records (spec/10_state.md R28). -/
theorem Report.contained_e {s : State} {r : Result} (h : Report s r) :
    r.e.wf = true ∧ r.e.below (2 * s.cfg.paycap) = true := by
  cases h with
  | checks =>
    refine ⟨Sparse.wf_ofList _, Sparse.below_ofList ?_⟩
    rw [length_payloadRecords, List.length_take]
    omega
  | _ => exact ⟨rfl, rfl⟩

theorem State.Contained.commitResult {s : State} {r : Result} (hs : s.Contained)
    (hr : r.e.wf = true ∧ r.e.below (2 * s.cfg.paycap) = true) : (s.commitResult r).Contained :=
  { hs with e := hr }

theorem contained_writeCsr {s : State} (csr : Csr) (v : Word) (hs : s.Contained) : (s.writeCsr csr v).Contained :=
  ⟨by simpa using hs.w, by simpa using hs.b, by simpa using hs.p, by simpa using hs.name, by simpa using hs.e⟩

/-- A completing command writes inside its spaces and keeps the canonical form (spec/20_memory.md R60, R62). -/
theorem Effect.contained {i : Instr} {s u : State} (h : Effect i s u) (hadm : s.cfg.admitted) (hs : s.Contained) :
    u.Contained := by
  obtain ⟨hlay, -, hwcap, -⟩ := hadm
  cases h with
  | regs => exact { hs with }
  | wire _ a vs ha => exact { hs with w := ⟨Sparse.wf_writeRange hs.w.1 a vs, Sparse.below_writeRange hs.w.2 ha⟩ }
  | body _ m hwf hm => exact { hs with b := ⟨hwf hs.b.1, hm hlay hs.b.2⟩ }
  | param _ a v ha => exact { hs with p := ⟨Sparse.wf_write hs.p.1 a v, Sparse.below_write hs.p.2 ha v⟩ }
  | name _ a v ha => exact { hs with name := ⟨Sparse.wf_write hs.name.1 a v, Sparse.below_write hs.name.2 ha v⟩ }
  | control csr _ _ _ v => exact contained_writeCsr csr v hs
  | report _ r hr => exact hs.commitResult hr.contained_e
  | parsed _ body hb =>
    exact ⟨hs.w, ⟨Sparse.wf_ofList body, Sparse.below_ofList hb.le⟩, hs.p, hs.name, Report.success.contained_e⟩
  | decoded _ body hb =>
    have hparams : (s.cfg.leaves.map fun l => readField l (Sparse.ofList body)).length ≤ s.cfg.nleaf := by
      rw [List.length_map, Config.nleaf]
    have hname := nameLenOf_le (Sparse.ofList body)
    exact ⟨hs.w, ⟨Sparse.wf_ofList body, Sparse.below_ofList hb.le⟩, ⟨Sparse.wf_ofList _, Sparse.below_ofList hparams⟩,
      ⟨Sparse.wf_ofList _, Sparse.below_ofList (by rw [Sparse.length_readRange]; omega)⟩, Report.success.contained_e⟩
  | notDecoded _ r hr =>
    exact ⟨hs.w, hs.b, ⟨Sparse.wf_nil, Sparse.below_nil _⟩, ⟨Sparse.wf_nil, Sparse.below_nil _⟩, hr.contained_e⟩
  | encoded _ t ht =>
    have hmessage : 0 + (messageBytes s.cfg t).length ≤ s.cfg.wcap := by
      rw [length_messageBytes, msgLen]
      omega
    exact ⟨⟨Sparse.wf_writeRange hs.w.1 _ _, Sparse.below_writeRange hs.w.2 hmessage⟩, contained_encodeBody hlay ht,
      hs.p, hs.name, Report.success.contained_e⟩

/-- A legal host write keeps the canonical form and stays inside its space (spec/60_exceptions.md R258). -/
theorem contained_setElement {s : State} {sp : Space} {a : Nat} (v : Word) (ha : a < spaceSize s.cfg sp)
    (hs : s.Contained) : (s.setElement sp a v).Contained := by
  cases sp with
  | w => exact { hs with w := ⟨Sparse.wf_write hs.w.1 _ _, Sparse.below_write hs.w.2 ha _⟩ }
  | b => exact { hs with b := ⟨Sparse.wf_write hs.b.1 _ _, Sparse.below_write hs.b.2 ha _⟩ }
  | p => exact { hs with p := ⟨Sparse.wf_write hs.p.1 _ _, Sparse.below_write hs.p.2 ha _⟩ }
  | n => exact { hs with name := ⟨Sparse.wf_write hs.name.1 _ _, Sparse.below_write hs.name.2 ha _⟩ }
  | e => exact hs
  | csr => exact contained_writeCsr _ v hs

/-- The free contents a reset leaves fill their spaces and no more (log 5). -/
theorem contained_hostReset (s : State) : s.hostReset.Contained := by
  have hfilled {w n : Nat} (f : Nat → BitVec w) : (Sparse.ofList ((List.range n).map f)).wf = true ∧
      (Sparse.ofList ((List.range n).map f)).below n = true :=
    ⟨Sparse.wf_ofList _, Sparse.below_ofList (by simp)⟩
  exact ⟨hfilled _, hfilled _, hfilled _, hfilled _, Sparse.wf_nil, Sparse.below_nil _⟩

/-- Settles O20: completing commands by `Effect.contained`, host writes by `contained_setElement`; a fault writes no
space. -/
theorem stepKeepsSpacesContained : Obligations.StepKeepsSpacesContained := by
  intro s t hadm hs h
  have hkept : t.cfg.admitted ∧ t.Contained := by
    refine step_keeps (P := fun u => u.cfg.admitted ∧ u.Contained) h ⟨hadm, hs⟩ (fun u rest hu => ⟨hu.1, { hu.2 with }⟩)
      (fun u sp a v _ ha _ hu => ⟨by simpa using hu.1, contained_setElement v ha hu.2⟩)
      (fun u hu => ⟨hu.1, contained_hostReset u⟩) (fun i u v _ hv hu => ?_) (fun u r _ hu => ⟨hu.1, { hu.2 with }⟩)
    obtain ⟨-, hcfg, -⟩ := hv.keeps
    exact ⟨by rw [advance_cfg, hcfg]; exact hu.1, { hv.effect.contained hu.1 hu.2 with }⟩
  exact hkept.2

/-! ### Legal control registers -/

theorem toNat_withValid_le {st : Word} (h : st.toNat ≤ 3) (v : Bool) : (withValid st v).toNat ≤ 3 := by
  have hkeep : (st &&& ~~~(1 : Word)).toNat ≤ st.toNat := by
    rw [BitVec.toNat_and]
    exact Nat.and_le_left
  have hbit : (if v then 1 else 0 : Word).toNat < 2 ^ 2 := by cases v <;> decide
  have := Nat.or_lt_two_pow (show (st &&& ~~~(1 : Word)).toNat < 2 ^ 2 by omega) hbit
  rw [withValid, BitVec.toNat_or]
  omega

theorem toNat_or_fault_le {st : Word} (h : st.toNat ≤ 3) : (st ||| 2).toNat ≤ 3 := by
  have := Nat.or_lt_two_pow (show st.toNat < 2 ^ 2 by omega) (show (2 : Word).toNat < 2 ^ 2 by decide)
  rw [BitVec.toNat_or]
  omega

/-- The header mask uses the seven bits of the header bytes (spec/10_state.md R40). -/
theorem toNat_ehdrmask_le (paycap : Nat) (w : Memory) (wlen : Word) :
    (validate paycap w wlen).ehdrmask.toNat ≤ 0x7F := by
  have hlt : (validate paycap w wlen).ehdrmask.toNat < 2 ^ 7 := Nat.lt_pow_two_of_testBit _ fun i hi => by
    have hbit := getLsbD_ehdrmask paycap w wlen i
    rwa [decide_eq_false (by omega), Bool.false_and] at hbit
  omega

/-- The missing sections are among the ten that exist (spec/10_state.md R43, spec/44_marshal.md R204). -/
theorem toNat_missingSections_le (c : Config) (psec : Word) : (missingSections c psec).toNat ≤ 0x03FF := by
  rw [missingSections, BitVec.toNat_and]
  exact Nat.and_le_right

/-- The members a result commits stay within their defined bits (spec/10_state.md R38 to R43). -/
theorem Report.legal {s : State} {r : Result} (h : Report s r) :
    r.err.toNat ≤ 0x7F ∧ r.ehdrmask.toNat ≤ 0x7F ∧ r.epaycnt.toNat ≤ 512 ∧ r.emiss.toNat ≤ 0x03FF := by
  cases h with
  | checks =>
    obtain ⟨-, -, -, -, herr⟩ := validate_err_bits s.cfg.paycap s.w s.wlen
    refine ⟨by omega, toNat_ehdrmask_le _ _ _, ?_, Nat.zero_le _⟩
    rw [toNat_epaycnt]
    exact length_badPayload _ _
  | success => decide
  | badMarker => decide
  | missing =>
    exact ⟨show (errFlag .esect true).toNat ≤ 0x7F by decide, Nat.zero_le _, Nat.zero_le _,
      toNat_missingSections_le s.cfg s.psec⟩
  | outOfRange =>
    exact ⟨show (errFlag .erange true).toNat ≤ 0x7F by decide, Nat.zero_le _, Nat.zero_le _, Nat.zero_le _⟩

/-- A committed result writes legal members, whatever was written before it. -/
theorem legal_commitResult {s t : State} {r : Result} (hr : Report s r) (ht : t.LegalControl) :
    (t.commitResult r).LegalControl := by
  obtain ⟨herr, hmask, hcnt, hmiss⟩ := hr.legal
  exact { ht with
    st := toNat_withValid_le ht.st r.valid, err := herr, ehdrmask := hmask, epaycnt := hcnt, emiss := hmiss }

/-- A value inside the limit of a writable control register is legal there (spec/45_move_system.md R232). -/
theorem legal_writeCsr {s : State} {csr : Csr} {n : Nat} {v : Word} (hn : csrLimit s.cfg csr = some n)
    (hv : v.toNat ≤ n) (hs : s.LegalControl) : (s.writeCsr csr v).LegalControl := by
  cases csr with
  | wlen => cases hn; exact { hs with wlen := hv }
  | namelen => cases hn; exact { hs with namelen := hv }
  | psec => cases hn; exact { hs with psec := hv }
  | _ => cases hn

theorem toNat_allSections_le : allSections.toNat ≤ 0x03FF := by decide

/-- A completing command leaves the control registers legal. -/
theorem Effect.legal {i : Instr} {s u : State} (h : Effect i s u) (hadm : s.cfg.admitted) (hs : s.LegalControl) :
    u.LegalControl := by
  obtain ⟨-, -, hwcap, -⟩ := hadm
  cases h with
  | regs | wire | body | param | name => exact { hs with }
  | control csr _ n hn v hv => exact legal_writeCsr hn hv hs
  | report _ r hr => exact legal_commitResult hr hs
  | parsed _ body => exact legal_commitResult (s := s) .success { hs with }
  | decoded _ body =>
    have hname := nameLenOf_le (Sparse.ofList body)
    refine legal_commitResult (s := s) .success { hs with namelen := ?_, psec := toNat_allSections_le }
    exact (toNat_ofNat_word (by omega)).trans_le (by omega)
  | notDecoded _ r hr => exact legal_commitResult hr { hs with namelen := Nat.zero_le _, psec := toNat_allSections_le }
  | encoded _ t =>
    refine legal_commitResult (s := s) .success { hs with wlen := ?_ }
    exact (toNat_ofNat_word (by decide)).trans_le (show 520 ≤ s.cfg.wcap by omega)

/-- A legal host write leaves the control registers legal (spec/60_exceptions.md R258). -/
theorem legal_setElement {s : State} {sp : Space} {a : Nat} {v : Word} (hv : hostWritable s sp a v = true)
    (hs : s.LegalControl) : (s.setElement sp a v).LegalControl := by
  cases sp with
  | w | b | p | n | e => exact { hs with }
  | csr =>
    rw [hostWritable] at hv
    split at hv
    · cases hv
    · next n hn => exact legal_writeCsr hn (of_decide_eq_true hv) hs

theorem legal_resetWith (c : Config) : (State.resetWith c).LegalControl :=
  ⟨Nat.zero_le _, Nat.zero_le _, Nat.zero_le _, Nat.zero_le _, Nat.zero_le _, Nat.zero_le _, Nat.zero_le _,
    Nat.zero_le _⟩

/-- Settles O21: completing commands by `Effect.legal`, host writes by `legal_setElement`; a fault sets bit 1 of
`ST`. -/
theorem stepKeepsControlLegal : Obligations.StepKeepsControlLegal := by
  intro s t hadm hs h
  have hkept : t.cfg.admitted ∧ t.LegalControl := by
    refine step_keeps (P := fun u => u.cfg.admitted ∧ u.LegalControl) h ⟨hadm, hs⟩
      (fun u rest hu => ⟨hu.1, { hu.2 with }⟩)
      (fun u sp a v _ _ hv hu => ⟨by simpa using hu.1, legal_setElement hv hu.2⟩)
      (fun u hu => ⟨hu.1, { legal_resetWith u.cfg with }⟩) (fun i u v _ hv hu => ?_)
      (fun u r _ hu => ⟨hu.1, { hu.2 with st := toNat_or_fault_le hu.2.st }⟩)
    obtain ⟨-, hcfg, -⟩ := hv.keeps
    exact ⟨by rw [advance_cfg, hcfg]; exact hu.1, { hv.effect.legal hu.1 hu.2 with }⟩
  exact hkept.2

/-! ### The result group -/

theorem SameResults.resultGroup {s t : State} (h : SameResults s t) (hcfg : t.cfg = s.cfg) (hs : s.ResultGroup) :
    t.ResultGroup := by
  obtain ⟨hvalid, herr, hact, hmask, hcnt, heln, he, hmiss, hidx, hval⟩ := h
  constructor
  · rw [hvalid, herr]; exact hs.valid
  · rw [herr]; exact hs.classes
  · rw [herr, hact]; exact hs.elen
  · rw [herr, hmask]; exact hs.ehdr
  · rw [herr, hcnt]; exact hs.epay
  · rw [heln, hcnt, hcfg]; exact hs.eln
  · rw [heln, he]; exact hs.records
  · rw [heln, he]; exact hs.beyond
  · rw [herr, hmiss]; exact hs.emiss
  · rw [herr, hidx, hval, hcfg]; exact hs.erange

/-- Every record of a structural result names a payload byte above 127 (spec/10_state.md R28). -/
theorem validate_records_range {paycap : Nat} {w : Memory} {wlen : Word} {j : Nat}
    (hj : j < (validate paycap w wlen).eln.toNat) :
    7 ≤ ((validate paycap w wlen).e.read (2 * j)).toNat ∧ ((validate paycap w wlen).e.read (2 * j)).toNat ≤ 518 ∧
      128 ≤ ((validate paycap w wlen).e.read (2 * j + 1)).toNat ∧
      ((validate paycap w wlen).e.read (2 * j + 1)).toNat ≤ 255 := by
  have hlen : j < (badPayload w wlen.toNat).length := by
    rw [toNat_eln] at hj
    omega
  obtain ⟨hindex, hbyte⟩ := validate_e_record hj (List.getElem?_eq_getElem hlen)
  obtain ⟨hlow, hhigh, -, hbad⟩ := mem_badPayload.mp (List.getElem_mem hlen)
  rw [hindex, hbyte]
  refine ⟨hlow, hhigh, ?_, toNat_setWidth_le _⟩
  rw [BitVec.toNat_setWidth_of_le (by decide)]
  exact hbad

/-- The members a structural result commits agree (spec/42_frame.md R145). -/
theorem resultGroup_validate (t : State) (w : Memory) (wlen : Word) :
    (t.commitResult (validate t.cfg.paycap w wlen)).ResultGroup := by
  obtain ⟨helen, hehdr, -, hepay, hmax⟩ := validate_err_bits t.cfg.paycap w wlen
  have hlow {i : Nat} (hi : 4 ≤ i) : (validate t.cfg.paycap w wlen).err.getLsbD i = false :=
    toNat_lt_of_getLsbD (w := 4) (by omega) hi
  constructor
  case valid => simp [validate_valid]
  case classes => exact .inl hmax
  case elen =>
    simp only [commitResult_err, commitResult_elenact, helen, validate_elenact, decide_eq_true_eq]
    by_cases h : wlen.toNat = msgLen
    · rw [if_neg (not_not.mpr h), if_pos h]
    · rw [if_pos h, if_neg h]
      exact h
  case ehdr => simp only [commitResult_err, commitResult_ehdrmask, hehdr, decide_eq_true_eq]
  case epay => simp only [commitResult_err, commitResult_epaycnt, hepay, decide_eq_true_eq]
  case eln => simp only [commitResult_eln, commitResult_epaycnt, commitResult_cfg, toNat_eln, toNat_epaycnt]
  case records => exact fun j hj => validate_records_range hj
  case beyond => exact fun a ha => validate_e_beyond ha
  case emiss =>
    simp only [commitResult_err, hlow (show 4 ≤ 5 by decide)]
    exact iff_of_false Bool.noConfusion (not_not.mpr rfl)
  case erange =>
    simp only [commitResult_err, hlow (show 4 ≤ 6 by decide)]
    exact ⟨rfl, rfl⟩

/-- The members of every committed result agree (spec/10_state.md R38 to R45). -/
theorem Report.resultGroup {s t : State} {r : Result} (h : Report s r) (hcfg : t.cfg = s.cfg) :
    (t.commitResult r).ResultGroup := by
  cases h with
  | checks => rw [← hcfg]; exact resultGroup_validate t s.w s.wlen
  | success => constructor <;> simp [Result.success]
  | badMarker => constructor <;> simp [Result.badMarker, errFlag, ErrClass.bit]
  | missing h => constructor <;> simp_all [Result.missingSections, errFlag, ErrClass.bit]
  | outOfRange k v hk =>
    constructor
    case erange =>
      have hidx : (BitVec.ofNat 16 k).toNat < t.cfg.nleaf := by
        rw [hcfg]
        exact (Nat.mod_le k _).trans_lt hk
      simpa [Result.outOfRange, errFlag, ErrClass.bit] using hidx
    all_goals simp [Result.outOfRange, errFlag, ErrClass.bit]

theorem resultGroup_resetWith (c : Config) : (State.resetWith c).ResultGroup := by
  constructor <;> simp [State.resetWith]

/-- Settles O23: a result command commits members that agree (`Report.resultGroup`); everything else leaves the group,
but for a reset, which clears it. -/
theorem stepKeepsTheResultGroup : Obligations.StepKeepsTheResultGroup := by
  intro s t _ hs h
  refine step_keeps h hs (fun u rest hu => SameResults.resultGroup (s := u) (by simp [SameResults]) rfl hu)
    (fun u sp a v _ _ _ hu => SameResults.resultGroup (s := u) (by simp [SameResults]) (by simp) hu)
    (fun u _ => SameResults.resultGroup (s := State.resetWith u.cfg) ?reset rfl (resultGroup_resetWith _))
    (fun i u v _ hv hu => ?complete)
    (fun u r _ hu => SameResults.resultGroup (s := u) (by simp [SameResults]) rfl hu)
  case reset => exact ⟨rfl, rfl, rfl, rfl, rfl, rfl, rfl, rfl, rfl, rfl⟩
  case complete =>
    obtain ⟨-, hcfg, -⟩ := hv.keeps
    have hgroup : v.ResultGroup := by
      by_cases hi : i ∈ [Instr.validate, .parse, .decode, .encode, .safeenc]
      · obtain ⟨t, r, hr, rfl⟩ := hv.reports hi
        exact hr.resultGroup hcfg
      · exact (hv.effect.sameResults hi).resultGroup hcfg hu
    exact SameResults.resultGroup (s := v) (by simp [SameResults]) rfl hgroup

/-- Settles O24: nothing is listed and every register is 0. -/
theorem resetMeetsTheInvariants : Obligations.ResetMeetsTheInvariants := by
  refine fun c => ⟨?contained, legal_resetWith c, ?record, resultGroup_resetWith c, rfl⟩
  case contained => exact ⟨⟨rfl, rfl⟩, ⟨rfl, rfl⟩, ⟨rfl, rfl⟩, ⟨rfl, rfl⟩, rfl, rfl⟩
  case record =>
    have hclear : (State.resetWith c).faulted = false := BitVec.getLsbD_zero
    exact ⟨fun _ => ⟨rfl, rfl, rfl⟩, fun h => absurd h (by simp [hclear])⟩

/-! ### The default parameters -/

/-- Settles O51: the conditions of R170 evaluated on the 371 leaves, the pairwise one by the linear check
`pairwise_disjoint_of_fresh`. -/
theorem defaultParametersAreAdmitted : Obligations.DefaultParametersAreAdmitted := by
  refine ⟨⟨⟨?leaves, pairwise_disjoint_of_fresh ?fresh, ?nonempty, ?bounded⟩, ?caps⟩, ?entries, ?count, ?bits⟩
  all_goals decide +kernel

end Sys2Proof.Machine
end

section
/-! PROOFS. The frame commands look at the message alone, and a field at its footprint alone (spec/42_frame.md R144,
R145, spec/43_layout.md R166 to R169). -/

namespace Sys2Proof.Machine

/-! ### A well-formed message -/

/-- Settles O42: `VALIDATE` commits the result of the checks, which all pass exactly for such a message
(`validate_valid_iff`). -/
theorem validExactlyForWellFormedMessages : Obligations.ValidExactlyForWellFormedMessages := by
  intro s t hf h
  obtain rfl : _ = t := Host.Outcome.next.inj ((exec_validate hf).symm.trans h)
  rw [valid_advance, valid_commitResult]
  exact validate_valid_iff s s.cfg.paycap

/-! ### No byte beyond the message -/

/-- The wire buffers `m` and `w` hold the same message of length `len`, cut at 520 bytes. -/
def SameMessage (m w : Memory) (len : Nat) : Prop := ∀ a, a < min len 520 → m.read a = w.read a

section

variable {m w : Memory} {len : Nat}

theorem SameMessage.badHeader (h : SameMessage m w len) {i : Nat} (hi : i < hdrLen) :
    badHeader m len i = badHeader w len i := by
  unfold Machine.badHeader
  by_cases hlen : len ≤ i
  · simp [hlen]
  · simp only [hdrLen] at hi
    rw [h i (by omega)]

theorem SameMessage.badFooter (h : SameMessage m w len) : badFooter m len = badFooter w len := by
  unfold Machine.badFooter
  by_cases hlen : len ≤ ftrPos
  · simp [hlen]
  · have hread : m.read ftrPos = w.read ftrPos := h ftrPos (by simp only [ftrPos] at *; omega)
    rw [hread]

theorem SameMessage.badPayload (h : SameMessage m w len) : badPayload m len = badPayload w len := by
  refine List.filter_congr fun a ha => ?_
  simp only [List.mem_map, List.mem_range, ftrPos, hdrLen] at ha
  obtain ⟨b, hb, rfl⟩ := ha
  rw [h (b + 7) (by omega)]

/-- The records of bytes of the message. -/
theorem SameMessage.payloadRecords (h : SameMessage m w len) {l : List Nat} (hl : ∀ a ∈ l, a < min len 520) :
    payloadRecords m l = payloadRecords w l := by
  refine List.flatMap_congr fun a ha => ?_
  rw [h a (hl a ha)]

theorem maskOf_congr {f g : Nat → Bool} {n : Nat} (hn : n ≤ 16) (h : ∀ i < n, f i = g i) : maskOf f n = maskOf g n := by
  refine BitVec.eq_of_getLsbD_eq fun i _ => ?_
  rw [getLsbD_maskOf f hn, getLsbD_maskOf g hn]
  by_cases hi : i < n
  · rw [h i hi]
  · simp [hi]

/-- The checks read no byte beyond the message (spec/42_frame.md R144, R145). -/
theorem SameMessage.validate {wlen : Word} (h : SameMessage m w wlen.toNat) (paycap : Nat) :
    validate paycap m wlen = validate paycap w wlen := by
  have hrecords : Machine.payloadRecords m ((Machine.badPayload w wlen.toNat).take paycap) =
      Machine.payloadRecords w ((Machine.badPayload w wlen.toNat).take paycap) := by
    refine h.payloadRecords fun a ha => ?_
    obtain ⟨-, hmax, hlen, -⟩ := mem_badPayload.mp (List.mem_of_mem_take ha)
    omega
  unfold Machine.validate
  simp only [maskOf_congr (by decide) fun i => h.badHeader (i := i), h.badFooter, h.badPayload, hrecords]

/-- A message of 520 bytes has one body (R147). -/
theorem SameMessage.messageBody (h : SameMessage m w 520) (c : Config) : messageBody c m = messageBody c w := by
  unfold Machine.messageBody
  rw [readRange_congr fun i hi => h (hdrLen + i) (by simp only [hdrLen, payLen] at *; omega)]

/-- So `parse` gives the same body or the same result; it looks at the body of a message of 520 bytes only. -/
theorem SameMessage.parseMessage {wlen : Word} (h : SameMessage m w wlen.toNat) (c : Config) :
    parseMessage c m wlen = parseMessage c w wlen := by
  unfold Machine.parseMessage
  rw [h.validate c.paycap]
  cases hv : (Machine.validate c.paycap w wlen).valid with
  | false => simp [hv]
  | true =>
    obtain ⟨hlen, -⟩ := (validate_valid_iff_checks c.paycap w wlen).mp hv
    rw [hlen] at h
    rw [h.messageBody c]

end

/-- A change `f` of the state that a command carries from the state before to the state after it. -/
theorem exec_next_map {f : State → State} {i : Instr} {s t u : State} (hs : exec i s = .next u)
    (hf : exec i (f s) = .next (f u)) (h : exec i s = .next t) : exec i (f s) = .next (f t) := by
  obtain rfl : u = t := Host.Outcome.next.inj (hs.symm.trans h)
  exact hf

/-- Settles O44: each command is refused, or writes what `validate` or `parseMessage` gives, and those agree. -/
theorem frameCommandsReadOnlyTheMessage : Obligations.FrameCommandsReadOnlyTheMessage := by
  intro s t m hm
  have hsame : SameMessage m s.w s.wlen.toNat := hm
  have hparse := hsame.parseMessage s.cfg
  have hboth {i : Instr} {u : State} := exec_next_map (f := (State.setW · m)) (i := i) (s := s) (t := t) (u := u)
  cases hf : s.faulted with
  | true =>
    have hf' : (s.setW m).faulted = true := hf
    exact ⟨hboth (exec_of_faulted hf _) (exec_of_faulted hf' _), hboth (exec_of_faulted hf _) (exec_of_faulted hf' _),
      hboth (exec_of_faulted hf _) (exec_of_faulted hf' _)⟩
  | false =>
    have hf' : (s.setW m).faulted = false := hf
    refine ⟨hboth (exec_validate hf) ?_, ?_⟩
    · rw [exec_validate hf', setW_cfg, setW_w, setW_wlen, hsame.validate]
      rfl
    · cases hp : parseMessage s.cfg s.w s.wlen with
      | error r =>
        exact ⟨hboth (exec_parse_error hf hp) (exec_parse_error hf' (hparse.trans hp)),
          hboth (exec_decode_error hf hp) (exec_decode_error hf' (hparse.trans hp))⟩
      | ok body =>
        exact ⟨hboth (exec_parse_ok hf hp) (exec_parse_ok hf' (hparse.trans hp)),
          hboth (exec_decode_ok hf hp) (exec_decode_ok hf' (hparse.trans hp))⟩

/-! ### Values read from a field -/

/-- What a leaf of an admitted layout reads as is in its declared range (spec/43_layout.md R167, R169). -/
theorem inRange_readField {l : Entry} (hl : leafWf l = true) (t : Memory) : inRange l (readField l t) = true := by
  cases hk : l.kind with
  | byte =>
    rw [inRange_byte hk, readField_byte hk]
    exact toNat_setWidth_le _
  | bits =>
    obtain ⟨-, hw, -⟩ := leafWf_bits hl hk
    rw [inRange_bits hk, readField_bits hk, BitVec.toNat_setWidth_of_le (by decide), toNat_readBits _ _ hw]
    exact Nat.le_sub_one_of_lt (Nat.mod_lt _ (Nat.two_pow_pos _))
  | s10 =>
    have hraw := toNat_read10_le (t.read l.off) (t.read l.loff) l.start
    cases hb : l.bip with
    | false => rwa [inRange_s10_plain hk hb, readField_s10_plain hk hb]
    | true =>
      rw [inRange_s10_bipolar hk hb, readField_s10_bipolar hk hb, tc16_bipDecode, BitVec.toNat_ofNat]
      omega
  | barr =>
    obtain ⟨-, hw⟩ := leafWf_barr hl hk
    rw [inRange_barr hk]
    refine Nat.le_sub_one_of_lt (Nat.lt_pow_two_of_testBit _ fun i hi => ?_)
    rw [← BitVec.getLsbD, getLsbD_readField_barr hk hw, decide_eq_false (by omega), Bool.false_and]

/-- Settles O48: `inRange_readField`, `readField_congr` and `bitAt_writeField_of_notMem` of a leaf of the layout. -/
theorem fieldsTouchOnlyTheirFootprint : Obligations.FieldsTouchOnlyTheirFootprint := by
  intro c l t t' hlay hl
  have hwf := leafWf_of_mem hlay hl
  exact ⟨inRange_readField hwf t, readField_congr hwf, fun v hv q hq => bitAt_writeField_of_notMem hwf hv t hq⟩

end Sys2Proof.Machine
end

section
/-! PROOFS. `DECODE` of a good message, of one `PARSE` refuses, and of the zero body (spec/44_marshal.md R201 to R203,
R209). -/

namespace Sys2Proof.Machine

/-! ### A message with a body -/

/-- A well-formed message with the marker has a body, that of its payload (spec/42_frame.md R148, R149). -/
theorem parseMessage_ok {s : State} (hw : s.wellFormedMessage) (hm : s.markerPresent) :
    parseMessage s.cfg s.w s.wlen = .ok (messageBody s.cfg s.w) :=
  parseMessage_eq_ok.mpr
    ⟨(validate_valid_iff s s.cfg.paycap).mpr hw, (take_messageBody_eq_marker_iff s).mpr hm, rfl⟩

/-- Any other message has none. -/
theorem parseMessage_error {s : State} (h : ¬(s.wellFormedMessage ∧ s.markerPresent)) :
    ∃ r, parseMessage s.cfg s.w s.wlen = .error r := by
  cases hp : parseMessage s.cfg s.w s.wlen with
  | error r => exact ⟨r, rfl⟩
  | ok body =>
    obtain ⟨hvalid, hmarker, -⟩ := parseMessage_eq_ok.mp hp
    exact absurd ⟨(validate_valid_iff s s.cfg.paycap).mp hvalid, (take_messageBody_eq_marker_iff s).mp hmarker⟩ h

/-- `DECODE` of a good message. -/
theorem exec_decode_message {s : State} (hf : s.faulted = false) (hw : s.wellFormedMessage) (hm : s.markerPresent) :
    exec .decode s = .next (s.decoded (Sparse.ofList (messageBody s.cfg s.w))).advance :=
  exec_decode_ok hf (parseMessage_ok hw hm)

/-- The body of the message as a buffer, byte by byte. -/
theorem toNat_read_messageBody (c : Config) (w : Memory) {j : Nat} (hj : j < 448) :
    ((Sparse.ofList (messageBody c w)).read j).toNat = carriedByte c.carrierOrder w 7 j := by
  rw [Sparse.read_ofList, toNat_getD_messageBody c w hj]

theorem below_messageBody (c : Config) (w : Memory) : (Sparse.ofList (messageBody c w)).below 448 = true :=
  Sparse.below_ofList (length_messageBody c w).le

theorem below_paramsOf (c : Config) (t : Memory) : (paramsOf c t).below c.nleaf = true :=
  Sparse.below_ofList (by rw [List.length_map, Config.nleaf])

theorem below_nameOf (t : Memory) : (nameOf t).below 16 = true := by
  have := nameLenOf_le t
  exact Sparse.below_ofList (by rw [Sparse.length_readRange]; omega)

/-- The writes of a `DECODE` with body `t`, and its count in `CIX` (R203). -/
theorem advance_decoded (s : State) (t : Memory) :
    (s.decoded t).advance =
      { s.reportedSuccess with
        b := t, p := paramsOf s.cfg t, name := nameOf t, namelen := BitVec.ofNat 16 (nameLenOf t), psec := 0x03FF
        cix := s.cix + 1 } := by
  rw [State.decoded, advance_commitResult_success]
  rfl

/-- Settles O52: the writes are those of `advance_decoded`, and each clause is the lemma about one of them. -/
theorem decodeDeliversTheParameters : Obligations.DecodeDeliversTheParameters := by
  intro s hf hw hm
  obtain ⟨hlen, hlast, hrest⟩ := trimmedLen_spec (Sparse.ofList (messageBody s.cfg s.w)) nameLen
  refine ⟨_, _, _, _, ?_, below_messageBody s.cfg s.w, fun j hj => toNat_read_messageBody s.cfg s.w hj,
    below_paramsOf _ _, fun k l hl => read_paramsOf _ hl, hlen, hlast, hrest, below_nameOf _,
    fun a _ => read_nameOf _ a⟩
  rw [exec_decode_message hf hw hm, advance_decoded]
  rfl

/-- Settles O53: `PARSE` and `DECODE` meet the same result. -/
theorem decodeFailureLeavesZeroParameters : Obligations.DecodeFailureLeavesZeroParameters := by
  intro s hf h
  obtain ⟨r, hr⟩ := parseMessage_error h
  exact ⟨_, exec_parse_error hf hr, rfl, exec_decode_error hf hr⟩

/-! ### The zero body -/

/-- A leaf of an admitted layout reads 0 from a buffer of zeros, a bipolar one logical -512 (R209, point 3). -/
theorem readField_nil {l : Entry} (hl : leafWf l = true) : readField l [] = if l.bip = true then 0xFE00 else 0 := by
  have hplain (hk : l.kind ≠ .s10) : l.bip ≠ true := fun hb => hk (leafWf_bip hl hb)
  cases hk : l.kind with
  | byte => rw [readField_byte hk, if_neg (hplain (by simp [hk]))]; rfl
  | bits =>
    have hzero : readBits 0 l.start l.width = 0 := by simp [readBits]
    rw [readField_bits hk, if_neg (hplain (by simp [hk])), Sparse.read_nil, hzero]
    rfl
  | s10 =>
    have hzero : read10 0 0 l.start = 0 := by simp [read10]
    rw [readField_s10 hk, Sparse.read_nil, Sparse.read_nil, hzero]
    rfl
  | barr =>
    obtain ⟨-, hw⟩ := leafWf_barr hl hk
    rw [if_neg (hplain (by simp [hk]))]
    refine BitVec.eq_of_getLsbD_eq fun i _ => ?_
    rw [getLsbD_readField_barr hk hw, Sparse.read_nil]
    simp

/-- A leaf reads as from zeros if the bytes from index 16 on are 0, for its footprint lies there (spec/43_layout.md
R170). -/
theorem readField_of_zero {l : Entry} (hl : leafWf l = true) {t : Memory}
    (ht : ∀ a, 16 ≤ a → a < 448 → t.read a = 0) : readField l t = readField l [] := by
  refine readField_congr hl fun q hq => ?_
  obtain ⟨hlow, hhigh⟩ := leafWf_range hl q hq
  rw [bitAt, bitAt, ht q.1 hlow (by omega), Sparse.read_nil]

/-- A name region of zeros holds the empty name (R202). -/
theorem nameLenOf_of_zero {t : Memory} (ht : ∀ a, a < 12 → t.read (4 + a) = 0) : nameLenOf t = 0 := by
  have hlen := nameLenOf_le t
  obtain ⟨-, hlast, -⟩ := trimmedLen_spec t nameLen
  rcases hlast with hzero | hne
  · exact hzero
  · exact absurd (ht (nameLenOf t - 1) (by omega)) hne

/-- Settles O54: the leaves by `readField_of_zero` and `readField_nil`, the name by `nameLenOf_of_zero`. -/
theorem decodeOfZeroBody : Obligations.DecodeOfZeroBody := by
  intro s hf hadm hw hm hzero
  obtain ⟨hlay, -⟩ := hadm
  have hbody (j : Nat) (h4 : 4 ≤ j) (hj : j < 448) : (Sparse.ofList (messageBody s.cfg s.w)).read j = 0 := by
    rw [← BitVec.toNat_inj, toNat_read_messageBody s.cfg s.w hj, hzero j h4 hj]
    rfl
  refine ⟨_, exec_decode_message hf hw hm, ?valid, ?namelen, fun k l hl => ?leaf⟩
  case valid => simp [State.decoded, Result.success]
  case namelen =>
    rw [advance_decoded, nameLenOf_of_zero fun a ha => hbody (4 + a) (by omega) (by omega)]
    rfl
  case leaf =>
    have hwf := leafWf_of_mem hlay (leaf_of_getElem? hl)
    rw [advance_decoded, read_paramsOf _ hl, readField_of_zero hwf fun a h16 ha => hbody a (by omega) ha,
      readField_nil hwf]

end Sys2Proof.Machine
end

section
/-! PROOFS. The body the encoders build and the message around it (spec/44_marshal.md R204 to R209). -/

namespace Sys2Proof.Machine

/-! ### The walk of the layout, bit by bit -/

/-- The walk changes no bit outside the footprints of the leaves of present sections (R205, spec/43_layout.md R168). -/
theorem bitAt_encodeLeaves {p : Sparse 16} {psec : Word} {k : Nat} {ls : List Entry} {t t' : Memory}
    (hls : ∀ l ∈ ls, leafWf l = true) (h : encodeLeaves p psec k ls t = .ok t') {q : Nat × Nat}
    (hq : ∀ l ∈ ls, psec.getLsbD l.sect = true → q ∉ footprint l) : bitAt t' q = bitAt t q := by
  induction ls generalizing k t with
  | nil => cases h; rfl
  | cons l rest ih =>
    have ih' {k : Nat} {t : Memory} := ih (k := k) (t := t) (fun l' hl' => hls l' (List.mem_cons_of_mem l hl'))
      (hq := fun l' hl' => hq l' (List.mem_cons_of_mem l hl'))
    unfold encodeLeaves at h
    split at h
    · next hp =>
      split at h
      · next hr =>
        rw [ih' h, bitAt_writeField_of_notMem (hls l List.mem_cons_self) hr t (hq l List.mem_cons_self hp)]
      · cases h
    · exact ih' h

/-- Every leaf of a present section reads its parameter after the walk: a later leaf shares no bit with it (R205,
spec/43_layout.md R174). -/
theorem readField_encodeLeaves {p : Sparse 16} {psec : Word} {k : Nat} {ls : List Entry} {t t' : Memory}
    (hls : ∀ l ∈ ls, leafWf l = true) (hdis : ls.Pairwise disjoint) (h : encodeLeaves p psec k ls t = .ok t') {j : Nat}
    {l : Entry} (hl : ls[j]? = some l) (hp : psec.getLsbD l.sect = true) : readField l t' = p.read (k + j) := by
  induction ls generalizing k t j with
  | nil => cases hl
  | cons l' rest ih =>
    obtain ⟨hhead, htail⟩ := List.pairwise_cons.mp hdis
    have hrest : ∀ l ∈ rest, leafWf l = true := fun l hl => hls l (List.mem_cons_of_mem l' hl)
    unfold encodeLeaves at h
    cases j with
    | zero =>
      obtain rfl : l' = l := Option.some.inj hl
      have hwf := hls l' List.mem_cons_self
      rw [if_pos hp] at h
      split at h
      · next hr =>
        have hkept : readField l' t' = readField l' (writeField l' t (p.read k)) :=
          readField_congr hwf fun q hq => bitAt_encodeLeaves hrest h fun l hl _ => hhead l hl q hq
        rw [hkept, readField_writeField hwf hr, Nat.add_zero]
      · cases h
    | succ j =>
      have ih' {t : Memory} (h : encodeLeaves p psec (k + 1) rest t = .ok t') :
          readField l t' = p.read (k + (j + 1)) := by
        rw [ih hrest htail h hl, Nat.add_right_comm, Nat.add_assoc]
      split at h
      · split at h
        · exact ih' h
        · cases h
      · exact ih' h

/-! ### The body of an admitted layout -/

section

variable {c : Config} {p : Sparse 16} {name : Memory} {len : Nat} {psec : Word} {t : Memory}

/-- The bits of a body outside the leaves of present sections: the name where section 0 is present, over the marker
(R205). -/
theorem bitAt_encodeBody (hlay : wfLayout c.layout) (h : encodeBody c p name len psec = .ok t) {q : Nat × Nat}
    (hq : ∀ l ∈ c.leaves, psec.getLsbD l.sect = true → q ∉ footprint l) :
    bitAt t q = if psec.getLsbD 0 = true ∧ 4 ≤ q.1 ∧ q.1 < 4 + min len 12 then (name.read (q.1 - 4)).getLsbD q.2
      else bitAt (Sparse.ofList c.marker.toList) q := by
  obtain ⟨t', ht', rfl⟩ := encodeBody_eq_ok.mp h
  have hwalk := bitAt_encodeLeaves (fun l hl => leafWf_of_mem hlay hl) ht' hq
  rw [← hwalk]
  have hname : (injectName name len t').read q.1 =
      if 4 ≤ q.1 ∧ q.1 < 4 + min len 12 then name.read (q.1 - 4) else t'.read q.1 := read_injectName name len t' q.1
  by_cases hp : psec.getLsbD 0 = true
  · rw [if_pos hp, bitAt, hname]
    by_cases hin : 4 ≤ q.1 ∧ q.1 < 4 + min len 12
    · rw [if_pos hin, if_pos ⟨hp, hin⟩]
    · rw [if_neg hin, if_neg fun h => hin h.2, bitAt]
  · rw [if_neg hp, if_neg fun h => hp h.1]

/-- The bytes of a body before the leaves (spec/43_layout.md R170). -/
theorem read_encodeBody (hlay : wfLayout c.layout) (h : encodeBody c p name len psec = .ok t) {a : Nat} (ha : a < 16) :
    t.read a = if psec.getLsbD 0 = true ∧ 4 ≤ a ∧ a < 4 + min len 12 then name.read (a - 4)
      else c.marker.toList.getD a 0 := by
  have hfree (b : Nat) : ∀ l ∈ c.leaves, psec.getLsbD l.sect = true → (a, b) ∉ footprint l := fun l hl _ hq => by
    have := leafWf_range (leafWf_of_mem hlay hl) _ hq
    omega
  refine BitVec.eq_of_getLsbD_eq fun b _ => ?_
  have hbit := bitAt_encodeBody hlay h (hfree b)
  simp only [bitAt, Sparse.read_ofList] at hbit
  rw [hbit]
  split <;> rfl

/-- The marker begins the body (R175). -/
theorem read_encodeBody_marker (hlay : wfLayout c.layout) (h : encodeBody c p name len psec = .ok t) {i : Nat}
    (hi : i < 4) : t.read i = c.marker.toList.getD i 0 := by
  rw [read_encodeBody hlay h (by omega), if_neg (by omega)]

/-- The name region holds the name cut to twelve bytes, padded with zeros (R205, R207). -/
theorem read_encodeBody_name (hlay : wfLayout c.layout) (h : encodeBody c p name len psec = .ok t) {a : Nat}
    (ha : a < 12) : t.read (4 + a) = if psec.getLsbD 0 = true ∧ a < len then name.read a else 0 := by
  have hmarker : c.marker.toList.getD (4 + a) 0 = 0 := List.getD_eq_default _ _ (by simp)
  rw [read_encodeBody hlay h (by omega), hmarker, Nat.add_sub_cancel_left]
  exact if_congr (and_congr_right fun _ => by omega) rfl rfl

/-- Every leaf of a present section reads its parameter: the name stands before the leaves (R205). -/
theorem readField_encodeBody (hlay : wfLayout c.layout) (h : encodeBody c p name len psec = .ok t) {k : Nat} {l : Entry}
    (hl : c.leaves[k]? = some l) (hp : psec.getLsbD l.sect = true) : readField l t = p.read k := by
  obtain ⟨t', ht', rfl⟩ := encodeBody_eq_ok.mp h
  have hwf := leafWf_of_mem hlay (leaf_of_getElem? hl)
  have hwalk := readField_encodeLeaves hlay.1 hlay.2.1 ht' hl hp
  rw [Nat.zero_add] at hwalk
  rw [← hwalk]
  split
  · refine readField_congr hwf fun q hq => ?_
    have := leafWf_range hwf q hq
    rw [bitAt, read_injectName, if_neg (by simp only [nameOff, nameLen]; omega), bitAt]
  · rfl

end

/-- A successful `ENCODE` leaves a body `encodeBody` built. -/
theorem encodeBody_of_exec {s t : State} (hf : s.faulted = false) (h : exec .encode s = .next t)
    (ht : t.faulted = false) : encodeBody s.cfg s.p s.name s.namelen.toNat s.psec = .ok t.b := by
  rcases exec_cases_of_not_faulted hf h with ⟨-, u, ⟨-, b, hb, rfl⟩, rfl⟩ | ⟨ht', -⟩
  · exact hb
  · exact absurd (ht.symm.trans ht') Bool.noConfusion

/-- Settles O57: the body is that of `encodeBody`, and each clause is a lemma about it. -/
theorem encodedBodyHoldsTheParameters : Obligations.EncodedBodyHoldsTheParameters := by
  intro s t hf hadm h ht
  obtain ⟨hlay, -⟩ := hadm
  have hb := encodeBody_of_exec hf h ht
  refine ⟨fun i hi => read_encodeBody_marker hlay hb hi, fun a ha => read_encodeBody_name hlay hb ha,
    fun k l hl hp => readField_encodeBody hlay hb hl hp, fun q hq hfree => ?zeros⟩
  case zeros =>
    have hmarker : s.cfg.marker.toList.getD q.1 0 = 0 := List.getD_eq_default _ _ (by simp; omega)
    rw [bitAt_encodeBody hlay hb hfree, if_neg (by omega), bitAt, Sparse.read_ofList, hmarker]
    exact BitVec.getLsbD_zero

/-! ### The message around a body -/

section

variable (s : State) (b : Memory)

/-- The wire buffer after the writes of a success (R206). -/
theorem read_encoded_w (a : Nat) :
    (s.encoded b).w.read a = if a < 520 then (messageBytes s.cfg b).getD a 0 else s.w.read a := by
  have hw : (s.encoded b).w = s.w.writeRange 0 (messageBytes s.cfg b) := rfl
  rw [hw, Sparse.read_writeRange, length_messageBytes]
  simp [msgLen]

theorem read_encoded_header {i : Nat} (hi : i < 7) : (s.encoded b).w.read i = headerBytes.getD i 0 := by
  rw [read_encoded_w, if_pos (by omega), getD_messageBytes, if_pos hi]
  rfl

theorem read_encoded_footer : (s.encoded b).w.read 519 = 0xF7 := by
  rw [read_encoded_w, if_pos (by omega), getD_messageBytes]
  rfl

/-- The payload is the packed body (R206). -/
theorem read_encoded_payload {i : Nat} (hi : i < 512) :
    (s.encoded b).w.read (7 + i) = (packAll s.cfg.carrierOrder (b.readRange 0 bodyLen)).getD i 0 := by
  rw [read_encoded_w, if_pos (by omega), getD_messageBytes, if_neg (by omega), if_pos (by omega),
    Nat.add_sub_cancel_left]

theorem toNat_read_encoded_payload_le {a : Nat} (h7 : 7 ≤ a) (ha : a ≤ 518) :
    ((s.encoded b).w.read a).toNat ≤ 127 := by
  obtain ⟨i, rfl⟩ := Nat.exists_eq_add_of_le h7
  rw [read_encoded_payload s b (by omega)]
  exact toNat_packAll_le _ _ (by simp [bodyLen]; omega)

/-- The payload carries the body (R206, spec/41_sevenbit.md R131). -/
theorem carriedByte_encoded {j : Nat} (hj : j < 448) :
    carriedByte s.cfg.carrierOrder (s.encoded b).w 7 j = (b.read j).toNat := by
  have hlen : (b.readRange 0 bodyLen).length = 448 := Sparse.length_readRange b 0 bodyLen
  rw [carriedByte_of_packAll (b := b.readRange 0 bodyLen) (fun i hi => read_encoded_payload s b (by omega)) (by omega),
    Sparse.getD_readRange, if_pos (show j < bodyLen from hj), Nat.zero_add]

/-- What the encoders write passes every check of `VALIDATE` (R209, point 5). -/
theorem wellFormedMessage_encoded : (s.encoded b).wellFormedMessage :=
  ⟨rfl, fun _ hi => read_encoded_header s b hi, read_encoded_footer s b, fun _ h7 ha =>
    toNat_read_encoded_payload_le s b h7 ha⟩

/-- The writes of a success and its count in `CIX` (R206). -/
theorem advance_encoded :
    (s.encoded b).advance =
      { s.reportedSuccess with b := b, w := (s.encoded b).w, wlen := 520, cix := s.cix + 1 } := by
  rw [State.encoded, advance_commitResult_success]
  rfl

end

/-- Settles O55: the message by index, and `VALIDATE` of it by `validate_valid_iff`. -/
theorem encodeWritesTheMessage : Obligations.EncodeWritesTheMessage := by
  intro s hf hm hr
  obtain ⟨b, hb⟩ := encodeBody_of_parametersInRange hr
  have hf' : (s.encoded b).advance.faulted = false := by simpa using hf
  have hvalid : (validate s.cfg.paycap (s.encoded b).w (s.encoded b).wlen).valid = true :=
    (validate_valid_iff (s.encoded b) s.cfg.paycap).mpr (wellFormedMessage_encoded s b)
  refine ⟨b, (s.encoded b).w, ((s.encoded b).advance.commitResult (validate s.cfg.paycap (s.encoded b).w
    (s.encoded b).wlen)).advance, ?encode, fun i hi => read_encoded_header s b hi, read_encoded_footer s b,
    fun a h7 ha => toNat_read_encoded_payload_le s b h7 ha, fun j hj => carriedByte_encoded s b hj, fun a ha => ?beyond,
    ?validate, ?valid, ?err⟩
  case encode => rw [exec_encode_ok hf hm hb, advance_encoded]
  case beyond => rw [read_encoded_w, if_neg (by omega)]
  case validate =>
    rw [← advance_encoded]
    exact exec_validate hf'
  case valid => simpa using hvalid
  case err => exact of_decide_eq_true hvalid

/-! ### What the encoders do not read -/

/-- The body depends on the registers of present sections and, where section 0 is present, on the first
`min(NAMELEN, 12)` name bytes alone (R205, R207). -/
theorem encodeBody_congr {c : Config} {p p' : Sparse 16} {n n' : Memory} {len len' : Nat} {psec : Word}
    (hp : ∀ k l, c.leaves[k]? = some l → psec.getLsbD l.sect = true → p'.read k = p.read k)
    (hn : psec.getLsbD 0 = true → min len' 12 = min len 12 ∧ ∀ a, a < min len 12 → n'.read a = n.read a) :
    encodeBody c p' n' len' psec = encodeBody c p n len psec := by
  have hname (t : Memory) (h0 : psec.getLsbD 0 = true) : injectName n' len' t = injectName n len t := by
    obtain ⟨hlen, hbytes⟩ := hn h0
    have hread : n'.readRange 0 (min len 12) = n.readRange 0 (min len 12) :=
      readRange_congr fun i hi => by simpa using hbytes i hi
    rw [injectName, injectName, nameLen, hlen, hread]
  rw [encodeBody, encodeBody, encodeLeaves_congr _ (by simpa using hp)]
  split
  · rfl
  · next t _ =>
    by_cases h0 : psec.getLsbD 0 = true
    · rw [if_pos h0, if_pos h0, hname t h0]
    · rw [if_neg h0, if_neg h0]

/-- Settles O59: both encoders meet the same missing sections and, by `encodeBody_congr`, the same body. -/
theorem encodersIgnoreAbsentParameters : Obligations.EncodersIgnoreAbsentParameters := by
  intro s t p n len hp hn
  have hbody : encodeBody s.cfg p n len.toNat s.psec = encodeBody s.cfg s.p s.name s.namelen.toNat s.psec :=
    encodeBody_congr hp hn
  have hboth {i : Instr} {u : State} := exec_next_map (f := fun u => ((u.setP p).setName n).setNamelen len) (i := i)
    (s := s) (t := t) (u := u)
  cases hf : s.faulted with
  | true =>
    have hf' : (((s.setP p).setName n).setNamelen len).faulted = true := hf
    exact ⟨hboth (exec_of_faulted hf _) (exec_of_faulted hf' _), hboth (exec_of_faulted hf _) (exec_of_faulted hf' _)⟩
  | false =>
    have hf' : (((s.setP p).setName n).setNamelen len).faulted = false := hf
    by_cases hm : s.missing = 0
    · cases hb : encodeBody s.cfg s.p s.name s.namelen.toNat s.psec with
      | error kv =>
        exact ⟨hboth (exec_encode_error hf hm hb) (exec_encode_error hf' hm (hbody.trans hb)),
          hboth (exec_safeenc_error hf hm hb) (exec_safeenc_error hf' hm (hbody.trans hb))⟩
      | ok b =>
        exact ⟨hboth (exec_encode_ok hf hm hb) (exec_encode_ok hf' hm (hbody.trans hb)),
          hboth (exec_safeenc_ok hf hm hb) (exec_safeenc_ok hf' hm (hbody.trans hb))⟩
    · exact ⟨hboth (exec_encode_missing hf hm) (exec_encode_missing hf' hm),
        hboth (exec_safeenc_missing hf hm) (exec_safeenc_missing hf' hm)⟩

/-! ### The round trip -/

/-- The trimmed length is the one length that ends at a byte that is not 0 with zeros after it (R202). -/
theorem nameLenOf_eq {t : Memory} {len : Nat} (hle : len ≤ 12) (hlast : len = 0 ∨ t.read (4 + (len - 1)) ≠ 0)
    (hrest : ∀ a, len ≤ a → a < 12 → t.read (4 + a) = 0) : nameLenOf t = len := by
  have hle' := nameLenOf_le t
  obtain ⟨-, hlast', hrest'⟩ := trimmedLen_spec t nameLen
  rcases Nat.lt_trichotomy (nameLenOf t) len with h | h | h
  · have hne : t.read (nameOff + (len - 1)) ≠ 0 := hlast.resolve_left (by omega)
    exact absurd (hrest' (len - 1) (Nat.le_sub_one_of_lt h) (by simp only [nameLen]; omega)) hne
  · exact h
  · have hne : t.read (4 + (nameLenOf t - 1)) ≠ 0 := hlast'.resolve_left (show nameLenOf t ≠ 0 by omega)
    exact absurd (hrest (nameLenOf t - 1) (Nat.le_sub_one_of_lt h) (by omega)) hne

/-- The body an encoded message carries is the body it was built from (spec/41_sevenbit.md R131). -/
theorem ofList_messageBody_encoded {s : State} {b : Memory} (hb : Sparse.wf b = true ∧ b.below bodyLen = true) :
    Sparse.ofList (messageBody s.cfg (s.encoded b).w) = b := by
  refine Sparse.ext_of_wf (Sparse.wf_ofList _) hb.1 fun a => ?_
  by_cases ha : a < 448
  · rw [← BitVec.toNat_inj, toNat_read_messageBody _ _ ha, carriedByte_encoded s b ha]
  · have hout : bodyLen ≤ a := Nat.le_of_not_lt ha
    rw [Sparse.read_of_below (below_messageBody _ _) hout, Sparse.read_of_below hb.2 hout]

/-- An encoded message begins with the marker of its body (spec/42_frame.md R148). -/
theorem markerPresent_encoded {s : State} {b : Memory} (hb : ∀ i, i < 4 → b.read i = s.cfg.marker.toList.getD i 0) :
    (s.encoded b).markerPresent := fun i hi => by
  have hcarried := carriedByte_encoded s b (show i < 448 by omega)
  rw [hb i hi] at hcarried
  exact hcarried

theorem wellFormedMessage_advance (s : State) : s.advance.wellFormedMessage ↔ s.wellFormedMessage := Iff.rfl

theorem markerPresent_advance (s : State) : s.advance.markerPresent ↔ s.markerPresent := Iff.rfl

/-- `DECODE` of an encoded message delivers what its body holds (R203, R209). -/
theorem exec_decode_encoded {s : State} {b : Memory} (hf : s.faulted = false)
    (hb : Sparse.wf b = true ∧ b.below bodyLen = true) (hm : ∀ i, i < 4 → b.read i = s.cfg.marker.toList.getD i 0) :
    exec .decode (s.encoded b).advance = .next ((s.encoded b).advance.decoded b).advance := by
  have hf' : (s.encoded b).advance.faulted = false := by simpa using hf
  have hbody : Sparse.ofList (messageBody (s.encoded b).advance.cfg (s.encoded b).advance.w) = b :=
    ofList_messageBody_encoded (s := s) hb
  have hw := (wellFormedMessage_advance _).mpr (wellFormedMessage_encoded s b)
  rw [exec_decode_message hf' hw ((markerPresent_advance _).mpr (markerPresent_encoded hm)), hbody]

/-- With every section present none is missing (R204). -/
theorem missing_of_allSections {s : State} (h : s.psec = 0x03FF) : s.missing = 0 := by
  have hnone : ~~~(0x03FF : Word) &&& 0x03FF = 0 := by decide
  rw [State.missing, h, BitVec.and_assoc, hnone]
  exact BitVec.and_zero

/-- With every section present the section of every leaf is (spec/43_layout.md R170). -/
theorem present_of_allSections {l : Entry} (hl : leafWf l = true) : (0x03FF : Word).getLsbD l.sect = true := by
  have hall : ∀ i ≤ 9, (0x03FF : Word).getLsbD i = true := by decide
  exact hall l.sect (leafWf_sect hl)

/-- The parameters decoded from a body that holds `p` are `p` (R201, R205). -/
theorem paramsOf_eq {c : Config} {p : Sparse 16} {b : Memory} (hp : p.wf = true ∧ p.below c.nleaf = true)
    (h : ∀ k l, c.leaves[k]? = some l → readField l b = p.read k) : paramsOf c b = p := by
  refine Sparse.ext_of_wf (Sparse.wf_ofList _) hp.1 fun k => ?_
  by_cases hk : k < c.nleaf
  · obtain ⟨l, hl⟩ : ∃ l, c.leaves[k]? = some l := ⟨_, List.getElem?_eq_getElem hk⟩
    rw [read_paramsOf b hl, h k l hl]
  · rw [Sparse.read_of_below (below_paramsOf c b) (by omega), Sparse.read_of_below hp.2 (by omega)]

/-- A success without a fault, as the two low bits of `ST` (spec/10_state.md R31). -/
theorem toNat_st_of_success {u : State} (hv : u.valid = true) (hf : u.faulted = false) : u.st.toNat % 4 = 1 := by
  rw [State.valid, BitVec.getLsbD, Nat.testBit_eq_decide_div_mod_eq, decide_eq_true_eq] at hv
  rw [State.faulted, BitVec.getLsbD, Nat.testBit_eq_decide_div_mod_eq, decide_eq_false_iff_not] at hf
  omega

/-- Settles O60: the message carries the body `encodeBody` built, and that body holds the parameters
(`readField_encodeBody`) and the name (`read_encodeBody_name`). -/
theorem encodeThenDecode : Obligations.EncodeThenDecode := by
  intro s hf hadm hs hpsec hrange hlen hlast
  obtain ⟨hlay, -⟩ := hadm
  obtain ⟨b, hb⟩ := encodeBody_of_parametersInRange (s := s) fun k l hl _ => hrange k l hl
  have hpresent {k : Nat} {l : Entry} (hl : s.cfg.leaves[k]? = some l) : s.psec.getLsbD l.sect = true := by
    rw [hpsec]
    exact present_of_allSections (leafWf_of_mem hlay (leaf_of_getElem? hl))
  have hparams : paramsOf s.cfg b = s.p :=
    paramsOf_eq hs.p fun k l hl => readField_encodeBody hlay hb hl (hpresent hl)
  have hname {a : Nat} (ha : a < 12) : b.read (4 + a) = if a < s.namelen.toNat then s.name.read a else 0 := by
    rw [read_encodeBody_name hlay hb ha, hpsec]
    exact if_congr (and_iff_right (by decide)) rfl rfl
  have hnamelen : nameLenOf b = s.namelen.toNat := by
    refine nameLenOf_eq hlen ?_ fun a ha h12 => by rw [hname h12, if_neg (by omega)]
    by_cases hzero : s.namelen.toNat = 0
    · exact .inl hzero
    · refine .inr ?_
      rw [hname (by omega), if_pos (by omega)]
      exact hlast.resolve_left fun h => hzero (by rw [h]; rfl)
  refine ⟨_, _, exec_encode_ok hf (missing_of_allSections hpsec) hb,
    exec_decode_encoded hf (contained_encodeBody hlay hb) fun i hi => read_encodeBody_marker hlay hb hi, ?st, hparams,
    ?namelen, fun a ha => ?name⟩
  case st =>
    refine toNat_st_of_success ?_ ?_
    · simp [State.decoded, Result.success]
    · simpa [State.decoded] using hf
  case namelen =>
    rw [advance_decoded, hnamelen, BitVec.ofNat_toNat, BitVec.setWidth_eq]
  case name =>
    have hread : (nameOf b).read a = s.name.read a := by
      rw [read_nameOf, hnamelen, if_pos ha]
      exact (hname (by omega)).trans (if_pos ha)
    exact hread

end Sys2Proof.Machine
end
